-- ==== Sys2Proof/Word.lean ====
section
/-! DEFINITION. The words HTB is built from: 32-bit registers (spec/20 R81), 8-bit bytes, bit sequences
(spec/00 R10), and the two index ranges of spec/00 R6. -/

namespace Sys2Proof

/-- A register or command word, `REG_BITS = 32` (00 R6, 20 R81, 30 R110). -/
abbrev Word := BitVec 32

/-- A byte, `BYTE_BITS = 8` (00 R6). -/
abbrev Byte := BitVec 8

/-- A finite bit sequence, first bit in time first (00 R10). -/
abbrev Bits := List Bool

/-- A symbol `0..256` (00 R14): `0..255` are bytes, 256 is the end-of-stream symbol. "No other symbol values
are valid". -/
abbrev Symbol := Fin 257

/-- An arena index `0..512` (10 R46; 00 R6 row NODE_MAX). -/
abbrev NodeIdx := Fin 513

/-- A byte offset into the register window, `ADDR_BITS = 16` (00 R6, 20 R80). -/
abbrev Offset := BitVec 16

end Sys2Proof
end

