-- ==== Sys2Proof/Config.lean ====
section
/-! DEFINITION. What an implementation fixes (spec/00 R6, R7) and the model's free values. -/

namespace Sys2Proof.Config

/-- The number of symbols (00 R6). -/
abbrev NSYM : Nat := 257
/-- The end-of-stream symbol (00 R6). -/
abbrev EOS : Symbol := 256
/-- Width of one input byte (00 R6). -/
abbrev BYTE_BITS : Nat := 8
/-- Width of a leaf field of the header (00 R6). -/
abbrev LEAF_BITS : Nat := 9
/-- Width of the format marker (00 R6). -/
abbrev MAGIC_BITS : Nat := 32
/-- Arena capacity (00 R6, 10 R46). -/
abbrev NODE_MAX : Nat := 513
/-- Longest code (00 R6). -/
abbrev MAX_CODE_LEN : Nat := 256
/-- Width of a count (00 R6). -/
abbrev FREQ_BITS : Nat := 32
/-- Width of a weight (00 R6). -/
abbrev WEIGHT_BITS : Nat := 32
/-- Width of an arena index in the NODE_INFO and ROOT registers (00 R6). -/
abbrev IDX_BITS : Nat := 10
/-- Width of every register (00 R6). -/
abbrev REG_BITS : Nat := 32

/-- The format marker (00 R7): a parameter with no value in any source, so no proof can see one. Log 1. -/
opaque MAGIC : Word

/-- The value of the `k`-th read of a volatile register made while `busy = 1`: "any 32-bit value" (40 R150,
70 R351). A free value. Log 2. -/
opaque volatileRead : Nat → Word

end Sys2Proof.Config
end

