-- ==== Sys2Proof/Syntax.lean ====
section
/-! DEFINITION. The commands of HTB (spec/30 R112), one constructor per row of spec/opcode_table.json. -/

namespace Sys2Proof

/-- The thirteen commands. "No command has an operand, an immediate or a register field" (30 R111). -/
inductive Instr where
  | nop
  | clear
  | flush
  | build
  | gencodes
  | magicWrite
  | hdrWrite
  | magicRead
  | hdrRead
  | encode
  | decode
  | compress
  | decompress
deriving DecidableEq, Repr

end Sys2Proof
end

