-- ==== Sys2Proof/WellFormed.lean ====
section
/-! DEFINITION. What makes a command, a command word, a stream field and a host access well formed. -/

namespace Sys2Proof

/-- Every command is well formed: a command has no operand that could be out of range (30 R111). -/
def Instr.wf : Instr → Bool
  | .nop => true
  | .clear => true
  | .flush => true
  | .build => true
  | .gencodes => true
  | .magicWrite => true
  | .hdrWrite => true
  | .magicRead => true
  | .hdrRead => true
  | .encode => true
  | .decode => true
  | .compress => true
  | .decompress => true

/-- The opcode values of 30 R112, in the order of its table. -/
def assignedOpcodes : List Nat :=
  [0x00, 0x01, 0x02, 0x10, 0x20, 0x30, 0x31, 0x38, 0x39, 0x40, 0x50, 0x70, 0x71]

/-- "`w` is legal if and only if `w[31:8] = 0` and `w[7:0]` is one of the 13 opcodes" (30 R113). -/
def legalWord (w : Word) : Bool :=
  w.toNat / 256 == 0 && assignedOpcodes.contains (w.toNat % 256)

/-- "A host access is admitted only if it is 32 bits wide and its offset is a multiple of 4" (20 R81). -/
def admitted (off : Offset) (width : Nat) : Bool :=
  width == Config.REG_BITS && off.toNat % 4 == 0

end Sys2Proof
end

