-- ==== Sys2Proof/Decode.lean ====
section
/-! DEFINITION. Decoding of a command word (spec/30 R113, R114; spec/40 R154), total and rejecting by name; after
it the encoder (30 R111, R112), written from the same table. -/

namespace Sys2Proof

/-- Why a command word is illegal (30 R114). Both make the command fail with ILLEGAL_CMD (30 R113). -/
inductive DecodeReject where
  /-- `w[31:8] != 0`. -/
  | reservedBits
  /-- `w[31:8] = 0` and an OPCODE outside 30 R112. -/
  | unassignedOpcode
deriving DecidableEq, Repr

/-- The OPCODE field, bits 7:0 (30 R111). -/
def opcodeField (w : Word) : BitVec 8 := w.extractLsb' 0 8

/-- The RSVD field, bits 31:8 (30 R111). -/
def reservedField (w : Word) : BitVec 24 := w.extractLsb' 8 24

/-- The opcode map (30 R112). -/
def decodeOpcode (op : BitVec 8) : Option Instr :=
  match op with
  | 0x00#8 => some .nop
  | 0x01#8 => some .clear
  | 0x02#8 => some .flush
  | 0x10#8 => some .build
  | 0x20#8 => some .gencodes
  | 0x30#8 => some .magicWrite
  | 0x31#8 => some .hdrWrite
  | 0x38#8 => some .magicRead
  | 0x39#8 => some .hdrRead
  | 0x40#8 => some .encode
  | 0x50#8 => some .decode
  | 0x70#8 => some .compress
  | 0x71#8 => some .decompress
  | _ => none

/-- Decoding of any command word (30 R113, R114). -/
def decode (w : Word) : Except DecodeReject Instr :=
  if reservedField w = 0#24 then
    match decodeOpcode (opcodeField w) with
    | some i => .ok i
    | none => .error .unassignedOpcode
  else .error .reservedBits

/-- The opcode of each command (30 R112). -/
def opcodeOf : Instr → BitVec 8
  | .nop => 0x00#8
  | .clear => 0x01#8
  | .flush => 0x02#8
  | .build => 0x10#8
  | .gencodes => 0x20#8
  | .magicWrite => 0x30#8
  | .hdrWrite => 0x31#8
  | .magicRead => 0x38#8
  | .hdrRead => 0x39#8
  | .encode => 0x40#8
  | .decode => 0x50#8
  | .compress => 0x70#8
  | .decompress => 0x71#8

/-- "the command word is therefore `0x000000` followed by the opcode byte" (30 R112). -/
def encode (i : Instr) : Word := 0x000000#24 ++ opcodeOf i

/-- The host's question: what the decoder reads from the table word `w` of `nbits` bits. A command word is one
32-bit value (30 R110) with no byte order (20 R85); a value that does not fit 32 bits is no command word. -/
def decodeTableWord (nbits w : Nat) : Option Instr :=
  if w % 2 ^ nbits < 2 ^ 32 then (decode (BitVec.ofNat 32 (w % 2 ^ nbits))).toOption else none

end Sys2Proof
end

