-- ==== Sys2Proof/Machine/State.lean ====
section
/-! DEFINITION. The state of HTB (spec/10 R30), the agents' turns (spec/00 R8), and the reasons a step stops. -/

namespace Sys2Proof.Machine

/-- An arena entry: the two variants of 10 R46, R47. -/
inductive Node where
  | leaf (sym : Symbol)
  | internal (left right : NodeIdx)
deriving DecidableEq, Repr

/-- A move of the host (60 R331). -/
inductive HostAction where
  /-- A read of `width` bits at byte offset `off` (00 R11, 40 R150). -/
  | regRead (off : Offset) (width : Nat)
  /-- A write of `width` bits at byte offset `off` (00 R11, 40 R151). -/
  | regWrite (off : Offset) (width : Nat) (v : Word)
  /-- ATTACH_IN(b) (10 R58). -/
  | attachIn (b : Bits)
  /-- ATTACH_OUT (10 R58). -/
  | attachOut
  /-- Taking the output: reading the bits of `out` (60 R331). -/
  | takeOut
  /-- The reset signal (60 R331, 70 R340). -/
  | reset
deriving DecidableEq, Repr

/-- Which agent moves (00 R8): "only the host and the engine take steps". -/
inductive Turn where
  | engine
  | host (a : HostAction)
deriving DecidableEq, Repr

/-- What the host has observed: the value a register read returned, or the bits it took from the sink. -/
inductive Observation where
  | word (v : Word)
  | bits (b : Bits)
deriving DecidableEq, Repr

/-- The state: the elements of 10 R30 in its order, then the model's own three fields (logs 2, 3, 9). -/
structure State where
  /-- `freq[0..255]` (10 R45). -/
  freq : Vector Word 256
  /-- `node[0..512]` (10 R47). -/
  node : Vector Node 513
  /-- `weight[0..512]` (10 R48). -/
  weight : Vector Word 513
  /-- `node_count` (10 R40). -/
  nodeCount : Nat
  /-- `leaf_count` (10 R41). -/
  leafCount : Nat
  /-- `root` (10 R39). -/
  root : NodeIdx
  /-- `code_len[0..256]` (10 R50). -/
  codeLen : Vector Nat 257
  /-- `code_val[0..256]` (10 R51). -/
  codeVal : Vector (BitVec 256) 257
  /-- STATUS.BUSY (10 R35). -/
  busy : Bool
  /-- STATUS.DONE (10 R35). -/
  done : Bool
  /-- STATUS.ERR (10 R34). -/
  err : Bool
  /-- STATUS.TREE_VALID (10 R36). -/
  treeValid : Bool
  /-- STATUS.CODES_VALID (10 R36). -/
  codesValid : Bool
  /-- STATUS.DROP (10 R38). -/
  drop : Bool
  /-- ERROR.CAUSE (10 R37). -/
  cause : BitVec 8
  /-- ERROR.OP (10 R37). -/
  op : BitVec 8
  /-- ERROR.STEP, the spec's `step` (10 R37). -/
  stepOp : BitVec 8
  /-- ERR_POS (10 R37). -/
  errPos : Word
  /-- `sym_count` (10 R44). -/
  symCount : Nat
  /-- The accepted command word, or none (10 R55). -/
  pending : Option Word
  /-- The attached input (10 R56). -/
  inSrc : Bits
  /-- The number of input bits consumed (10 R56). -/
  inPos : Nat
  /-- Every bit written since the sink was attached (10 R57). -/
  out : Bits
  /-- MODEL'S OWN: the turns to come (70 R360: completion falls "at some point" among the host's moves). Log 3. -/
  agenda : List Turn
  /-- MODEL'S OWN: what the host has observed, oldest first. Log 9. -/
  seen : List Observation
  /-- MODEL'S OWN: how many free values have been drawn. Log 2. -/
  draws : Nat
deriving DecidableEq, Repr

/-- Why a step can stop with a fault. Both arise only in states that no run from reset reaches. -/
inductive Fault where
  /-- Raised by GENCODES, HDR_WRITE and DECODE (and COMPRESS, DECOMPRESS through them) when `treeValid = 1` and
  the arena is no tree, against 10 R49. Safe: the machine stops where the spec describes no such state. Log 6. -/
  | arenaNotATree
  /-- Raised by the engine's turn when `busy = 1` and no command is pending, against 10 R55. Safe. Log 7. -/
  | busyWithoutCommand
deriving DecidableEq, Repr

/-- Why a step can be refused. -/
inductive Refusal where
  /-- Raised by `exec` for a command that has no meaning yet. Safe. -/
  | notModelled (mnemonic : String)
  /-- Raised by the host's turn for an access that is not 32 bits wide or whose offset is not a multiple of 4: "a
  model gives the access no step (the host is stuck at it)" (20 R84). Safe. -/
  | accessNotAdmitted (off : Offset) (width : Nat)
  /-- Raised by the host's turn for ATTACH_IN, ATTACH_OUT or taking the output while `busy = 1`: "In the model the
  host has no such move while `busy = 1`" (60 R332). Unsafe, as R332 says. Log 10. -/
  | streamMoveWhileBusy
deriving DecidableEq, Repr

/-- The state right after reset (70 R340). The arena and code storage, which the spec leaves unspecified and
masked, hold zeros: DESIGN CHOICE, log 5. The model's own fields are empty. -/
def State.reset : State where
  freq := Vector.replicate 256 0#32
  node := Vector.replicate 513 (.leaf 0)
  weight := Vector.replicate 513 0#32
  nodeCount := 0
  leafCount := 0
  root := 0
  codeLen := Vector.replicate 257 0
  codeVal := Vector.replicate 257 0#256
  busy := false
  done := false
  err := false
  treeValid := false
  codesValid := false
  drop := false
  cause := 0#8
  op := 0#8
  stepOp := 0#8
  errPos := 0#32
  symCount := 0
  pending := none
  inSrc := []
  inPos := 0
  out := []
  agenda := []
  seen := []
  draws := 0

end Sys2Proof.Machine
end

