-- ==== Sys2Proof/Machine/Ops.lean ====
section
/-! DEFINITION. The named operations every command is built from: updates of the state, the error completion
(HTB's exception entry, spec/60 R310) and the acknowledge (the return from it, 60 R313), and how a command ends
(spec/40 R153). -/

namespace Sys2Proof.Machine

/-- The error causes of 60 R300, but for "none". -/
inductive Cause where
  | illegalCmd
  | noTree
  | noCodes
  | weightOverflow
  | dupSymbol
  | badMagic
  | hdrTrunc
  | hdrSymbol
  | hdrOverflow
  | truncatedPayload
  | noCode
deriving DecidableEq, Repr

/-- The CAUSE field of each error (60 R300). -/
def Cause.code : Cause → BitVec 8
  | .illegalCmd => 0x01#8
  | .noTree => 0x02#8
  | .noCodes => 0x03#8
  | .weightOverflow => 0x04#8
  | .dupSymbol => 0x05#8
  | .badMagic => 0x10#8
  | .hdrTrunc => 0x11#8
  | .hdrSymbol => 0x12#8
  | .hdrOverflow => 0x13#8
  | .truncatedPayload => 0x20#8
  | .noCode => 0x30#8

/-! Updates of the state. -/

/-- `F(s)`: "`freq[s]` for `s <= 255` and 1 for `s = 256`" (10 R45). -/
def State.count (s : State) (v : Symbol) : Nat :=
  if h : v.val < 256 then (s.freq[v.val]'h).toNat else 1

/-- A store to one arena entry (10 R47). -/
def State.setNode (s : State) (i : NodeIdx) (nd : Node) : State :=
  { s with node := s.node.set i.val nd i.isLt }

/-- A store to one weight (10 R48). -/
def State.setWeight (s : State) (i : NodeIdx) (w : Word) : State :=
  { s with weight := s.weight.set i.val w i.isLt }

/-- A store of one symbol's code, its length and its value (10 R50, R51). -/
def State.setCode (s : State) (v : Symbol) (len : Nat) (val : BitVec 256) : State :=
  { s with codeLen := s.codeLen.set v.val len v.isLt, codeVal := s.codeVal.set v.val val v.isLt }

/-- "`code_len[s] <- 0; code_val[s] <- 0`" for every symbol (42 R190). -/
def State.clearCodes (s : State) : State :=
  { s with codeLen := Vector.replicate 257 0, codeVal := Vector.replicate 257 0#256 }

/-- Both valid flags cleared, "at the start of every BUILD and HDR_READ" and by CLEAR (10 R36). -/
def State.invalidate (s : State) : State :=
  { s with treeValid := false, codesValid := false }

/-- A complete tree, marked valid (41 R170, 43 R216). -/
def State.validTree (s : State) (root : NodeIdx) (nodes leaves : Nat) : State :=
  { s with root := root, nodeCount := nodes, leafCount := leaves, treeValid := true }

/-- `sym_count <- 0` (44 R240, 45 R260). -/
def State.resetSymCount (s : State) : State := { s with symCount := 0 }

/-- `sym_count <- sym_count + 1` (44 R240, 45 R260). -/
def State.countSymbol (s : State) : State := { s with symCount := s.symCount + 1 }

/-- Acceptance of command word `w` (40 R152): `done <- 0; busy <- 1; pending <- w`. -/
def State.accept (s : State) (w : Word) : State :=
  { s with done := false, busy := true, pending := some w }

/-- A discarded host write (10 R38). -/
def State.dropped (s : State) : State := { s with drop := true }

/-- Taking an error (60 R310): `c` is the cause, `opbyte` bits 7:0 of the command word, `st` the opcode of the
failing step. "It does not set `done`, changes no other state". -/
def State.capture (s : State) (c : Cause) (opbyte st : BitVec 8) : State :=
  { s with err := true, cause := c.code, op := opbyte, stepOp := st, errPos := BitVec.ofNat 32 s.inPos }

/-- The return from an error (60 R313): `err`, CAUSE, OP, STEP and ERR_POS cleared "and nothing else". -/
def State.acknowledge (s : State) : State :=
  { s with err := false, cause := 0#8, op := 0#8, stepOp := 0#8, errPos := 0#32 }

/-- The end of a command (40 R153): `pending <- none; busy <- 0`. -/
def State.retire (s : State) : State := { s with pending := none, busy := false }

/-- `done <- 1`, a completion without error (40 R153). -/
def State.setDone (s : State) : State := { s with done := true }

/-! How a command's body ends, and its completion. -/

/-- The result of a command's body (40 R153, R154): OK, or an error with the opcode of the step that raised it; either
way with the state the body left. `stuck` is the model's own, for states against 10 R49 (log 6). -/
inductive Ran where
  | ok (s : State)
  | error (c : Cause) (st : BitVec 8) (s : State)
  | stuck (f : Fault)
deriving DecidableEq, Repr

/-- What follows runs only after OK: "ends the current command with error cause `E`" (00 R13). -/
def Ran.andThen : Ran → (State → Ran) → Ran
  | .ok s, k => k s
  | .error c st s, _ => .error c st s
  | .stuck f, _ => .stuck f

/-- Completion of a command whose word has OPCODE `opbyte` (40 R153). -/
def complete (opbyte : BitVec 8) : Ran → Host.Outcome State Fault Refusal
  | .ok s => .next s.retire.setDone
  | .error c st s => .next (s.retire.capture c opbyte st)
  | .stuck f => .fault f

/-- Completion of an illegal word: ILLEGAL_CMD, "changes no state other than the completion's own" (40 R154). -/
def completeIllegal (w : Word) (s : State) : Host.Outcome State Fault Refusal :=
  complete (opcodeField w) (.error .illegalCmd (opcodeField w) s)

end Sys2Proof.Machine
end

