-- ==== Sys2Proof/Machine/Operands.lean ====
section
/-! DEFINITION. The operands of the commands: a command word carries none (spec/30 R111), "the operands HTB
assembles from bits are the stream fields" (30 R115). Bit sequences and their values (00 R10), and the stream
primitives (spec/20 R91 to R96). -/

namespace Sys2Proof.Machine

/-- `bits_n(v)`: the `n` low bits of `v`, most significant first (00 R10). -/
def bitsOf : Nat → Nat → Bits
  | 0, _ => []
  | n + 1, v => v.testBit n :: bitsOf n v

/-- `val(c)`: the number whose big-endian sequence is `c` (00 R10). -/
def valOf (c : Bits) : Nat := c.foldl (fun acc b => 2 * acc + b.toNat) 0

/-- `readBits(n)` (20 R91): `none` is EOI, which "consumes nothing" (20 R92). -/
def readBits (n : Nat) (s : State) : Option (BitVec n × State) :=
  if s.inPos + n > s.inSrc.length then none
  else some (BitVec.ofNat n (valOf ((s.inSrc.drop s.inPos).take n)), { s with inPos := s.inPos + n })

/-- `writeBits(n, v)` (20 R93). -/
def State.writeBits (s : State) (n v : Nat) : State := { s with out := s.out ++ bitsOf n v }

/-- The number of zero bits `finalize()` appends to an output of `len` bits (20 R95). -/
def padding (len : Nat) : Nat := (8 - len % 8) % 8

/-- `finalize()` (20 R95). -/
def State.finalize (s : State) : State :=
  { s with out := s.out ++ List.replicate (padding s.out.length) false }

/-- The input bits not yet consumed (10 R56). -/
def State.unread (s : State) : Bits := s.inSrc.drop s.inPos

/-- The bit sequence of a byte sequence: the first bit of each byte is its most significant bit (20 R96). -/
def bytesToBits : List Byte → Bits
  | [] => []
  | b :: bs => bitsOf Config.BYTE_BITS b.toNat ++ bytesToBits bs

/-- A byte as a symbol (44 R240: "`v` in `[0, 256)`"). -/
def byteSymbol (v : BitVec 8) : Symbol := ⟨v.toNat, Nat.lt_of_lt_of_le v.isLt (by decide)⟩

end Sys2Proof.Machine
end

