-- ==== Sys2Proof/Machine/Flags.lean ====
section
/-! DEFINITION. The STATUS and ERROR words (spec/10 R34, R37) and the write-one-to-clear of STATUS (40 R158). HTB
computes no arithmetic flag: its flags are the six STATUS bits, which `accept`, `retire`, `setDone`, `capture`,
`acknowledge`, `invalidate`, `validTree` and `dropped` of Machine/Ops.lean write. -/

namespace Sys2Proof.Machine

/-- The STATUS register (10 R34): BUSY, DONE, ERR, TREE_VALID, CODES_VALID, DROP in bits 0 to 5, bits 31:6 zero. -/
def State.statusWord (s : State) : Word :=
  0#26 ++ BitVec.ofBool s.drop ++ BitVec.ofBool s.codesValid ++ BitVec.ofBool s.treeValid
    ++ BitVec.ofBool s.err ++ BitVec.ofBool s.done ++ BitVec.ofBool s.busy

/-- The ERROR register (10 R37): CAUSE 7:0, OP 15:8, STEP 23:16, bits 31:24 zero. -/
def State.errorWord (s : State) : Word := 0#8 ++ s.stepOp ++ s.op ++ s.cause

/-- STATUS bit 1 written with 1: `done <- 0` (40 R158). -/
def State.clearDone (s : State) : State := { s with done := false }

/-- STATUS bit 5 written with 1: `drop <- 0` (40 R158). -/
def State.clearDrop (s : State) : State := { s with drop := false }

/-- `StatusWrite(v)` (40 R158): "bits 0, 3, 4 and 31:6 are ignored". -/
def State.statusWrite (s : State) (v : Word) : State :=
  let s1 := if v.getLsbD 1 then s.clearDone else s
  let s2 := if v.getLsbD 2 then s1.acknowledge else s1
  if v.getLsbD 5 then s2.clearDrop else s2

end Sys2Proof.Machine
end

