-- ==== Sys2Proof/Machine/CodeTable.lean ====
section
/-! DEFINITION. The Code Table Generator: GENCODES (spec/42 R190 to R195). -/

namespace Sys2Proof.Machine

/-- `Walk(i, p)` (42 R190), left before right. The first argument bounds the depth: a tree of at most 513 entries is
never deeper than that (10 R61), so it runs out only in an arena that is no tree (log 6). -/
def walk : Nat → NodeIdx → Bits → State → Ran
  | 0, _, _, _ => .stuck .arenaNotATree
  | k + 1, i, p, s =>
    match s.node[i.val] with
    | .leaf v =>
      if s.codeLen[v.val] = 0 then .ok (s.setCode v p.length (BitVec.ofNat 256 (valOf p)))
      else .error .dupSymbol (opcodeOf .gencodes) s
    | .internal l r => (walk k l (p ++ [false]) s).andThen (walk k r (p ++ [true]))

/-- `codes_valid <- 0` (42 R190). -/
def State.invalidateCodes (s : State) : State := { s with codesValid := false }

/-- `codes_valid <- 1` (42 R190). -/
def State.validCodes (s : State) : State := { s with codesValid := true }

/-- The codes of the tree: a root leaf gets the code `[0]` (42 R191), any other tree its paths (42 R190). -/
def assignCodes (s : State) : Ran :=
  match s.node[s.root.val] with
  | .leaf v => .ok (s.setCode v 1 0#256)
  | .internal _ _ => walk Config.NODE_MAX s.root [] s

/-- GENCODES's body (42 R190). -/
def runGencodes (s : State) : Ran :=
  if s.treeValid then (assignCodes s.invalidateCodes.clearCodes).andThen (fun t => .ok t.validCodes)
  else .error .noTree (opcodeOf .gencodes) s.invalidateCodes

/-- GENCODES (42 R190). -/
def execGencodes (s : State) : Host.Outcome State Fault Refusal := complete (opcodeOf .gencodes) (runGencodes s)

end Sys2Proof.Machine
end

