-- ==== Sys2Proof/Machine/Control.lean ====
section
/-! DEFINITION. The control commands NOP, CLEAR and FLUSH (spec/40 R155 to R157). -/

namespace Sys2Proof.Machine

/-- "Pseudocode: no effect" (40 R155). -/
def runNop (s : State) : Ran := .ok s

/-- CLEAR's body (40 R156). "It does not touch `in_src`, `in_pos` or `out`"; the arena and code storage are left as
they are, masked by the valid flags (log 8). -/
def runClear (s : State) : Ran :=
  .ok { s.invalidate.acknowledge with
    freq := Vector.replicate 256 0#32
    root := 0
    nodeCount := 0
    leafCount := 0
    symCount := 0
    drop := false }

/-- FLUSH's body: `finalize()` (40 R157). -/
def runFlush (s : State) : Ran := .ok s.finalize

/-- NOP (40 R155). -/
def execNop (s : State) : Host.Outcome State Fault Refusal := complete (opcodeOf .nop) (runNop s)

/-- CLEAR (40 R156). -/
def execClear (s : State) : Host.Outcome State Fault Refusal := complete (opcodeOf .clear) (runClear s)

/-- FLUSH (40 R157). -/
def execFlush (s : State) : Host.Outcome State Fault Refusal := complete (opcodeOf .flush) (runFlush s)

end Sys2Proof.Machine
end

