-- ==== Sys2Proof/Machine/Decoder.lean ====
section
/-! DEFINITION. The Bitstream Decoder: DECODE (spec/45 R260 to R265). -/

namespace Sys2Proof.Machine

/-- Where bit `b` moves the position (45 R260): a root that is a leaf takes every bit (45 R261); else left for 0 and
right for 1. `none` when `pos` is a leaf below the root, which is never so at the top of the loop (45 R260, log 6). -/
def descend (s : State) (pos : NodeIdx) (b : BitVec 1) : Option NodeIdx :=
  match s.node[s.root.val] with
  | .leaf _ => some s.root
  | .internal _ _ =>
    match s.node[pos.val] with
    | .leaf _ => none
    | .internal l r => some (if b = 0#1 then l else r)

/-- The loop of 45 R260. The first argument bounds the rounds by the unread bits: each round reads one, and when none
is left the read answers EOI (45 R262). -/
def decodeLoop : Nat → NodeIdx → State → Ran
  | 0, _, s => .error .truncatedPayload (opcodeOf .decode) s
  | k + 1, pos, s =>
    match readBits 1 s with
    | none => .error .truncatedPayload (opcodeOf .decode) s
    | some (b, s') =>
      match descend s' pos b with
      | none => .stuck .arenaNotATree
      | some pos' =>
        match s'.node[pos'.val] with
        | .internal _ _ => decodeLoop k pos' s'
        | .leaf v =>
          if v = Config.EOS then .ok s'
          else decodeLoop k s'.root (s'.writeBits Config.BYTE_BITS v.val).countSymbol

/-- DECODE's body (45 R260). -/
def runDecode (s : State) : Ran :=
  if s.treeValid then decodeLoop s.unread.length s.root s.resetSymCount
  else .error .noTree (opcodeOf .decode) s.resetSymCount

/-- DECODE (45 R260). -/
def execDecode (s : State) : Host.Outcome State Fault Refusal := complete (opcodeOf .decode) (runDecode s)

end Sys2Proof.Machine
end

