-- ==== Sys2Proof/Machine/Encoder.lean ====
section
/-! DEFINITION. The Bitstream Encoder: ENCODE (spec/44 R240 to R245). -/

namespace Sys2Proof.Machine

/-- One lookup and write (44 R240): NO_CODE for a symbol without a code (44 R241). -/
def emitCode (v : Symbol) (s : State) : Ran :=
  if s.codeLen[v.val] = 0 then .error .noCode (opcodeOf .encode) s
  else .ok (s.writeBits s.codeLen[v.val] s.codeVal[v.val].toNat)

/-- The loop of 44 R240, until `readBits(8)` answers EOI. The first argument bounds the rounds: each reads 8 bits, so
as many rounds as there are unread bits are enough (70 R362). -/
def encodeLoop : Nat → State → Ran
  | 0, s => .ok s
  | k + 1, s =>
    match readBits Config.BYTE_BITS s with
    | none => .ok s
    | some (v, s') => (emitCode (byteSymbol v) s').andThen (fun t => encodeLoop k t.countSymbol)

/-- ENCODE's body (44 R240). -/
def runEncode (s : State) : Ran :=
  if s.codesValid then
    (encodeLoop s.unread.length s.resetSymCount).andThen (emitCode Config.EOS)
  else .error .noCodes (opcodeOf .encode) s.resetSymCount

/-- ENCODE (44 R240). -/
def execEncode (s : State) : Host.Outcome State Fault Refusal := complete (opcodeOf .encode) (runEncode s)

end Sys2Proof.Machine
end

