-- ==== Sys2Proof/Machine/HeaderCodec.lean ====
section
/-! DEFINITION. The Header Codec: MAGIC_WRITE, HDR_WRITE, MAGIC_READ and HDR_READ (spec/43 R210 to R222). -/

namespace Sys2Proof.Machine

/-- MAGIC_WRITE's body, for a marker `magic` (43 R210; 00 R7: "A model takes it as an argument"). -/
def runMagicWrite (magic : Word) (s : State) : Ran := .ok (s.writeBits Config.MAGIC_BITS magic.toNat)

/-- `WriteNode(i)` (43 R212). The first argument bounds the depth as in `walk` (10 R61, log 6). -/
def writeNode : Nat → NodeIdx → State → Ran
  | 0, _, _ => .stuck .arenaNotATree
  | k + 1, i, s =>
    match s.node[i.val] with
    | .internal l r => (writeNode k l (s.writeBits 1 0)).andThen (writeNode k r)
    | .leaf v => .ok ((s.writeBits 1 1).writeBits Config.LEAF_BITS v.val)

/-- HDR_WRITE's body (43 R212). -/
def runHdrWrite (s : State) : Ran :=
  if s.treeValid then writeNode Config.NODE_MAX s.root s else .error .noTree (opcodeOf .hdrWrite) s

/-- MAGIC_READ's body, for a marker `magic` (43 R214). -/
def runMagicRead (magic : Word) (s : State) : Ran :=
  match readBits Config.MAGIC_BITS s with
  | none => .error .hdrTrunc (opcodeOf .magicRead) s
  | some (v, s') => if v = magic then .ok s' else .error .badMagic (opcodeOf .magicRead) s'

/-- The result of `ReadNode()`: the index of the node read, the next free index and the state, or the error and the
state it leaves. -/
inductive NodeRead where
  | got (i : NodeIdx) (n : Nat) (s : State)
  | failed (c : Cause) (s : State)
deriving DecidableEq, Repr

/-- `ReadNode()` with next free index `n` (43 R216): preorder allocation, and at one node the checks in the order of
60 R311. The first argument bounds the depth; started at `NODE_MAX + 1` it never runs out, because every call above
has allocated a node and the capacity check "also bounds the recursion depth of ReadNode by 513" (43 R220). -/
def readNode : Nat → Nat → State → NodeRead
  | 0, _, s => .failed .hdrOverflow s
  | k + 1, n, s =>
    match readBits 1 s with
    | none => .failed .hdrTrunc s
    | some (f, s1) =>
      if h : n < Config.NODE_MAX then
        if f = 1#1 then
          match readBits Config.LEAF_BITS (s1.setWeight ⟨n, h⟩ 0#32) with
          | none => .failed .hdrTrunc (s1.setWeight ⟨n, h⟩ 0#32)
          | some (v, s2) =>
            if hv : v.toNat < Config.NSYM then .got ⟨n, h⟩ (n + 1) (s2.setNode ⟨n, h⟩ (.leaf ⟨v.toNat, hv⟩))
            else .failed .hdrSymbol s2
        else
          match readNode k (n + 1) (s1.setWeight ⟨n, h⟩ 0#32) with
          | .failed c s2 => .failed c s2
          | .got l n2 s2 =>
            match readNode k n2 s2 with
            | .failed c s3 => .failed c s3
            | .got r n3 s3 => .got ⟨n, h⟩ n3 (s3.setNode ⟨n, h⟩ (.internal l r))
      else .failed .hdrOverflow s1

/-- Whether an arena entry is a leaf. -/
def Node.isLeaf : Node → Bool
  | .leaf _ => true
  | .internal _ _ => false

/-- "the number of i in 0..n-1 with node[i] a leaf" (43 R216). -/
def leavesBelow (n : Nat) (s : State) : Nat := (s.node.toList.take n).countP Node.isLeaf

/-- HDR_READ's body (43 R216). -/
def runHdrRead (s : State) : Ran :=
  match readNode (Config.NODE_MAX + 1) 0 s.invalidate with
  | .failed c t => .error c (opcodeOf .hdrRead) t
  | .got r n t => .ok (t.validTree r n (leavesBelow n t))

/-- MAGIC_WRITE (43 R210). -/
def execMagicWrite (s : State) : Host.Outcome State Fault Refusal :=
  complete (opcodeOf .magicWrite) (runMagicWrite Config.MAGIC s)

/-- HDR_WRITE (43 R212). -/
def execHdrWrite (s : State) : Host.Outcome State Fault Refusal := complete (opcodeOf .hdrWrite) (runHdrWrite s)

/-- MAGIC_READ (43 R214). -/
def execMagicRead (s : State) : Host.Outcome State Fault Refusal :=
  complete (opcodeOf .magicRead) (runMagicRead Config.MAGIC s)

/-- HDR_READ (43 R216). -/
def execHdrRead (s : State) : Host.Outcome State Fault Refusal := complete (opcodeOf .hdrRead) (runHdrRead s)

end Sys2Proof.Machine
end

