-- ==== Sys2Proof/Machine/TreeBuilder.lean ====
section
/-! DEFINITION. The Tree Builder: BUILD (spec/41 R170 to R178). -/

namespace Sys2Proof.Machine

/-- Every symbol in ascending order, `0..256`. -/
def allSymbols : List Symbol := (List.range 257).map (Fin.ofNat 257)

/-- `F(0), F(1), ..., F(256)` in order, "F(256) = 1" (41 R170, 10 R45). -/
def State.counts (s : State) : List Nat := s.freq.toList.map BitVec.toNat ++ [1]

/-- `total <- F(0) + F(1) + ... + F(256)`, "exact natural number" (41 R170). -/
def totalWeight (s : State) : Nat := s.counts.sum

/-- BUILD's transient working set (10 R60): the arena being filled, its next free index `n`, and the priority queue,
a set of arena indices held as a list with no repeats. -/
structure Forest where
  node : Vector Node 513
  weight : Vector Word 513
  n : Nat
  pq : List NodeIdx
deriving DecidableEq, Repr

/-- `node[n] <- nd; weight[n] <- w; PQ <- PQ + {n}; n <- n + 1` (41 R170). The arena has room at every allocation,
because BUILD uses `2L - 1 <= 513` entries (41 R174), so the last line is never taken. -/
def Forest.alloc (f : Forest) (nd : Node) (w : Word) : Forest :=
  if h : f.n < Config.NODE_MAX then
    { node := f.node.set f.n nd h, weight := f.weight.set f.n w h, n := f.n + 1, pq := f.pq ++ [⟨f.n, h⟩] }
  else f

/-- The queue order: "compared first by weight and then by arena index" (41 R171). -/
def keyLt (weight : Vector Word 513) (a b : NodeIdx) : Bool :=
  decide (weight[a.val].toNat < weight[b.val].toNat)
    || (decide (weight[a.val].toNat = weight[b.val].toNat) && decide (a.val < b.val))

/-- The element with the least key, and the queue without it (41 R170). -/
def extractMin (weight : Vector Word 513) : List NodeIdx → Option (NodeIdx × List NodeIdx)
  | [] => none
  | x :: xs =>
    match extractMin weight xs with
    | none => some (x, [])
    | some (m, rest) => if keyLt weight x m then some (x, xs) else some (m, x :: rest)

/-- The leaves (41 R170): one for each symbol of nonzero count, in ascending order (41 R171). The list pairs each symbol
with its count. -/
def addLeaves : List (Symbol × Nat) → Forest → Forest
  | [], f => f
  | (v, c) :: rest, f => if c = 0 then addLeaves rest f else addLeaves rest (f.alloc (.leaf v) (BitVec.ofNat 32 c))

/-- "while |PQ| > 1" (41 R170): the two least entries are merged, the first extracted as the left child (41 R172).
Each round leaves the queue one shorter, so a queue of `k` entries needs fewer than `k` rounds. -/
def mergeAll : Nat → Forest → Forest
  | 0, f => f
  | k + 1, f =>
    match extractMin f.weight f.pq with
    | none => f
    | some (a, rest) =>
      match extractMin f.weight rest with
      | none => f
      | some (b, rest') =>
        mergeAll k ({ f with pq := rest' }.alloc (.internal a b) (f.weight[a.val] + f.weight[b.val]))

/-- The forest before any leaf: the arena as it stands, nothing allocated (41 R170). -/
def emptyForest (s : State) : Forest := { node := s.node, weight := s.weight, n := 0, pq := [] }

/-- The forest of leaves (41 R170). -/
def leafForest (s : State) : Forest := addLeaves (allSymbols.zip s.counts) (emptyForest s)

/-- The forest after the merges; its queue holds one entry, the root (41 R170, R174). -/
def builtForest (s : State) : Forest := mergeAll (leafForest s).pq.length (leafForest s)

/-- BUILD's body (41 R170). -/
def runBuild (s : State) : Ran :=
  if totalWeight s > 2 ^ 32 - 1 then .error .weightOverflow (opcodeOf .build) s.invalidate
  else
    .ok ({ s.invalidate with node := (builtForest s).node, weight := (builtForest s).weight }.validTree
      ((builtForest s).pq.headD 0) (builtForest s).n (leafForest s).n)

/-- BUILD (41 R170). -/
def execBuild (s : State) : Host.Outcome State Fault Refusal := complete (opcodeOf .build) (runBuild s)

end Sys2Proof.Machine
end

