-- ==== Sys2Proof/Machine/Pipeline.lean ====
section
/-! DEFINITION. The end-to-end commands COMPRESS and DECOMPRESS (spec/46 R280 to R286). -/

namespace Sys2Proof.Machine

/-- COMPRESS's body (46 R280): the steps in order; the first that raises an error ends it with that step's own opcode
(46 R284), and "On error no FLUSH is run". -/
def runCompress (magic : Word) (s : State) : Ran :=
  (((((runBuild s).andThen runGencodes).andThen (runMagicWrite magic)).andThen runHdrWrite).andThen
    runEncode).andThen runFlush

/-- DECOMPRESS's body (46 R282). -/
def runDecompress (magic : Word) (s : State) : Ran :=
  (((runMagicRead magic s).andThen runHdrRead).andThen runDecode).andThen runFlush

/-- COMPRESS (46 R280). -/
def execCompress (s : State) : Host.Outcome State Fault Refusal :=
  complete (opcodeOf .compress) (runCompress Config.MAGIC s)

/-- DECOMPRESS (46 R282). -/
def execDecompress (s : State) : Host.Outcome State Fault Refusal :=
  complete (opcodeOf .decompress) (runDecompress Config.MAGIC s)

end Sys2Proof.Machine
end

