-- ==== Sys2Proof/Machine/Registers.lean ====
section
/-! DEFINITION. The register window: the map (spec/20 R82), what each register reads (spec/10 R33 to R51), and the
host's register read and write (spec/40 R150 to R152, R158, R159). -/

namespace Sys2Proof.Machine

/-- The registers of 20 R82; `reserved` is every aligned offset the map does not list (20 R83). -/
inductive Reg where
  | cmd
  | status
  | error
  | errPos
  | magic
  | root
  | nodeCount
  | leafCount
  | inPos
  | outBits
  | symCount
  | freq (v : Symbol)
  | nodeInfo (i : NodeIdx)
  | nodeWeight (i : NodeIdx)
  | codeLen (v : Symbol)
  | codeWord (v : Symbol) (k : Fin 8)
  | reserved
deriving DecidableEq, Repr

/-- The register at an aligned offset (20 R82). -/
def regAt (off : Offset) : Reg :=
  let a := off.toNat
  if h : 0x1000 ≤ a ∧ a ≤ 0x1400 then .freq ⟨(a - 0x1000) / 4, by omega⟩
  else if h : 0x2000 ≤ a ∧ a ≤ 0x2800 then .nodeInfo ⟨(a - 0x2000) / 4, by omega⟩
  else if h : 0x3000 ≤ a ∧ a ≤ 0x3800 then .nodeWeight ⟨(a - 0x3000) / 4, by omega⟩
  else if h : 0x4000 ≤ a ∧ a ≤ 0x4400 then .codeLen ⟨(a - 0x4000) / 4, by omega⟩
  else if h : 0x8000 ≤ a ∧ a ≤ 0xA01C then .codeWord ⟨(a - 0x8000) / 32, by omega⟩ ⟨(a - 0x8000) / 4 % 8, by omega⟩
  else
    match a with
    | 0x0000 => .cmd
    | 0x0004 => .status
    | 0x0008 => .error
    | 0x000C => .errPos
    | 0x0010 => .magic
    | 0x0014 => .root
    | 0x0018 => .nodeCount
    | 0x001C => .leafCount
    | 0x0020 => .inPos
    | 0x0024 => .outBits
    | 0x0028 => .symCount
    | _ => .reserved

/-- The volatile registers (40 R150). -/
def Reg.volatile : Reg → Bool
  | .root => true
  | .nodeCount => true
  | .leafCount => true
  | .inPos => true
  | .outBits => true
  | .symCount => true
  | .nodeInfo _ => true
  | .nodeWeight _ => true
  | .codeLen _ => true
  | .codeWord _ _ => true
  | .cmd => false
  | .status => false
  | .error => false
  | .errPos => false
  | .magic => false
  | .freq _ => false
  | .reserved => false

/-- NODE_INFO of one entry (10 R47): a leaf has bit 31 and SYM in 8:0; an internal node has LEFT in 9:0 and RIGHT in
25:16. -/
def nodeInfoWord : Node → Word
  | .leaf v => 1#1 ++ 0#22 ++ BitVec.ofNat 9 v.val
  | .internal l r => 0#6 ++ BitVec.ofNat 10 r.val ++ 0#6 ++ BitVec.ofNat 10 l.val

/-- "the value 10_state.md gives the register" (40 R150), masked by the valid flags. -/
def State.regValue (s : State) : Reg → Word
  | .cmd => 0#32
  | .status => s.statusWord
  | .error => s.errorWord
  | .errPos => s.errPos
  | .magic => Config.MAGIC
  | .root => if s.treeValid then BitVec.ofNat 32 s.root.val else 0#32
  | .nodeCount => if s.treeValid then BitVec.ofNat 32 s.nodeCount else 0#32
  | .leafCount => if s.treeValid then BitVec.ofNat 32 s.leafCount else 0#32
  | .inPos => BitVec.ofNat 32 s.inPos
  | .outBits => BitVec.ofNat 32 s.out.length
  | .symCount => BitVec.ofNat 32 s.symCount
  | .freq v => BitVec.ofNat 32 (s.count v)
  | .nodeInfo i => if s.treeValid && decide (i.val < s.nodeCount) then nodeInfoWord s.node[i.val] else 0#32
  | .nodeWeight i => if s.treeValid && decide (i.val < s.nodeCount) then s.weight[i.val] else 0#32
  | .codeLen v => if s.codesValid then BitVec.ofNat 32 s.codeLen[v.val] else 0#32
  | .codeWord v k => if s.codesValid then s.codeVal[v.val].extractLsb' (32 * k.val) 32 else 0#32
  | .reserved => 0#32

/-- The host's record of a value (log 9). -/
def State.observe (s : State) (o : Observation) : State := { s with seen := s.seen ++ [o] }

/-- A free value drawn (log 2). -/
def State.draw (s : State) : State := { s with draws := s.draws + 1 }

/-- An admitted `RegRead(off)` (40 R150): a volatile register read while `busy = 1` returns any value (70 R351). -/
def State.readReg (s : State) (r : Reg) : State :=
  if s.busy && r.volatile then s.draw.observe (.word (Config.volatileRead s.draws))
  else s.observe (.word (s.regValue r))

/-- `CmdWrite(w)` (40 R152): "only CLEAR is accepted while an error is pending". -/
def State.cmdWrite (s : State) (w : Word) : State :=
  if s.err && decide (w ≠ 0x00000001#32) then s.dropped else s.accept w

/-- A FREQ write (40 R159); "a write to FREQ[256] is ignored". -/
def State.freqWrite (s : State) (v : Symbol) (x : Word) : State :=
  if h : v.val < 256 then { s with freq := s.freq.set v.val x h } else s

/-- An admitted `RegWrite(off, v)` (40 R151): discarded while `busy = 1` (70 R350); CMD, STATUS and FREQ take it; a
write to any other register "has no effect" (20 R83). -/
def State.writeReg (s : State) (r : Reg) (x : Word) : State :=
  if s.busy then s.dropped
  else
    match r with
    | .cmd => s.cmdWrite x
    | .status => s.statusWrite x
    | .freq v => s.freqWrite v x
    | .error => s
    | .errPos => s
    | .magic => s
    | .root => s
    | .nodeCount => s
    | .leafCount => s
    | .inPos => s
    | .outBits => s
    | .symCount => s
    | .nodeInfo _ => s
    | .nodeWeight _ => s
    | .codeLen _ => s
    | .codeWord _ _ => s
    | .reserved => s

end Sys2Proof.Machine
end

