-- ==== Sys2Proof/Machine/HostMoves.lean ====
section
/-! DEFINITION. The host's moves (spec/60 R331), each one step; and the host notation of spec/30 R127, R128 as lists
of turns. -/

namespace Sys2Proof.Machine

/-- ATTACH_IN(b): `in_src <- b`, `in_pos <- 0` (10 R58). -/
def State.attachIn (s : State) (b : Bits) : State := { s with inSrc := b, inPos := 0 }

/-- ATTACH_OUT: `out <- []` (10 R58). -/
def State.attachOut (s : State) : State := { s with out := [] }

/-- Reset of every element of 10 R30, "whatever HTB was doing" (70 R340). What is the host's own stays: its coming
moves, its record and the count of free values (log 3, log 9, log 2). -/
def State.resetMove (s : State) : State :=
  { State.reset with agenda := s.agenda, seen := s.seen, draws := s.draws }

/-- One move of the host. -/
def hostTurn (a : HostAction) (s : State) : Host.Outcome State Fault Refusal :=
  match a with
  | .regRead off width =>
    if admitted off width then .next (s.readReg (regAt off)) else .refused (.accessNotAdmitted off width)
  | .regWrite off width v =>
    if admitted off width then .next (s.writeReg (regAt off) v) else .refused (.accessNotAdmitted off width)
  | .attachIn b => if s.busy then .refused .streamMoveWhileBusy else .next (s.attachIn b)
  | .attachOut => if s.busy then .refused .streamMoveWhileBusy else .next s.attachOut
  | .takeOut => if s.busy then .refused .streamMoveWhileBusy else .next (s.observe (.bits s.out))
  | .reset => .next s.resetMove

/-! The host notation (30 R127) and its pseudo-instructions (30 R128). -/

/-- `WR off, v` (30 R127). -/
def wr (off : Offset) (v : Word) : List Turn := [.host (.regWrite off 32 v)]

/-- `RD off` (30 R127). -/
def rd (off : Offset) : List Turn := [.host (.regRead off 32)]

/-- `CMD <MNEMONIC>` (30 R128). -/
def cmd (i : Instr) : List Turn := wr 0x0000#16 (encode i)

/-- `WAIT` (30 R128): `k` polls of STATUS that read BUSY, the engine's completion, and the poll that ends it. -/
def wait (k : Nat) : List Turn := (List.replicate k (rd 0x0004#16)).flatten ++ [.engine] ++ rd 0x0004#16

/-- `SETF s, n` (30 R128). -/
def setF (v : Symbol) (n : Word) : List Turn := wr (BitVec.ofNat 16 (0x1000 + 4 * v.val)) n

/-- `ACK bits` (30 R128). -/
def ack (bits : Word) : List Turn := wr 0x0004#16 bits

/-- `RUN <MNEMONIC>` (30 R128), with `k` polls before the completion. -/
def run (i : Instr) (k : Nat) : List Turn := cmd i ++ wait k

/-- The host's count of byte `v` in `S` (60 R330, 70 R345), as the 32-bit value it writes. DESIGN CHOICE: of a count of
`2^32` or more, which R345 gives no 32-bit value for, the host writes the low 32 bits (log 19). -/
def hostCount (S : List Byte) (v : Symbol) : Word := BitVec.ofNat 32 (S.countP (fun b => b.toNat == v.val))

/-- Steps 1 to 4 of 70 R345 for a byte sequence `S`, and taking the output. -/
def compressProgram (S : List Byte) (k : Nat) : List Turn :=
  ((List.finRange 256).map (fun v => setF v.castSucc (hostCount S v.castSucc))).flatten
    ++ [.host (.attachIn (bytesToBits S)), .host .attachOut] ++ run .compress k ++ [.host .takeOut]

/-- The decompression of a stream `B` (70 R345), and taking the output. -/
def decompressProgram (B : Bits) (k : Nat) : List Turn :=
  [.host (.attachIn B), .host .attachOut] ++ run .decompress k ++ [.host .takeOut]

end Sys2Proof.Machine
end

