-- ==== Sys2Proof/Machine/Engine.lean ====
section
/-! DEFINITION. The engine's turn: the completion of the pending command (spec/40 R153, R154). -/

namespace Sys2Proof.Machine

/-- The completion of the pending command: decode, then the command or ILLEGAL_CMD (40 R154). -/
def completePending (s : State) : Host.Outcome State Fault Refusal :=
  match s.pending with
  | none => .fault .busyWithoutCommand
  | some w =>
    match decode w with
    | .ok i => exec i s
    | .error _ => completeIllegal w s

/-- The engine's turn, "enabled exactly when `busy = 1`" (40 R153); an idle engine waits (70 R341). -/
def engineTurn (s : State) : Host.Outcome State Fault Refusal :=
  if s.busy then completePending s else .next s

/-- The next turn is taken off the agenda (log 3). -/
def State.popTurn (s : State) : State := { s with agenda := s.agenda.tail }

/-- Whose turn it is: the head of the agenda; with none left, the engine's, so that "the completion step is always
eventually taken" (70 R360). -/
def State.turn (s : State) : Turn := s.agenda.headD .engine

/-- A command word accepted by the engine, its completion the very next turn. -/
def State.offer (s : State) (w : Word) : State :=
  let t := s.accept w
  { t with agenda := .engine :: t.agenda }

end Sys2Proof.Machine
end

