-- ==== Sys2Proof/Machine/Step.lean ====
section
/-! DEFINITION. One step: the agent whose turn it is moves (spec/00 R8, spec/20 R100). -/

namespace Sys2Proof.Machine

/-- One step (log 3). -/
def step (s : State) : Host.Outcome State Fault Refusal :=
  match s.turn with
  | .engine => engineTurn s.popTurn
  | .host a => hostTurn a s.popTurn

/-- The command word `w` accepted, with its completion the next turn (log 4): HTB fetches nothing (10 R32), its
commands come from writes of CMD (40 R152). -/
def State.withFetchWord (s : State) (nbits w : Nat) : State := s.offer (BitVec.ofNat 32 (w % 2 ^ nbits))

end Sys2Proof.Machine
end

