-- ==== Sys2Proof/Safety.lean ====
section
/-! DEFINITION. The terms claims about HTB use: the tree an arena holds (spec/10 R49), its header (spec/30 R121) and
codes (spec/42 R190, R191), the code table's contents (spec/10 R52), and the invariant of the machine. -/

namespace Sys2Proof.Machine

/-- A strictly binary tree with symbols at its leaves (00 R14). -/
inductive HuffTree where
  | leaf (v : Symbol)
  | node (l r : HuffTree)
deriving DecidableEq, Repr

/-- `H` (30 R121): 0 for an internal node, then its left and right subtrees; 1 and the 9-bit symbol for a leaf. -/
def HuffTree.header : HuffTree → Bits
  | .leaf v => true :: bitsOf Config.LEAF_BITS v.val
  | .node l r => false :: (l.header ++ r.header)

/-- The leaf symbols, left to right. -/
def HuffTree.leaves : HuffTree → List Symbol
  | .leaf v => [v]
  | .node l r => l.leaves ++ r.leaves

/-- For each node in preorder, whether it is a leaf. -/
def HuffTree.preorder : HuffTree → List Bool
  | .leaf _ => [true]
  | .node l r => false :: (l.preorder ++ r.preorder)

/-- The nodes in preorder: the symbol of a leaf, none for an internal node. -/
def HuffTree.nodes : HuffTree → List (Option Symbol)
  | .leaf v => [some v]
  | .node l r => none :: (l.nodes ++ r.nodes)

/-- The header bits of one node (30 R121): its flag bit, and a leaf's 9-bit symbol. -/
def nodeBits : Option Symbol → Bits
  | none => [false]
  | some v => true :: bitsOf Config.LEAF_BITS v.val

/-- The header bits of some nodes in order. -/
def headerBits (nodes : List (Option Symbol)) : Bits := (nodes.map nodeBits).flatten

/-- The number of nodes. -/
def HuffTree.size : HuffTree → Nat
  | .leaf _ => 1
  | .node l r => l.size + r.size + 1

/-- Each leaf symbol with its path below `p`, left = 0, right = 1 (42 R190). -/
def HuffTree.paths : HuffTree → Bits → List (Symbol × Bits)
  | .leaf v, p => [(v, p)]
  | .node l r, p => l.paths (p ++ [false]) ++ r.paths (p ++ [true])

/-- Each leaf symbol with its code: its path from the root, but `[0]` for a root that is a leaf (42 R191). -/
def HuffTree.codes : HuffTree → List (Symbol × Bits)
  | .leaf v => [(v, [false])]
  | .node l r => (HuffTree.node l r).paths []

/-- `sum over leaves of weight * depth` (41 R176), for leaves `d` deep at the root. -/
def HuffTree.cost (f : Symbol → Nat) : HuffTree → Nat → Nat
  | .leaf v, d => f v * d
  | .node l r, d => l.cost f (d + 1) + r.cost f (d + 1)

/-- Arena entry `i` holds the tree `t`, in the entries listed, in preorder (10 R46, R47). -/
inductive Represents (node : Vector Node 513) : NodeIdx → HuffTree → List NodeIdx → Prop where
  | leaf (i : NodeIdx) (v : Symbol) (h : node[i.val] = .leaf v) : Represents node i (.leaf v) [i]
  | node (i l r : NodeIdx) (tl tr : HuffTree) (il ir : List NodeIdx) (h : node[i.val] = .internal l r)
      (hl : Represents node l tl il) (hr : Represents node r tr ir) :
      Represents node i (.node tl tr) (i :: (il ++ ir))

/-- The arena holds the tree `t` (10 R49): "every entry `0..node_count-1` is reachable from `root` exactly once", and
`leaf_count` counts the leaves. -/
def State.HoldsTree (s : State) (t : HuffTree) : Prop :=
  ∃ ixs, Represents s.node s.root t ixs ∧ ixs.Nodup ∧ (∀ i : NodeIdx, i ∈ ixs ↔ i.val < s.nodeCount)
    ∧ s.leafCount = t.leaves.length

/-- The code table holds the codes of `t` (10 R52, R50, R51): each leaf symbol has one code, every other symbol has no
entry. -/
def State.HoldsCodes (s : State) (t : HuffTree) : Prop :=
  t.leaves.Nodup
    ∧ (∀ v p, (v, p) ∈ t.codes →
        s.codeLen[v.val] = p.length ∧ s.codeVal[v.val] = BitVec.ofNat 256 (valOf p))
    ∧ (∀ v : Symbol, v ∉ t.leaves → s.codeLen[v.val] = 0 ∧ s.codeVal[v.val] = 0#256)

/-- The code of symbol `v`: `bits_{code_len[v]}(code_val[v])` (10 R51). -/
def State.codeBits (s : State) (v : Symbol) : Bits := bitsOf s.codeLen[v.val] s.codeVal[v.val].toNat

/-- The codes of a byte sequence, in order (30 R124). -/
def State.codesOf (s : State) (bs : List Byte) : Bits := (bs.map (fun b => s.codeBits (byteSymbol b))).flatten

/-- The payload of a byte sequence: its codes, then the code of the end-of-stream symbol (30 R124). -/
def State.payload (s : State) (bs : List Byte) : Bits := s.codesOf bs ++ s.codeBits Config.EOS

/-- With `leaves` leaves, entry `c` is in BUILD's queue when entry `j` is allocated: it lies below `j`, and no merge
before `j` took it (41 R170: an extracted element leaves PQ). -/
def State.QueuedAt (s : State) (leaves : Nat) (j c : NodeIdx) : Prop :=
  c.val < j.val
    ∧ ∀ m x y : NodeIdx, leaves ≤ m.val → m.val < j.val → s.node[m.val] = .internal x y → c ≠ x ∧ c ≠ y

/-- The symbols with a nonzero count, ascending; their number is `L` of 41 R174. -/
def State.live (s : State) : List Symbol := allSymbols.filter (fun v => s.count v != 0)

/-- The host has loaded the counts of `S` (60 R330). -/
def State.CountsOf (s : State) (S : List Byte) : Prop :=
  ∀ v : Symbol, v.val < 256 → s.count v = S.countP (fun b => b.toNat == v.val)

/-- A completion without error (40 R153). -/
def State.succeeded (s : State) : State := { s with pending := none, busy := false, done := true }

/-- A completion with an error (40 R153, 60 R310): CAUSE, OP and STEP as given, ERR_POS the input position. -/
def State.failedWith (s : State) (cause op st : BitVec 8) : State :=
  { s with
    pending := none
    busy := false
    err := true
    cause := cause
    op := op
    stepOp := st
    errPos := BitVec.ofNat 32 s.inPos }

/-- Commands one after another, stopping at the first that fails (46 R285). -/
def runInOrder : List Instr → State → Host.Outcome State Fault Refusal
  | [], s => .next s
  | i :: is, s =>
    match exec i s with
    | .next t => if t.err then .next t else runInOrder is t
    | .fault f => .fault f
    | .refused r => .refused r

/-- What holds in every state a run from reset reaches. -/
structure State.Inv (s : State) : Prop where
  /-- "`pending` holds the command word of the accepted command while `busy = 1` and is none while `busy = 0`"
  (10 R55). -/
  busy_pending : s.busy = s.pending.isSome
  /-- "cleared to 0 by an accepted CMD write, set to 1 by a completion without error" (10 R35, 40 R153). -/
  done_idle : s.done = true → s.busy = false ∧ s.err = false
  /-- While an error is pending only CLEAR can be running (60 R312). -/
  err_busy : s.busy = true → s.err = true → s.pending = some 0x00000001#32
  /-- CAUSE, OP, STEP and ERR_POS are zero with no error pending (10 R37). -/
  err_capture : s.err = false → s.cause = 0#8 ∧ s.op = 0#8 ∧ s.stepOp = 0#8 ∧ s.errPos = 0#32
  /-- "Every other CAUSE value is never written" (60 R300). -/
  cause_known : s.err = true → ∃ c : Cause, s.cause = c.code
  /-- `0 <= in_pos <= |in_src|` (10 R56). -/
  in_pos_le : s.inPos ≤ s.inSrc.length
  /-- `node_count` is `0..513` (10 R40). -/
  node_count_le : s.nodeCount ≤ 513
  /-- `leaf_count` is `0..257` (10 R41). -/
  leaf_count_le : s.leafCount ≤ 257
  /-- `code_len[v]` is `0..256` (10 R50). -/
  code_len_le : ∀ v : Symbol, s.codeLen[v.val] ≤ 256
  /-- A code table is marked valid only beside a valid tree (10 R34, R36). -/
  codes_tree : s.codesValid = true → s.treeValid = true
  /-- "Invariants of a valid tree" (10 R49). -/
  tree : s.treeValid = true → ∃ t, s.HoldsTree t
  /-- "Code table invariant when `codes_valid = 1`" (10 R52). -/
  codes : s.codesValid = true → ∃ t, s.HoldsTree t ∧ s.HoldsCodes t

/-- Two states that differ at most in what reset leaves unspecified (70 R340): arena entries that no valid tree uses,
and a code table that is not valid. -/
structure SameButMasked (s t : State) : Prop where
  rest : { s with node := t.node, weight := t.weight, codeLen := t.codeLen, codeVal := t.codeVal } = t
  arena : s.treeValid = true → ∀ i : NodeIdx, i.val < s.nodeCount →
    s.node[i.val] = t.node[i.val] ∧ s.weight[i.val] = t.weight[i.val]
  codes : s.codesValid = true → s.codeLen = t.codeLen ∧ s.codeVal = t.codeVal

/-- Two outcomes that agree: next states the same but for masked storage, or the same stop. -/
def OutcomesAgree : Host.Outcome State Fault Refusal → Host.Outcome State Fault Refusal → Prop
  | .next s, .next t => SameButMasked s t
  | .fault f, .fault g => f = g
  | .refused r, .refused q => r = q
  | _, _ => False

/-- The host's turn is a read, a write that is discarded, or the engine's: the turns that can come while a command
runs without a refusal or a reset (60 R331, 70 R360). -/
def Turn.waits : Turn → Bool
  | .engine => true
  | .host (.regRead off width) => admitted off width
  | .host (.regWrite off width _) => admitted off width
  | .host (.attachIn _) => false
  | .host .attachOut => false
  | .host .takeOut => false
  | .host .reset => false

end Sys2Proof.Machine
end

