-- ==== Sys2Proof/Certificates/Slice0/Obligations.lean ====
section
/-! DEFINITION. The statements for the provers. Each docstring names the rules of spec/ it formalises. Throughout, whose
turn it is stands in `agenda` (the model's form, log 3), and what a read returns is the entry it appends to `seen`
(log 9). -/

section

open Sys2Proof Sys2Proof.Machine

/-! Encoding and decoding. -/

/-- 30 R112: the opcode map, each command word `0x000000` followed by the opcode byte; every command decodes from its
own word and from no other. -/
def Obligations.OpcodeMapDecodesAndEncodes : Prop :=
  decode 0x00000000#32 = .ok .nop ∧ decode 0x00000001#32 = .ok .clear ∧ decode 0x00000002#32 = .ok .flush
    ∧ decode 0x00000010#32 = .ok .build ∧ decode 0x00000020#32 = .ok .gencodes
    ∧ decode 0x00000030#32 = .ok .magicWrite ∧ decode 0x00000031#32 = .ok .hdrWrite
    ∧ decode 0x00000038#32 = .ok .magicRead ∧ decode 0x00000039#32 = .ok .hdrRead
    ∧ decode 0x00000040#32 = .ok .encode ∧ decode 0x00000050#32 = .ok .decode
    ∧ decode 0x00000070#32 = .ok .compress ∧ decode 0x00000071#32 = .ok .decompress
    ∧ (∀ i : Instr, decode (encode i) = .ok i) ∧ ∀ (w : Word) (i : Instr), decode w = .ok i → encode i = w

/-- 30 R113: which words are legal, and that an accepted illegal word completes with ILLEGAL_CMD and changes no other
state. -/
def Obligations.IllegalWordCompletesWithIllegalCmd : Prop :=
  (∀ w : Word, (∃ i, decode w = .ok i) ↔
      (w.extractLsb' 8 24 = 0#24 ∧
        w.extractLsb' 0 8 ∈ [0x00#8, 0x01#8, 0x02#8, 0x10#8, 0x20#8, 0x30#8, 0x31#8, 0x38#8, 0x39#8, 0x40#8, 0x50#8,
          0x70#8, 0x71#8]))
    ∧ ∀ (s : State) (w : Word), s.turn = .engine → s.busy = true → s.pending = some w →
        (∀ i, decode w ≠ .ok i) →
        step s = .next (s.popTurn.failedWith 0x01#8 (w.extractLsb' 0 8) (w.extractLsb' 0 8))

/-- 40 R153, R154: on the engine's turn, with a command accepted, the step is the command its word decodes to. -/
def Obligations.EngineStepRunsTheDecodedCommand : Prop :=
  ∀ (s : State) (w : Word) (i : Instr), s.turn = .engine → s.busy = true → s.pending = some w → decode w = .ok i →
    step s = exec i { s with agenda := s.agenda.tail }

/-! Bit sequences and streams. -/

/-- 00 R10, 20 R94: a field is big-endian in the stream, and reading it gives the number written. -/
def Obligations.FieldsAreBigEndian : Prop :=
  (∀ n v : Nat, (bitsOf n v).length = n
      ∧ (∀ i : Nat, i < n → (bitsOf n v)[i]? = some (v.testBit (n - 1 - i)))
      ∧ valOf (bitsOf n v) = v % 2 ^ n)
    ∧ ∀ c : Bits, bitsOf c.length (valOf c) = c ∧ valOf c < 2 ^ c.length

/-- 20 R91, R92: `readBits(n)` answers EOI and consumes nothing, or the `n` next bits, first bit most significant. -/
def Obligations.ReadBitsIsAllOrNothing : Prop :=
  ∀ (n : Nat) (s : State),
    (s.inPos + n > s.inSrc.length → readBits n s = none)
      ∧ (s.inPos + n ≤ s.inSrc.length → ∃ v : BitVec n,
          readBits n s = some (v, { s with inPos := s.inPos + n })
            ∧ bitsOf n v.toNat = (s.inSrc.drop s.inPos).take n)

/-! Control commands. -/

/-- 40 R155: NOP completes without error and has no other effect. -/
def Obligations.NopOnlyCompletes : Prop :=
  ∀ s : State, exec .nop s = .next { s with pending := none, busy := false, done := true }

/-- 40 R156. The arena and code storage "keep unspecified contents": the statement says nothing about them. CLEAR alone is
accepted while an error is pending; the word `0x00000101` fails as ILLEGAL_CMD. -/
def Obligations.ClearReturnsToACleanState : Prop :=
  (∀ s : State, ∃ node weight codeLen codeVal,
    exec .clear s = .next
      { s with
        freq := Vector.replicate 256 0#32
        treeValid := false, codesValid := false
        root := 0, nodeCount := 0, leafCount := 0, symCount := 0
        err := false, cause := 0#8, op := 0#8, stepOp := 0#8, errPos := 0#32
        drop := false
        node := node, weight := weight, codeLen := codeLen, codeVal := codeVal
        pending := none, busy := false, done := true })
    ∧ (∀ s : State, s.busy = false → s.turn = .host (.regWrite 0x0000#16 32 0x00000001#32) →
        step s = .next { s.popTurn with done := false, busy := true, pending := some 0x00000001#32 })
    ∧ (∀ (s : State) (w : Word), s.busy = false → s.err = true → w ≠ 0x00000001#32 →
        s.turn = .host (.regWrite 0x0000#16 32 w) → step s = .next { s.popTurn with drop := true })
    ∧ ∀ s : State, s.turn = .engine → s.busy = true → s.pending = some 0x00000101#32 →
        step s = .next (s.popTurn.failedWith 0x01#8 0x01#8 0x01#8)

/-- 40 R157, 20 R95: FLUSH appends zero bits up to a whole number of bytes, so a second FLUSH appends nothing. -/
def Obligations.FlushPadsToWholeBytes : Prop :=
  ∀ s : State,
    exec .flush s = .next
      { s with
        out := s.out ++ List.replicate ((8 - s.out.length % 8) % 8) false
        pending := none, busy := false, done := true }
      ∧ (s.out ++ List.replicate ((8 - s.out.length % 8) % 8) false).length % 8 = 0
      ∧ (s.out.length % 8 = 0 → exec .flush s = .next { s with pending := none, busy := false, done := true })

/-! The host's register accesses. -/

/-- 40 R152: a write of CMD while idle is accepted, but for any word other than CLEAR while an error is pending, which
is dropped. -/
def Obligations.CmdWriteIsAcceptedOrDropped : Prop :=
  ∀ (s : State) (w : Word), s.turn = .host (.regWrite 0x0000#16 32 w) → s.busy = false →
    (s.err = true → w ≠ 0x00000001#32 → step s = .next { s.popTurn with drop := true })
      ∧ (s.err = false ∨ w = 0x00000001#32 →
          step s = .next { s.popTurn with done := false, busy := true, pending := some w })

/-- 70 R350: while a command runs every admitted host write, whatever its offset, changes nothing but DROP, which it
sets. -/
def Obligations.WritesWhileBusyOnlySetDrop : Prop :=
  ∀ (s : State) (off : Offset) (v : Word), s.turn = .host (.regWrite off 32 v) → off.toNat % 4 = 0 → s.busy = true →
    step s = .next { s.popTurn with drop := true }

/-- 20 R84: an access of another width or of an unaligned offset is refused. -/
def Obligations.UnadmittedAccessIsRefused : Prop :=
  ∀ (s : State) (off : Offset) (width : Nat), (width ≠ 32 ∨ off.toNat % 4 ≠ 0) →
    (s.turn = .host (.regRead off width) → step s = .refused (.accessNotAdmitted off width))
      ∧ ∀ v : Word, s.turn = .host (.regWrite off width v) → step s = .refused (.accessNotAdmitted off width)

/-- 40 R158: write-one-to-clear of DONE, of ERR with its capture, and of DROP; every other bit is ignored. -/
def Obligations.StatusWriteClearsByOnes : Prop :=
  ∀ (s : State) (v : Word), s.turn = .host (.regWrite 0x0004#16 32 v) → s.busy = false →
    step s = .next
      { s.popTurn with
        done := s.done && !v.getLsbD 1
        err := s.err && !v.getLsbD 2
        cause := if v.getLsbD 2 then 0#8 else s.cause
        op := if v.getLsbD 2 then 0#8 else s.op
        stepOp := if v.getLsbD 2 then 0#8 else s.stepOp
        errPos := if v.getLsbD 2 then 0#32 else s.errPos
        drop := s.drop && !v.getLsbD 5 }

/-- 40 R159: a FREQ write stores the whole value for a byte, and is ignored for symbol 256, which reads 1. -/
def Obligations.FreqWriteStoresTheCount : Prop :=
  ∀ (s : State) (v : Symbol) (x : Word),
    s.turn = .host (.regWrite (BitVec.ofNat 16 (0x1000 + 4 * v.val)) 32 x) → s.busy = false →
    (∀ h : v.val < 256, step s = .next { s.popTurn with freq := s.freq.set v.val x h })
      ∧ (v = 256 → step s = .next s.popTurn)
      ∧ ∀ t : State, step s = .next t →
          t.regValue (regAt (BitVec.ofNat 16 (0x1000 + 4 * v.val))) = if v = 256 then 1#32 else x

/-- 20 R83: a reserved offset reads 0 and ignores writes; a read-only register ignores writes, and so do the reserved
and read-only bits of STATUS. -/
def Obligations.ReservedAndReadOnlyWritesAreIgnored : Prop :=
  (∀ (s : State) (off : Offset) (x : Word), s.turn = .host (.regWrite off 32 x) → s.busy = false →
      off.toNat % 4 = 0 → 4 < off.toNat → (off.toNat < 0x1000 ∨ 0x1400 ≤ off.toNat) → step s = .next s.popTurn)
    ∧ (∀ (s : State) (off : Offset), s.turn = .host (.regRead off 32) → off.toNat % 4 = 0 →
        (0x0028 < off.toNat ∧ off.toNat < 0x1000 ∨ 0x1400 < off.toNat ∧ off.toNat < 0x2000
          ∨ 0x2800 < off.toNat ∧ off.toNat < 0x3000 ∨ 0x3800 < off.toNat ∧ off.toNat < 0x4000
          ∨ 0x4400 < off.toNat ∧ off.toNat < 0x8000 ∨ 0xA01C < off.toNat) →
        step s = .next { s.popTurn with seen := s.seen ++ [.word 0#32] })
    ∧ ∀ (s : State) (v : Word), s.busy = false → s.writeReg .status v = s.writeReg .status (v &&& 0x00000026#32)

/-- 10 R34, R37: at all times STATUS reads the six flags at their bits, zero above; ERROR reads CAUSE, OP and STEP at
their places, zero above; ERR_POS reads its value. -/
def Obligations.StatusAndErrorReadTheirFields : Prop :=
  (∀ s : State, s.turn = .host (.regRead 0x0004#16 32) → ∃ w : Word,
      step s = .next { s.popTurn with seen := s.seen ++ [.word w] }
        ∧ w.getLsbD 0 = s.busy ∧ w.getLsbD 1 = s.done ∧ w.getLsbD 2 = s.err ∧ w.getLsbD 3 = s.treeValid
        ∧ w.getLsbD 4 = s.codesValid ∧ w.getLsbD 5 = s.drop ∧ ∀ k : Nat, 6 ≤ k → w.getLsbD k = false)
    ∧ (∀ s : State, s.turn = .host (.regRead 0x0008#16 32) → ∃ w : Word,
        step s = .next { s.popTurn with seen := s.seen ++ [.word w] }
          ∧ w.extractLsb' 0 8 = s.cause ∧ w.extractLsb' 8 8 = s.op ∧ w.extractLsb' 16 8 = s.stepOp
          ∧ w.extractLsb' 24 8 = 0#8)
    ∧ ∀ s : State, s.turn = .host (.regRead 0x000C#16 32) →
        step s = .next { s.popTurn with seen := s.seen ++ [.word s.errPos] }

/-- 10 R47, R48: the registers of an arena entry while idle, zero where the valid tree has no such entry; 10 R50, R51:
CODE_LEN and the eight words of a code while idle, zero with no valid code table. -/
def Obligations.ArenaAndCodeReadsAreMasked : Prop :=
  (∀ (s : State) (i : NodeIdx), s.busy = false →
    (s.turn = .host (.regRead (BitVec.ofNat 16 (0x2000 + 4 * i.val)) 32) → ∃ w : Word,
        step s = .next { s.popTurn with seen := s.seen ++ [.word w] }
          ∧ (s.treeValid = false ∨ s.nodeCount ≤ i.val → w = 0#32)
          ∧ (s.treeValid = true → i.val < s.nodeCount →
              (∀ v, s.node[i.val] = .leaf v → w.toNat = 2 ^ 31 + v.val)
                ∧ ∀ l r, s.node[i.val] = .internal l r → w.toNat = l.val + r.val * 2 ^ 16))
      ∧ (s.turn = .host (.regRead (BitVec.ofNat 16 (0x3000 + 4 * i.val)) 32) →
          step s = .next
            { s.popTurn with
              seen := s.seen
                ++ [.word (if s.treeValid = true ∧ i.val < s.nodeCount then s.weight[i.val] else 0#32)] }))
    ∧ ∀ (s : State) (v : Symbol), s.busy = false →
      (s.turn = .host (.regRead (BitVec.ofNat 16 (0x4000 + 4 * v.val)) 32) →
          step s = .next
            { s.popTurn with
              seen := s.seen ++ [.word (if s.codesValid then BitVec.ofNat 32 s.codeLen[v.val] else 0#32)] })
        ∧ ∀ k : Fin 8, s.turn = .host (.regRead (BitVec.ofNat 16 (0x8000 + 32 * v.val + 4 * k.val)) 32) →
            ∃ w : Word, step s = .next { s.popTurn with seen := s.seen ++ [.word w] }
              ∧ (s.codesValid = false → w = 0#32)
              ∧ (s.codesValid = true → ∀ j : Nat, j < 32 → w.getLsbD j = s.codeVal[v.val].getLsbD (32 * k.val + j))

/-- 10 R39 to R45: what the counters, MAGIC and FREQ read while idle. -/
def Obligations.CounterReadsShowTheirState : Prop :=
  ∀ s : State, s.busy = false →
    s.regValue (regAt 0x0000#16) = 0#32
      ∧ s.regValue (regAt 0x0010#16) = Config.MAGIC
      ∧ s.regValue (regAt 0x0014#16) = (if s.treeValid then BitVec.ofNat 32 s.root.val else 0#32)
      ∧ s.regValue (regAt 0x0018#16) = (if s.treeValid then BitVec.ofNat 32 s.nodeCount else 0#32)
      ∧ s.regValue (regAt 0x001C#16) = (if s.treeValid then BitVec.ofNat 32 s.leafCount else 0#32)
      ∧ s.regValue (regAt 0x0020#16) = BitVec.ofNat 32 s.inPos
      ∧ s.regValue (regAt 0x0024#16) = BitVec.ofNat 32 s.out.length
      ∧ s.regValue (regAt 0x0028#16) = BitVec.ofNat 32 s.symCount
      ∧ (∀ (v : Symbol) (h : v.val < 256),
          s.regValue (regAt (BitVec.ofNat 16 (0x1000 + 4 * v.val))) = s.freq[v.val])
      ∧ s.regValue (regAt 0x1400#16) = 1#32
      ∧ ∀ off : Offset, off.toNat % 4 = 0 → s.turn = .host (.regRead off 32) →
          step s = .next { s.popTurn with seen := s.seen ++ [.word (s.regValue (regAt off))] }

/-- 70 R351, 40 R150: while busy a volatile register reads a free value (log 2), whatever it is; STATUS, ERROR,
ERR_POS, MAGIC and FREQ read as when idle, and CMD reads 0 (10 R33; that it does so while busy is log 15). -/
def Obligations.VolatileReadsWhileBusyAreFree : Prop :=
  ∀ (s : State) (off : Offset), s.turn = .host (.regRead off 32) → off.toNat % 4 = 0 → s.busy = true →
    ((0x0014 ≤ off.toNat ∧ off.toNat ≤ 0x0028 ∨ 0x2000 ≤ off.toNat ∧ off.toNat ≤ 0x2800
        ∨ 0x3000 ≤ off.toNat ∧ off.toNat ≤ 0x3800 ∨ 0x4000 ≤ off.toNat ∧ off.toNat ≤ 0x4400
        ∨ 0x8000 ≤ off.toNat ∧ off.toNat ≤ 0xA01C) →
        step s = .next
          { s.popTurn with draws := s.draws + 1, seen := s.seen ++ [.word (Config.volatileRead s.draws)] })
      ∧ ((0x0004 ≤ off.toNat ∧ off.toNat ≤ 0x0010 ∨ 0x1000 ≤ off.toNat ∧ off.toNat ≤ 0x1400) →
          step s = .next { s.popTurn with seen := s.seen ++ [.word (s.regValue (regAt off))] })
      ∧ (off = 0x0000#16 → step s = .next { s.popTurn with seen := s.seen ++ [.word 0#32] })

/-- 20 R86: a read changes nothing of HTB, and a second read at once returns the same value unless the register is
volatile and a command runs. -/
def Obligations.ReadsHaveNoSideEffect : Prop :=
  ∀ (s : State) (off : Offset), s.turn = .host (.regRead off 32) → off.toNat % 4 = 0 →
    ∃ (v : Word) (n : Nat), step s = .next { s.popTurn with seen := s.seen ++ [.word v], draws := n }
      ∧ (s.busy = false ∨ (regAt off).volatile = false → n = s.draws
          ∧ ∀ rest : List Turn,
            step { s.popTurn with seen := s.seen ++ [.word v], agenda := .host (.regRead off 32) :: rest }
              = .next { s.popTurn with seen := s.seen ++ [.word v, .word v], agenda := rest })

/-! The host's stream moves and reset. -/

/-- 10 R58, 60 R331, R332: attaching the input and the output, and taking the output, while idle; none is a move of the
host while a command runs (the refusal is the model's form, log 10). -/
def Obligations.StreamsAttachOnlyWhileIdle : Prop :=
  (∀ (s : State) (b : Bits), s.turn = .host (.attachIn b) →
      (s.busy = false → step s = .next { s.popTurn with inSrc := b, inPos := 0 })
        ∧ (s.busy = true → step s = .refused .streamMoveWhileBusy))
    ∧ (∀ s : State, s.turn = .host .attachOut →
        (s.busy = false → step s = .next { s.popTurn with out := [] })
          ∧ (s.busy = true → step s = .refused .streamMoveWhileBusy))
    ∧ ∀ s : State, s.turn = .host .takeOut →
        (s.busy = false → step s = .next { s.popTurn with seen := s.seen ++ [.bits s.out] })
          ∧ (s.busy = true → step s = .refused .streamMoveWhileBusy)

/-- 70 R340: a reset in any state, whatever runs, gives every element the value the rule states; the storage the rule
leaves unspecified reads 0. -/
def Obligations.ResetGivesTheStatedValues : Prop :=
  ∀ s : State, s.turn = .host .reset → ∃ t : State, step s = .next t
    ∧ t.busy = false ∧ t.done = false ∧ t.err = false ∧ t.drop = false ∧ t.treeValid = false ∧ t.codesValid = false
    ∧ t.cause = 0#8 ∧ t.op = 0#8 ∧ t.stepOp = 0#8 ∧ t.errPos = 0#32 ∧ t.root = 0 ∧ t.nodeCount = 0 ∧ t.leafCount = 0
    ∧ t.symCount = 0 ∧ (∀ v : Symbol, t.count v = if v = 256 then 1 else 0) ∧ t.pending = none
    ∧ t.inSrc = [] ∧ t.inPos = 0 ∧ t.out = []
    ∧ (∀ i, t.regValue (.nodeInfo i) = 0#32 ∧ t.regValue (.nodeWeight i) = 0#32)
    ∧ (∀ v, t.regValue (.codeLen v) = 0#32 ∧ ∀ k, t.regValue (.codeWord v k) = 0#32)
    ∧ t.regValue .status = 0#32 ∧ t.regValue .error = 0#32 ∧ t.regValue .magic = Config.MAGIC

/-! Errors. -/

/-- 60 R310, R300: what taking an error writes, and the code of each cause. -/
def Obligations.CaptureRecordsTheError : Prop :=
  (∀ (c : Cause) (opbyte st : BitVec 8) (s : State),
      complete opbyte (.error c st s) = .next
        { s with
          pending := none, busy := false
          err := true, cause := c.code, op := opbyte, stepOp := st, errPos := BitVec.ofNat 32 s.inPos })
    ∧ [Cause.illegalCmd, .noTree, .noCodes, .weightOverflow, .dupSymbol, .badMagic, .hdrTrunc, .hdrSymbol,
        .hdrOverflow, .truncatedPayload, .noCode].map Cause.code
      = [0x01#8, 0x02#8, 0x03#8, 0x04#8, 0x05#8, 0x10#8, 0x11#8, 0x12#8, 0x13#8, 0x20#8, 0x30#8]

/-- 60 R312: while an error is pending no command but CLEAR is accepted, and until the host acknowledges it nothing
overwrites the capture. -/
def Obligations.PendingErrorIsSticky : Prop :=
  (∀ (s : State) (w : Word), s.err = true → s.busy = false → w ≠ 0x00000001#32 →
      s.turn = .host (.regWrite 0x0000#16 32 w) → step s = .next { s.popTurn with drop := true })
    ∧ ∀ s t : State, s.Inv → s.err = true → step s = .next t → t.err = true →
        t.cause = s.cause ∧ t.op = s.op ∧ t.stepOp = s.stepOp ∧ t.errPos = s.errPos

/-! The Tree Builder. -/

/-- 41 R173: a total above `2^32 - 1` raises WEIGHT_OVERFLOW with no tree built and nothing written, and the tree
registers read 0. -/
def Obligations.BuildRejectsAnOverflowingTotal : Prop :=
  ∀ s : State, (allSymbols.map s.count).sum > 2 ^ 32 - 1 → ∃ u : State, exec .build s = .next u
    ∧ u = ({ s with treeValid := false, codesValid := false } : State).failedWith 0x04#8 0x10#8 0x10#8
    ∧ u.regValue .root = 0#32 ∧ u.regValue .nodeCount = 0#32 ∧ u.regValue .leafCount = 0#32

/-- 41 R174, R170: BUILD completes; with `L` symbols of nonzero count, its sizes, its leaves in ascending order with
their counts, and its frame: entries the tree does not use and everything else stay. -/
def Obligations.BuildCompletesWithItsSizes : Prop :=
  ∀ s : State, (allSymbols.map s.count).sum ≤ 2 ^ 32 - 1 →
    1 ≤ s.live.length ∧ s.live.length ≤ 257 ∧ ∃ node weight,
      exec .build s = .next
        { s with
          node := node, weight := weight
          root := Fin.ofNat 513 (2 * s.live.length - 2)
          nodeCount := 2 * s.live.length - 1, leafCount := s.live.length
          treeValid := true, codesValid := false
          pending := none, busy := false, done := true }
        ∧ node.toList.take s.live.length = s.live.map Node.leaf
        ∧ weight.toList.take s.live.length = s.live.map (fun v => BitVec.ofNat 32 (s.count v))
        ∧ ∀ i : NodeIdx, 2 * s.live.length - 1 ≤ i.val →
            node[i.val] = s.node[i.val] ∧ weight[i.val] = s.weight[i.val]

/-- 41 R171, R172: every merged entry joins the two queue entries of least key (weight, then index), the least on the
left; both are in the queue when it is allocated, that is, they lie below it and no earlier merge took them. -/
def Obligations.BuildMergesTheTwoLeastKeys : Prop :=
  ∀ s u : State, (allSymbols.map s.count).sum ≤ 2 ^ 32 - 1 → exec .build s = .next u →
    ∀ j : NodeIdx, s.live.length ≤ j.val → j.val < u.nodeCount →
      ∃ a b : NodeIdx, u.node[j.val] = .internal a b
        ∧ u.QueuedAt s.live.length j a ∧ u.QueuedAt s.live.length j b
        ∧ u.weight[j.val].toNat = u.weight[a.val].toNat + u.weight[b.val].toNat
        ∧ (u.weight[a.val].toNat < u.weight[b.val].toNat
            ∨ u.weight[a.val].toNat = u.weight[b.val].toNat ∧ a.val < b.val)
        ∧ ∀ c : NodeIdx, u.QueuedAt s.live.length j c → c ≠ a → c ≠ b →
            (u.weight[b.val].toNat < u.weight[c.val].toNat
              ∨ u.weight[b.val].toNat = u.weight[c.val].toNat ∧ b.val < c.val)

/-- 10 R49, 41 R177: the arena BUILD leaves is a tree whose leaves are the symbols of nonzero count, each once, and
each entry's weight is the exact sum of the counts of the leaves below it. -/
def Obligations.BuildLeavesAValidTree : Prop :=
  ∀ s u : State, (allSymbols.map s.count).sum ≤ 2 ^ 32 - 1 → exec .build s = .next u →
    ∃ t : HuffTree, u.HoldsTree t ∧ t.leaves.Perm s.live
      ∧ (∀ (i : NodeIdx) (t' : HuffTree) (ixs : List NodeIdx), i.val < u.nodeCount → Represents u.node i t' ixs →
          u.weight[i.val].toNat = (t'.leaves.map s.count).sum)
      ∧ u.weight[u.root.val].toNat = (allSymbols.map s.count).sum

/-- 41 R178: what BUILD leaves depends on the counts alone, whatever the arena held before. -/
def Obligations.BuildDependsOnTheCountsAlone : Prop :=
  ∀ s s' u u' : State, s.freq = s'.freq → (allSymbols.map s.count).sum ≤ 2 ^ 32 - 1 →
    exec .build s = .next u → exec .build s' = .next u' →
    u.root = u'.root ∧ u.nodeCount = u'.nodeCount ∧ u.leafCount = u'.leafCount
      ∧ ∀ i : NodeIdx, i.val < u.nodeCount → u.node[i.val] = u'.node[i.val] ∧ u.weight[i.val] = u'.weight[i.val]

/-- 41 R175: with every byte count 0 the root is the one leaf 256; with exactly one byte value counted the tree has two
leaves. -/
def Obligations.BuildHandlesTheSmallestInputs : Prop :=
  (∀ s : State, (∀ v : Symbol, v.val < 256 → s.count v = 0) → ∃ u : State, exec .build s = .next u ∧ u.done = true
      ∧ u.treeValid = true ∧ u.root = 0 ∧ u.nodeCount = 1 ∧ u.leafCount = 1 ∧ u.node[0] = .leaf 256
      ∧ u.weight[0] = 1#32 ∧ u.HoldsTree (.leaf 256))
    ∧ ∀ (s : State) (b : Symbol), b.val < 256 → 0 < s.count b → s.count b ≤ 2 ^ 32 - 2 →
        (∀ v : Symbol, v.val < 256 → v ≠ b → s.count v = 0) → ∃ u : State, exec .build s = .next u ∧ u.done = true
          ∧ u.leafCount = 2 ∧ ∃ t : HuffTree, u.HoldsTree t ∧ (t = .node (.leaf 256) (.leaf b) ∨ t = .node (.leaf b) (.leaf 256))

/-- 41 R176: no strictly binary tree with the same leaves costs less. -/
def Obligations.BuildTreeIsOptimal : Prop :=
  ∀ (s u : State) (t t' : HuffTree), (allSymbols.map s.count).sum ≤ 2 ^ 32 - 1 → exec .build s = .next u →
    u.HoldsTree t → t'.leaves.Perm t.leaves → t.cost s.count 0 ≤ t'.cost s.count 0

/-! The Code Table Generator. -/

/-- 42 R190, R191, R195: on a tree of distinct leaves GENCODES completes with each leaf's path as its code (`[0]` for a
root leaf), of length `1..256`, and no entry for any other symbol; nothing else changes. -/
def Obligations.GencodesAssignsEachLeafItsPath : Prop :=
  ∀ (s : State) (t : HuffTree), s.treeValid = true → s.HoldsTree t → t.leaves.Nodup → ∃ codeLen codeVal,
    exec .gencodes s = .next
      { s with
        codeLen := codeLen, codeVal := codeVal, codesValid := true
        pending := none, busy := false, done := true }
      ∧ (∀ v p, (v, p) ∈ t.codes → codeLen[v.val] = p.length ∧ 1 ≤ p.length ∧ p.length ≤ 256
          ∧ bitsOf codeLen[v.val] codeVal[v.val].toNat = p)
      ∧ ∀ v : Symbol, v ∉ t.leaves → codeLen[v.val] = 0 ∧ codeVal[v.val] = 0#256

/-- 42 R190, 44 R240, 45 R260, 60 R311: without a valid tree GENCODES and DECODE raise NO_TREE, without a valid code table
ENCODE raises NO_CODES, before any stream is read or written; GENCODES leaves no valid code table, ENCODE and DECODE a
symbol count of 0. -/
def Obligations.MissingTreeOrCodesIsReported : Prop :=
  (∀ s : State, s.treeValid = false →
      exec .gencodes s = .next (({ s with codesValid := false } : State).failedWith 0x02#8 0x20#8 0x20#8)
        ∧ exec .decode s = .next (({ s with symCount := 0 } : State).failedWith 0x02#8 0x50#8 0x50#8))
    ∧ ∀ s : State, s.codesValid = false →
        exec .encode s = .next (({ s with symCount := 0 } : State).failedWith 0x03#8 0x40#8 0x40#8)

/-- 42 R192: on a tree that repeats a leaf symbol GENCODES raises DUP_SYMBOL at the second leaf it meets with that
symbol, in preorder: the leaves before it have their codes, no other symbol has an entry. -/
def Obligations.GencodesReportsARepeatedLeaf : Prop :=
  ∀ (s : State) (t : HuffTree), s.treeValid = true → s.HoldsTree t → ¬ t.leaves.Nodup → ∃ codeLen codeVal before v p after,
    exec .gencodes s = .next
      (({ s with codeLen := codeLen, codeVal := codeVal, codesValid := false } : State).failedWith 0x05#8 0x20#8 0x20#8)
      ∧ t.codes = before ++ (v, p) :: after ∧ (before.map Prod.fst).Nodup ∧ v ∈ before.map Prod.fst
      ∧ (∀ w q, (w, q) ∈ before → codeLen[w.val] = q.length ∧ bitsOf codeLen[w.val] codeVal[w.val].toNat = q)
      ∧ ∀ w : Symbol, w ∉ before.map Prod.fst → codeLen[w.val] = 0 ∧ codeVal[w.val] = 0#256

/-- 42 R193, 10 R52: when GENCODES succeeds on a valid tree, and in every valid code table, no symbol's code is a prefix
of another's. -/
def Obligations.ValidCodesArePrefixFree : Prop :=
  (∀ (s u : State) (t : HuffTree) (v w : Symbol), s.treeValid = true → s.HoldsTree t → exec .gencodes s = .next u →
      u.codesValid = true → v ≠ w → u.codeLen[v.val] ≠ 0 → u.codeLen[w.val] ≠ 0 → ¬ u.codeBits v <+: u.codeBits w)
    ∧ ∀ (s : State) (v w : Symbol), s.Inv → s.codesValid = true → v ≠ w → s.codeLen[v.val] ≠ 0 →
        s.codeLen[w.val] ≠ 0 → ¬ s.codeBits v <+: s.codeBits w

/-! The Header Codec. -/

/-- 43 R210: MAGIC_WRITE appends the 32 bits of the marker, most significant first, and does nothing else. -/
def Obligations.MagicWriteAppendsTheMarker : Prop :=
  ∀ s : State, exec .magicWrite s = .next
    { s with out := s.out ++ bitsOf 32 Config.MAGIC.toNat, pending := none, busy := false, done := true }

/-- 43 R212: HDR_WRITE appends exactly the header of the arena's tree, `11 * leaf_count - 1` bits; without a valid tree
it raises NO_TREE before any bit is written. -/
def Obligations.HdrWriteAppendsTheHeader : Prop :=
  (∀ (s : State) (t : HuffTree), s.treeValid = true → s.HoldsTree t →
      exec .hdrWrite s = .next { s with out := s.out ++ t.header, pending := none, busy := false, done := true }
        ∧ t.header.length = 11 * s.leafCount - 1)
    ∧ ∀ s : State, s.treeValid = false → exec .hdrWrite s = .next (s.failedWith 0x02#8 0x31#8 0x31#8)

/-- 43 R214: MAGIC_READ consumes 32 bits and compares them with the marker; HDR_TRUNC with nothing consumed when fewer
remain, BAD_MAGIC after the 32 bits when they differ. -/
def Obligations.MagicReadChecksTheMarker : Prop :=
  ∀ s : State,
    (s.unread.take 32 = bitsOf 32 Config.MAGIC.toNat →
        exec .magicRead s = .next { s with inPos := s.inPos + 32, pending := none, busy := false, done := true })
      ∧ (s.unread.length < 32 → exec .magicRead s = .next (s.failedWith 0x11#8 0x38#8 0x38#8))
      ∧ (32 ≤ s.unread.length → s.unread.take 32 ≠ bitsOf 32 Config.MAGIC.toNat →
          exec .magicRead s = .next
            (({ s with inPos := s.inPos + 32 } : State).failedWith 0x10#8 0x38#8 0x38#8))

/-- 43 R216, R217: from a header HDR_READ rebuilds its tree, entries in preorder from index 0, weights 0, and consumes
exactly the header; entries the tree does not use and everything else stay. -/
def Obligations.HdrReadRebuildsTheTree : Prop :=
  ∀ (s : State) (t : HuffTree) (rest : Bits), s.unread = t.header ++ rest → t.size ≤ 513 → ∃ node weight,
    exec .hdrRead s = .next
      { s with
        inPos := s.inPos + t.header.length
        node := node, weight := weight, root := 0, nodeCount := t.size, leafCount := t.leaves.length
        treeValid := true, codesValid := false
        pending := none, busy := false, done := true }
      ∧ Represents node 0 t ((List.range t.size).map (Fin.ofNat 513))
      ∧ (∀ i : NodeIdx, i.val < t.size → weight[i.val] = 0#32)
      ∧ ∀ i : NodeIdx, t.size ≤ i.val → node[i.val] = s.node[i.val] ∧ weight[i.val] = s.weight[i.val]

/-- 43 R221, R219, 20 R92, on the header of any tree, `pre` its nodes before the error, which lies before the 514th flag
bit has been read. Cut short before a flag bit it raises HDR_TRUNC with every bit consumed; cut short inside a 9-bit field
it raises HDR_TRUNC after the flag bit, with nothing of the field consumed; a leaf field of `257..511` raises HDR_SYMBOL
after its 9 bits are consumed. -/
def Obligations.HdrReadReportsATruncatedOrBadHeader : Prop :=
  (∀ (s : State) (t : HuffTree) (pre post : List (Option Symbol)) (nd : Option Symbol),
      t.nodes = pre ++ nd :: post → pre.length ≤ 513 → s.unread = headerBits pre → ∃ node weight,
        exec .hdrRead s = .next
          (({ s with
              inPos := s.inPos + (headerBits pre).length, node := node, weight := weight
              treeValid := false, codesValid := false } : State).failedWith 0x11#8 0x39#8 0x39#8))
    ∧ (∀ (s : State) (t : HuffTree) (pre post : List (Option Symbol)) (v : Symbol) (part : Bits),
        t.nodes = pre ++ some v :: post → pre.length < 513 → part.length < 9 →
        s.unread = headerBits pre ++ true :: part → ∃ node weight,
          exec .hdrRead s = .next
            (({ s with
                inPos := s.inPos + ((headerBits pre).length + 1), node := node, weight := weight
                treeValid := false, codesValid := false } : State).failedWith 0x11#8 0x39#8 0x39#8))
    ∧ ∀ (s : State) (t : HuffTree) (pre post : List (Option Symbol)) (v : Symbol) (field : Nat) (rest : Bits),
        t.nodes = pre ++ some v :: post → pre.length < 513 → 257 ≤ field → field ≤ 511 →
        s.unread = headerBits pre ++ true :: bitsOf 9 field ++ rest → ∃ node weight,
          exec .hdrRead s = .next
            (({ s with
                inPos := s.inPos + ((headerBits pre).length + 10), node := node, weight := weight
                treeValid := false, codesValid := false } : State).failedWith 0x12#8 0x39#8 0x39#8)

/-- 43 R220: a header of more than 513 nodes raises HDR_OVERFLOW when its 514th flag bit has been read: after 514 flag
bits and the 9-bit fields of the leaves among the first 513 nodes, whatever follows. -/
def Obligations.HdrReadReportsAnOversizedHeader : Prop :=
  ∀ (s : State) (t : HuffTree), 513 < t.size →
    t.header.take (514 + 9 * (t.preorder.take 513).countP id) <+: s.unread → ∃ node weight,
      exec .hdrRead s = .next
        (({ s with
            inPos := s.inPos + (514 + 9 * (t.preorder.take 513).countP id), node := node, weight := weight
            treeValid := false, codesValid := false } : State).failedWith 0x13#8 0x39#8 0x39#8)

/-- 43 R216, 60 R314: HDR_READ always completes: on a header of at most 513 nodes it succeeds, on anything else it
raises one of its three causes and leaves no valid tree and no valid code table. -/
def Obligations.HdrReadSucceedsExactlyOnHeaders : Prop :=
  ∀ s : State, s.err = false → ∃ u : State, exec .hdrRead s = .next u ∧ u.codesValid = false
    ∧ ((u.err = false ∧ u.done = true ∧ u.treeValid = true ∧
          ∃ (t : HuffTree) (rest : Bits), t.size ≤ 513 ∧ s.unread = t.header ++ rest ∧ u.HoldsTree t)
        ∨ (u.err = true ∧ u.treeValid = false ∧ (u.cause = 0x11#8 ∨ u.cause = 0x12#8 ∨ u.cause = 0x13#8)
          ∧ u.errPos = BitVec.ofNat 32 u.inPos
          ∧ ¬ ∃ (t : HuffTree) (rest : Bits), t.size ≤ 513 ∧ s.unread = t.header ++ rest))

/-- 43 R222: a tree written by HDR_WRITE and read back by HDR_READ has the same shape and leaf symbols, its entries in
preorder and its weights 0; where the leaves are distinct GENCODES gives both trees the same codes. -/
def Obligations.HeaderRoundTripKeepsTheTree : Prop :=
  ∀ (s : State) (t : HuffTree), s.treeValid = true → s.HoldsTree t → ∃ s' : State, exec .hdrWrite s = .next s'
    ∧ ∀ (u : State) (rest : Bits), u.unread = s'.out.drop s.out.length ++ rest → ∃ u' : State,
      exec .hdrRead u = .next u' ∧ u'.done = true ∧ u'.treeValid = true ∧ u'.HoldsTree t
        ∧ Represents u'.node u'.root t ((List.range u'.nodeCount).map (Fin.ofNat 513))
        ∧ (∀ i : NodeIdx, i.val < u'.nodeCount → u'.weight[i.val] = 0#32)
        ∧ (t.leaves.Nodup → ∃ c c' : State, exec .gencodes s = .next c ∧ exec .gencodes u' = .next c'
            ∧ c.codesValid = true ∧ c'.codesValid = true ∧ c.codeLen = c'.codeLen ∧ c.codeVal = c'.codeVal)

/-! The Bitstream Encoder. -/

/-- 44 R240, R242, R243, 30 R124: ENCODE of the bytes `bs` and fewer than 8 further bits writes the codes of the bytes
in order and then the code of 256, counts the bytes, and leaves the further bits unread. -/
def Obligations.EncodeWritesThePayload : Prop :=
  ∀ (s : State) (bs : List Byte) (tail : Bits), s.codesValid = true → s.unread = bytesToBits bs ++ tail →
    tail.length < 8 → (∀ b ∈ bs, s.codeLen[(byteSymbol b).val] ≠ 0) → s.codeLen[256] ≠ 0 →
    exec .encode s = .next
      { s with
        inPos := s.inPos + 8 * bs.length
        out := s.out ++ (bs.map (fun b => s.codeBits (byteSymbol b))).flatten ++ s.codeBits 256
        symCount := bs.length
        pending := none, busy := false, done := true }

/-- 44 R241: a byte without a code raises NO_CODE after the byte is consumed, with the codes of the bytes before it
written; at the end the same for symbol 256. -/
def Obligations.EncodeReportsASymbolWithoutACode : Prop :=
  (∀ (s : State) (bs : List Byte) (b : Byte) (tail : Bits), s.codesValid = true →
      s.unread = bytesToBits (bs ++ [b]) ++ tail → (∀ c ∈ bs, s.codeLen[(byteSymbol c).val] ≠ 0) →
      s.codeLen[(byteSymbol b).val] = 0 →
      exec .encode s = .next
        (({ s with
            inPos := s.inPos + 8 * (bs.length + 1)
            out := s.out ++ (bs.map (fun b => s.codeBits (byteSymbol b))).flatten
            symCount := bs.length } : State).failedWith 0x30#8 0x40#8 0x40#8))
    ∧ ∀ (s : State) (bs : List Byte) (tail : Bits), s.codesValid = true → s.unread = bytesToBits bs ++ tail →
        tail.length < 8 → (∀ c ∈ bs, s.codeLen[(byteSymbol c).val] ≠ 0) → s.codeLen[256] = 0 →
        exec .encode s = .next
          (({ s with
              inPos := s.inPos + 8 * bs.length
              out := s.out ++ (bs.map (fun b => s.codeBits (byteSymbol b))).flatten
              symCount := bs.length } : State).failedWith 0x30#8 0x40#8 0x40#8)

/-! The Bitstream Decoder. -/

/-- 45 R260, R262, R264: on the codes of bytes followed by the code of 256, DECODE writes exactly those bytes, eight
bits each, counts them, and reads nothing after the end marker. `cs` lists each byte with its code in the tree. -/
def Obligations.DecodeEmitsTheBytes : Prop :=
  ∀ (s : State) (t : HuffTree) (cs : List (Byte × Bits)) (e rest : Bits), s.treeValid = true → s.HoldsTree t →
    (∀ c ∈ cs, (byteSymbol c.1, c.2) ∈ t.codes) → (256, e) ∈ t.codes →
    s.unread = (cs.map Prod.snd).flatten ++ e ++ rest →
    exec .decode s = .next
      { s with
        inPos := s.inPos + ((cs.map Prod.snd).flatten.length + e.length)
        out := s.out ++ bytesToBits (cs.map Prod.fst)
        symCount := cs.length
        pending := none, busy := false, done := true }

/-- 45 R261: with a root that is a leaf every bit, 0 or 1, moves to it: the end marker ends at the first bit; a byte is
written once for every bit until the source is exhausted. -/
def Obligations.DecodeOfAOneLeafTree : Prop :=
  (∀ (s : State) (b : Bool) (rest : Bits), s.treeValid = true → s.node[s.root.val] = .leaf 256 →
      s.unread = b :: rest →
      exec .decode s = .next
        { s with inPos := s.inPos + 1, symCount := 0, pending := none, busy := false, done := true })
    ∧ ∀ (s : State) (b : Byte), s.treeValid = true → s.node[s.root.val] = .leaf (byteSymbol b) →
        exec .decode s = .next
          (({ s with
              inPos := s.inPos + s.unread.length
              out := s.out ++ bytesToBits (List.replicate s.unread.length b)
              symCount := s.unread.length } : State).failedWith 0x20#8 0x50#8 0x50#8)

/-- 45 R263: a source exhausted before the 256 leaf is reached raises TRUNCATED_PAYLOAD; the bytes already written
stay, and a partial code at the end is dropped. -/
def Obligations.DecodeReportsATruncatedPayload : Prop :=
  ∀ (s : State) (t : HuffTree) (cs : List (Byte × Bits)) (v : Symbol) (part more : Bits), s.treeValid = true →
    s.HoldsTree t → (∀ c ∈ cs, (byteSymbol c.1, c.2) ∈ t.codes) → (v, part ++ more) ∈ t.codes → more ≠ [] →
    s.unread = (cs.map Prod.snd).flatten ++ part →
    exec .decode s = .next
      (({ s with
          inPos := s.inPos + s.unread.length
          out := s.out ++ bytesToBits (cs.map Prod.fst)
          symCount := cs.length } : State).failedWith 0x20#8 0x50#8 0x50#8)

/-! The end-to-end commands. -/

/-- 46 R284, R285: a composite is its primitive commands one after another. When all succeed the end state is theirs;
when one fails the composite stops there with its own opcode as OP and the failing step's as STEP, and DONE as it
was. -/
def Obligations.CompositesRunTheirStepsInOrder : Prop :=
  ∀ (s t : State), s.err = false →
    (runInOrder [.build, .gencodes, .magicWrite, .hdrWrite, .encode, .flush] s = .next t →
        exec .compress s = .next (if t.err then { t with op := 0x70#8, done := s.done } else t))
      ∧ (runInOrder [.magicRead, .hdrRead, .decode, .flush] s = .next t →
          exec .decompress s = .next (if t.err then { t with op := 0x71#8, done := s.done } else t))

/-- 46 R280, 30 R120: COMPRESS of bytes that all have a count writes the marker, the header of the tree it built, the
payload and the padding, and nothing else changes. -/
def Obligations.CompressWritesTheWholeStream : Prop :=
  ∀ (s : State) (bs : List Byte) (tail : Bits), (allSymbols.map s.count).sum ≤ 2 ^ 32 - 1 →
    s.unread = bytesToBits bs ++ tail → tail.length < 8 → (∀ b ∈ bs, s.count (byteSymbol b) ≠ 0) →
    ∃ (u : State) (t : HuffTree), exec .compress s = .next u
      ∧ u.HoldsTree t ∧ u.HoldsCodes t ∧ t.leaves.Perm s.live
      ∧ (let stream := s.out ++ bitsOf 32 Config.MAGIC.toNat ++ t.header ++ u.payload bs
         u = { s with
               node := u.node, weight := u.weight, root := u.root, nodeCount := u.nodeCount, leafCount := u.leafCount
               codeLen := u.codeLen, codeVal := u.codeVal, treeValid := true, codesValid := true
               inPos := s.inPos + 8 * bs.length, symCount := bs.length
               out := stream ++ List.replicate ((8 - stream.length % 8) % 8) false
               pending := none, busy := false, done := true })

/-- 46 R280, R282: from any state a composite completes, without error and with a finalized output, or with an error
of its steps, each with its own step: WEIGHT_OVERFLOW of BUILD or NO_CODE of ENCODE for COMPRESS; BAD_MAGIC or
HDR_TRUNC of MAGIC_READ, HDR_TRUNC, HDR_SYMBOL or HDR_OVERFLOW of HDR_READ, TRUNCATED_PAYLOAD of DECODE for
DECOMPRESS. -/
def Obligations.CompositesFailOnlyAsTheirStepsDo : Prop :=
  ∀ s : State, s.err = false →
    (∃ u : State, exec .compress s = .next u
      ∧ ((u.err = false ∧ u.done = true ∧ u.out.length % 8 = 0)
          ∨ (u.err = true ∧ u.op = 0x70#8 ∧
              (u.cause = 0x04#8 ∧ u.stepOp = 0x10#8 ∨ u.cause = 0x30#8 ∧ u.stepOp = 0x40#8))))
      ∧ ∃ u : State, exec .decompress s = .next u
        ∧ ((u.err = false ∧ u.done = true ∧ u.out.length % 8 = 0)
          ∨ (u.err = true ∧ u.op = 0x71#8 ∧
              (u.stepOp = 0x38#8 ∧ (u.cause = 0x10#8 ∨ u.cause = 0x11#8)
                ∨ u.stepOp = 0x39#8 ∧ (u.cause = 0x11#8 ∨ u.cause = 0x12#8 ∨ u.cause = 0x13#8)
                ∨ u.stepOp = 0x50#8 ∧ u.cause = 0x20#8)))

/-- 46 R282: DECOMPRESS of marker, header, codes of bytes and the code of 256 writes those bytes after `out` and pads
it; the bits after the end marker stay unread; the code table ends invalid. -/
def Obligations.DecompressReadsTheWholeStream : Prop :=
  ∀ (s : State) (t : HuffTree) (cs : List (Byte × Bits)) (e rest : Bits), t.size ≤ 513 →
    (∀ c ∈ cs, (byteSymbol c.1, c.2) ∈ t.codes) → (256, e) ∈ t.codes →
    s.unread = bitsOf 32 Config.MAGIC.toNat ++ t.header ++ (cs.map Prod.snd).flatten ++ e ++ rest →
    ∃ u : State, exec .decompress s = .next u ∧ u.HoldsTree t
      ∧ (let bytes := s.out ++ bytesToBits (cs.map Prod.fst)
         u = { s with
               node := u.node, weight := u.weight, root := 0, nodeCount := t.size, leafCount := t.leaves.length
               treeValid := true, codesValid := false
               inPos := s.inPos + (32 + t.header.length + (cs.map Prod.snd).flatten.length + e.length)
               symCount := cs.length
               out := bytes ++ List.replicate ((8 - bytes.length % 8) % 8) false
               pending := none, busy := false, done := true })

/-- 45 R265: for every byte sequence of at most `2^32 - 2` bytes, with its counts loaded, decompressing what COMPRESS
wrote gives back exactly that sequence. -/
def Obligations.DecompressInvertsCompress : Prop :=
  ∀ (S : List Byte) (s : State), S.length ≤ 2 ^ 32 - 2 → s.CountsOf S → s.inSrc = bytesToBits S → s.inPos = 0 →
    s.out = [] → ∃ c : State, exec .compress s = .next c ∧ c.done = true
      ∧ ∀ u : State, u.inSrc = c.out → u.inPos = 0 → u.out = [] → ∃ d : State,
        exec .decompress u = .next d ∧ d.done = true ∧ d.out = bytesToBits S ∧ d.symCount = S.length

/-! Whole-machine rules. -/

/-- The invariant holds at reset (70 R340). -/
def Obligations.InvariantHoldsAtReset : Prop := State.reset.Inv

/-- 10 R37, R40, R41, R49, R50, R52, R55, R56, 60 R300, R312: every step from a state that meets the invariant leads to one that does. -/
def Obligations.StepKeepsTheInvariant : Prop := ∀ s t : State, s.Inv → step s = .next t → t.Inv

/-- 70 R362: with the invariant every command, whatever the streams and counts, ends: its completion is a next state
with the engine idle, and no step ever faults. -/
def Obligations.EveryCommandEnds : Prop :=
  ∀ s : State, s.Inv →
    (∀ i : Instr, ∃ t : State, exec i s = .next t ∧ t.busy = false ∧ t.pending = none
      ∧ (t.done = true ∨ t.err = true))
      ∧ ∀ f : Fault, step s ≠ .fault f

/-- 70 R360: an accepted command completes after finitely many turns, whatever reads and discarded writes the host
makes meanwhile. That the engine moves when no host turn is left is the model's form of fairness (log 3). -/
def Obligations.BusyMachineCompletes : Prop :=
  ∀ s : State, s.Inv → s.busy = true → (∀ x ∈ s.agenda, x.waits = true) → ∃ (k : Nat) (t : State),
    k ≤ s.agenda.length + 1 ∧ Sys2Proof.core.run k s = .next t ∧ t.busy = false

/-- 10 R36: only BUILD and HDR_READ, alone or inside a composite, make the tree valid, and only GENCODES, alone or
inside COMPRESS, the code table. -/
def Obligations.ValidFlagsRiseOnlyByTheirCommands : Prop :=
  ∀ s t : State, step s = .next t →
    (s.treeValid = false → t.treeValid = true → ∃ (w : Word) (i : Instr), s.turn = .engine ∧ s.busy = true
        ∧ s.pending = some w ∧ decode w = .ok i ∧ i ∈ [Instr.build, .hdrRead, .compress, .decompress])
      ∧ (s.codesValid = false → t.codesValid = true → ∃ (w : Word) (i : Instr), s.turn = .engine ∧ s.busy = true
          ∧ s.pending = some w ∧ decode w = .ok i ∧ i ∈ [Instr.gencodes, .compress])

/-- 10 R56, R57: but for a re-attach and a reset, no step changes the input or moves its position back, and none
removes a bit from the output. -/
def Obligations.StreamsOnlyAdvance : Prop :=
  ∀ s t : State, step s = .next t → s.turn ≠ .host .reset →
    ((∀ b, s.turn ≠ .host (.attachIn b)) → t.inSrc = s.inSrc ∧ s.inPos ≤ t.inPos)
      ∧ (s.turn ≠ .host .attachOut → s.out <+: t.out)

/-- 10 R45: "only host writes and CLEAR change it", and a reset. -/
def Obligations.OnlyTheHostAndClearChangeTheCounts : Prop :=
  ∀ s t : State, step s = .next t → t.freq ≠ s.freq →
    (∃ (off : Offset) (x : Word), 0x1000 ≤ off.toNat ∧ off.toNat < 0x1400 ∧ s.busy = false
        ∧ s.turn = .host (.regWrite off 32 x))
      ∨ s.turn = .host .reset
      ∨ (s.turn = .engine ∧ s.busy = true ∧ s.pending = some 0x00000001#32)

/-- 70 R340: "no run's result depends on" the contents reset leaves unspecified: two states that differ only in masked
storage take steps that agree. -/
def Obligations.MaskedStorageIsNeverObserved : Prop :=
  ∀ s t : State, s.Inv → t.Inv → SameButMasked s t → OutcomesAgree (step s) (step t)

end
end

