-- ==== Sys2Proof/Laws/State.lean ====
section
/-! SUPPORT. What each named update of the state does to each field. -/

namespace Sys2Proof.Machine.State

variable (s : State)

@[simp] theorem setNode_freq (i : NodeIdx) (nd : Node) : (s.setNode i nd).freq = s.freq := rfl
@[simp] theorem setNode_node (i : NodeIdx) (nd : Node) : (s.setNode i nd).node = s.node.set i.val nd i.isLt := rfl
@[simp] theorem setNode_weight (i : NodeIdx) (nd : Node) : (s.setNode i nd).weight = s.weight := rfl
@[simp] theorem setNode_nodeCount (i : NodeIdx) (nd : Node) : (s.setNode i nd).nodeCount = s.nodeCount := rfl
@[simp] theorem setNode_leafCount (i : NodeIdx) (nd : Node) : (s.setNode i nd).leafCount = s.leafCount := rfl
@[simp] theorem setNode_root (i : NodeIdx) (nd : Node) : (s.setNode i nd).root = s.root := rfl
@[simp] theorem setNode_codeLen (i : NodeIdx) (nd : Node) : (s.setNode i nd).codeLen = s.codeLen := rfl
@[simp] theorem setNode_codeVal (i : NodeIdx) (nd : Node) : (s.setNode i nd).codeVal = s.codeVal := rfl
@[simp] theorem setNode_busy (i : NodeIdx) (nd : Node) : (s.setNode i nd).busy = s.busy := rfl
@[simp] theorem setNode_done (i : NodeIdx) (nd : Node) : (s.setNode i nd).done = s.done := rfl
@[simp] theorem setNode_err (i : NodeIdx) (nd : Node) : (s.setNode i nd).err = s.err := rfl
@[simp] theorem setNode_treeValid (i : NodeIdx) (nd : Node) : (s.setNode i nd).treeValid = s.treeValid := rfl
@[simp] theorem setNode_codesValid (i : NodeIdx) (nd : Node) : (s.setNode i nd).codesValid = s.codesValid := rfl
@[simp] theorem setNode_drop (i : NodeIdx) (nd : Node) : (s.setNode i nd).drop = s.drop := rfl
@[simp] theorem setNode_cause (i : NodeIdx) (nd : Node) : (s.setNode i nd).cause = s.cause := rfl
@[simp] theorem setNode_op (i : NodeIdx) (nd : Node) : (s.setNode i nd).op = s.op := rfl
@[simp] theorem setNode_stepOp (i : NodeIdx) (nd : Node) : (s.setNode i nd).stepOp = s.stepOp := rfl
@[simp] theorem setNode_errPos (i : NodeIdx) (nd : Node) : (s.setNode i nd).errPos = s.errPos := rfl
@[simp] theorem setNode_symCount (i : NodeIdx) (nd : Node) : (s.setNode i nd).symCount = s.symCount := rfl
@[simp] theorem setNode_pending (i : NodeIdx) (nd : Node) : (s.setNode i nd).pending = s.pending := rfl
@[simp] theorem setNode_inSrc (i : NodeIdx) (nd : Node) : (s.setNode i nd).inSrc = s.inSrc := rfl
@[simp] theorem setNode_inPos (i : NodeIdx) (nd : Node) : (s.setNode i nd).inPos = s.inPos := rfl
@[simp] theorem setNode_out (i : NodeIdx) (nd : Node) : (s.setNode i nd).out = s.out := rfl
@[simp] theorem setNode_agenda (i : NodeIdx) (nd : Node) : (s.setNode i nd).agenda = s.agenda := rfl
@[simp] theorem setNode_seen (i : NodeIdx) (nd : Node) : (s.setNode i nd).seen = s.seen := rfl
@[simp] theorem setNode_draws (i : NodeIdx) (nd : Node) : (s.setNode i nd).draws = s.draws := rfl

@[simp] theorem setWeight_freq (i : NodeIdx) (w : Word) : (s.setWeight i w).freq = s.freq := rfl
@[simp] theorem setWeight_node (i : NodeIdx) (w : Word) : (s.setWeight i w).node = s.node := rfl
@[simp] theorem setWeight_weight (i : NodeIdx) (w : Word) : (s.setWeight i w).weight = s.weight.set i.val w i.isLt := rfl
@[simp] theorem setWeight_nodeCount (i : NodeIdx) (w : Word) : (s.setWeight i w).nodeCount = s.nodeCount := rfl
@[simp] theorem setWeight_leafCount (i : NodeIdx) (w : Word) : (s.setWeight i w).leafCount = s.leafCount := rfl
@[simp] theorem setWeight_root (i : NodeIdx) (w : Word) : (s.setWeight i w).root = s.root := rfl
@[simp] theorem setWeight_codeLen (i : NodeIdx) (w : Word) : (s.setWeight i w).codeLen = s.codeLen := rfl
@[simp] theorem setWeight_codeVal (i : NodeIdx) (w : Word) : (s.setWeight i w).codeVal = s.codeVal := rfl
@[simp] theorem setWeight_busy (i : NodeIdx) (w : Word) : (s.setWeight i w).busy = s.busy := rfl
@[simp] theorem setWeight_done (i : NodeIdx) (w : Word) : (s.setWeight i w).done = s.done := rfl
@[simp] theorem setWeight_err (i : NodeIdx) (w : Word) : (s.setWeight i w).err = s.err := rfl
@[simp] theorem setWeight_treeValid (i : NodeIdx) (w : Word) : (s.setWeight i w).treeValid = s.treeValid := rfl
@[simp] theorem setWeight_codesValid (i : NodeIdx) (w : Word) : (s.setWeight i w).codesValid = s.codesValid := rfl
@[simp] theorem setWeight_drop (i : NodeIdx) (w : Word) : (s.setWeight i w).drop = s.drop := rfl
@[simp] theorem setWeight_cause (i : NodeIdx) (w : Word) : (s.setWeight i w).cause = s.cause := rfl
@[simp] theorem setWeight_op (i : NodeIdx) (w : Word) : (s.setWeight i w).op = s.op := rfl
@[simp] theorem setWeight_stepOp (i : NodeIdx) (w : Word) : (s.setWeight i w).stepOp = s.stepOp := rfl
@[simp] theorem setWeight_errPos (i : NodeIdx) (w : Word) : (s.setWeight i w).errPos = s.errPos := rfl
@[simp] theorem setWeight_symCount (i : NodeIdx) (w : Word) : (s.setWeight i w).symCount = s.symCount := rfl
@[simp] theorem setWeight_pending (i : NodeIdx) (w : Word) : (s.setWeight i w).pending = s.pending := rfl
@[simp] theorem setWeight_inSrc (i : NodeIdx) (w : Word) : (s.setWeight i w).inSrc = s.inSrc := rfl
@[simp] theorem setWeight_inPos (i : NodeIdx) (w : Word) : (s.setWeight i w).inPos = s.inPos := rfl
@[simp] theorem setWeight_out (i : NodeIdx) (w : Word) : (s.setWeight i w).out = s.out := rfl
@[simp] theorem setWeight_agenda (i : NodeIdx) (w : Word) : (s.setWeight i w).agenda = s.agenda := rfl
@[simp] theorem setWeight_seen (i : NodeIdx) (w : Word) : (s.setWeight i w).seen = s.seen := rfl
@[simp] theorem setWeight_draws (i : NodeIdx) (w : Word) : (s.setWeight i w).draws = s.draws := rfl

@[simp] theorem setCode_freq (v : Symbol) (len : Nat) (val : BitVec 256) : (s.setCode v len val).freq = s.freq := rfl
@[simp] theorem setCode_node (v : Symbol) (len : Nat) (val : BitVec 256) : (s.setCode v len val).node = s.node := rfl
@[simp] theorem setCode_weight (v : Symbol) (len : Nat) (val : BitVec 256) : (s.setCode v len val).weight = s.weight := rfl
@[simp] theorem setCode_nodeCount (v : Symbol) (len : Nat) (val : BitVec 256) : (s.setCode v len val).nodeCount = s.nodeCount := rfl
@[simp] theorem setCode_leafCount (v : Symbol) (len : Nat) (val : BitVec 256) : (s.setCode v len val).leafCount = s.leafCount := rfl
@[simp] theorem setCode_root (v : Symbol) (len : Nat) (val : BitVec 256) : (s.setCode v len val).root = s.root := rfl
@[simp] theorem setCode_codeLen (v : Symbol) (len : Nat) (val : BitVec 256) : (s.setCode v len val).codeLen = s.codeLen.set v.val len v.isLt := rfl
@[simp] theorem setCode_codeVal (v : Symbol) (len : Nat) (val : BitVec 256) : (s.setCode v len val).codeVal = s.codeVal.set v.val val v.isLt := rfl
@[simp] theorem setCode_busy (v : Symbol) (len : Nat) (val : BitVec 256) : (s.setCode v len val).busy = s.busy := rfl
@[simp] theorem setCode_done (v : Symbol) (len : Nat) (val : BitVec 256) : (s.setCode v len val).done = s.done := rfl
@[simp] theorem setCode_err (v : Symbol) (len : Nat) (val : BitVec 256) : (s.setCode v len val).err = s.err := rfl
@[simp] theorem setCode_treeValid (v : Symbol) (len : Nat) (val : BitVec 256) : (s.setCode v len val).treeValid = s.treeValid := rfl
@[simp] theorem setCode_codesValid (v : Symbol) (len : Nat) (val : BitVec 256) : (s.setCode v len val).codesValid = s.codesValid := rfl
@[simp] theorem setCode_drop (v : Symbol) (len : Nat) (val : BitVec 256) : (s.setCode v len val).drop = s.drop := rfl
@[simp] theorem setCode_cause (v : Symbol) (len : Nat) (val : BitVec 256) : (s.setCode v len val).cause = s.cause := rfl
@[simp] theorem setCode_op (v : Symbol) (len : Nat) (val : BitVec 256) : (s.setCode v len val).op = s.op := rfl
@[simp] theorem setCode_stepOp (v : Symbol) (len : Nat) (val : BitVec 256) : (s.setCode v len val).stepOp = s.stepOp := rfl
@[simp] theorem setCode_errPos (v : Symbol) (len : Nat) (val : BitVec 256) : (s.setCode v len val).errPos = s.errPos := rfl
@[simp] theorem setCode_symCount (v : Symbol) (len : Nat) (val : BitVec 256) : (s.setCode v len val).symCount = s.symCount := rfl
@[simp] theorem setCode_pending (v : Symbol) (len : Nat) (val : BitVec 256) : (s.setCode v len val).pending = s.pending := rfl
@[simp] theorem setCode_inSrc (v : Symbol) (len : Nat) (val : BitVec 256) : (s.setCode v len val).inSrc = s.inSrc := rfl
@[simp] theorem setCode_inPos (v : Symbol) (len : Nat) (val : BitVec 256) : (s.setCode v len val).inPos = s.inPos := rfl
@[simp] theorem setCode_out (v : Symbol) (len : Nat) (val : BitVec 256) : (s.setCode v len val).out = s.out := rfl
@[simp] theorem setCode_agenda (v : Symbol) (len : Nat) (val : BitVec 256) : (s.setCode v len val).agenda = s.agenda := rfl
@[simp] theorem setCode_seen (v : Symbol) (len : Nat) (val : BitVec 256) : (s.setCode v len val).seen = s.seen := rfl
@[simp] theorem setCode_draws (v : Symbol) (len : Nat) (val : BitVec 256) : (s.setCode v len val).draws = s.draws := rfl

@[simp] theorem clearCodes_freq : (s.clearCodes).freq = s.freq := rfl
@[simp] theorem clearCodes_node : (s.clearCodes).node = s.node := rfl
@[simp] theorem clearCodes_weight : (s.clearCodes).weight = s.weight := rfl
@[simp] theorem clearCodes_nodeCount : (s.clearCodes).nodeCount = s.nodeCount := rfl
@[simp] theorem clearCodes_leafCount : (s.clearCodes).leafCount = s.leafCount := rfl
@[simp] theorem clearCodes_root : (s.clearCodes).root = s.root := rfl
@[simp] theorem clearCodes_codeLen : (s.clearCodes).codeLen = Vector.replicate 257 0 := rfl
@[simp] theorem clearCodes_codeVal : (s.clearCodes).codeVal = Vector.replicate 257 0#256 := rfl
@[simp] theorem clearCodes_busy : (s.clearCodes).busy = s.busy := rfl
@[simp] theorem clearCodes_done : (s.clearCodes).done = s.done := rfl
@[simp] theorem clearCodes_err : (s.clearCodes).err = s.err := rfl
@[simp] theorem clearCodes_treeValid : (s.clearCodes).treeValid = s.treeValid := rfl
@[simp] theorem clearCodes_codesValid : (s.clearCodes).codesValid = s.codesValid := rfl
@[simp] theorem clearCodes_drop : (s.clearCodes).drop = s.drop := rfl
@[simp] theorem clearCodes_cause : (s.clearCodes).cause = s.cause := rfl
@[simp] theorem clearCodes_op : (s.clearCodes).op = s.op := rfl
@[simp] theorem clearCodes_stepOp : (s.clearCodes).stepOp = s.stepOp := rfl
@[simp] theorem clearCodes_errPos : (s.clearCodes).errPos = s.errPos := rfl
@[simp] theorem clearCodes_symCount : (s.clearCodes).symCount = s.symCount := rfl
@[simp] theorem clearCodes_pending : (s.clearCodes).pending = s.pending := rfl
@[simp] theorem clearCodes_inSrc : (s.clearCodes).inSrc = s.inSrc := rfl
@[simp] theorem clearCodes_inPos : (s.clearCodes).inPos = s.inPos := rfl
@[simp] theorem clearCodes_out : (s.clearCodes).out = s.out := rfl
@[simp] theorem clearCodes_agenda : (s.clearCodes).agenda = s.agenda := rfl
@[simp] theorem clearCodes_seen : (s.clearCodes).seen = s.seen := rfl
@[simp] theorem clearCodes_draws : (s.clearCodes).draws = s.draws := rfl

@[simp] theorem invalidate_freq : (s.invalidate).freq = s.freq := rfl
@[simp] theorem invalidate_node : (s.invalidate).node = s.node := rfl
@[simp] theorem invalidate_weight : (s.invalidate).weight = s.weight := rfl
@[simp] theorem invalidate_nodeCount : (s.invalidate).nodeCount = s.nodeCount := rfl
@[simp] theorem invalidate_leafCount : (s.invalidate).leafCount = s.leafCount := rfl
@[simp] theorem invalidate_root : (s.invalidate).root = s.root := rfl
@[simp] theorem invalidate_codeLen : (s.invalidate).codeLen = s.codeLen := rfl
@[simp] theorem invalidate_codeVal : (s.invalidate).codeVal = s.codeVal := rfl
@[simp] theorem invalidate_busy : (s.invalidate).busy = s.busy := rfl
@[simp] theorem invalidate_done : (s.invalidate).done = s.done := rfl
@[simp] theorem invalidate_err : (s.invalidate).err = s.err := rfl
@[simp] theorem invalidate_treeValid : (s.invalidate).treeValid = false := rfl
@[simp] theorem invalidate_codesValid : (s.invalidate).codesValid = false := rfl
@[simp] theorem invalidate_drop : (s.invalidate).drop = s.drop := rfl
@[simp] theorem invalidate_cause : (s.invalidate).cause = s.cause := rfl
@[simp] theorem invalidate_op : (s.invalidate).op = s.op := rfl
@[simp] theorem invalidate_stepOp : (s.invalidate).stepOp = s.stepOp := rfl
@[simp] theorem invalidate_errPos : (s.invalidate).errPos = s.errPos := rfl
@[simp] theorem invalidate_symCount : (s.invalidate).symCount = s.symCount := rfl
@[simp] theorem invalidate_pending : (s.invalidate).pending = s.pending := rfl
@[simp] theorem invalidate_inSrc : (s.invalidate).inSrc = s.inSrc := rfl
@[simp] theorem invalidate_inPos : (s.invalidate).inPos = s.inPos := rfl
@[simp] theorem invalidate_out : (s.invalidate).out = s.out := rfl
@[simp] theorem invalidate_agenda : (s.invalidate).agenda = s.agenda := rfl
@[simp] theorem invalidate_seen : (s.invalidate).seen = s.seen := rfl
@[simp] theorem invalidate_draws : (s.invalidate).draws = s.draws := rfl

@[simp] theorem validTree_freq (r : NodeIdx) (n l : Nat) : (s.validTree r n l).freq = s.freq := rfl
@[simp] theorem validTree_node (r : NodeIdx) (n l : Nat) : (s.validTree r n l).node = s.node := rfl
@[simp] theorem validTree_weight (r : NodeIdx) (n l : Nat) : (s.validTree r n l).weight = s.weight := rfl
@[simp] theorem validTree_nodeCount (r : NodeIdx) (n l : Nat) : (s.validTree r n l).nodeCount = n := rfl
@[simp] theorem validTree_leafCount (r : NodeIdx) (n l : Nat) : (s.validTree r n l).leafCount = l := rfl
@[simp] theorem validTree_root (r : NodeIdx) (n l : Nat) : (s.validTree r n l).root = r := rfl
@[simp] theorem validTree_codeLen (r : NodeIdx) (n l : Nat) : (s.validTree r n l).codeLen = s.codeLen := rfl
@[simp] theorem validTree_codeVal (r : NodeIdx) (n l : Nat) : (s.validTree r n l).codeVal = s.codeVal := rfl
@[simp] theorem validTree_busy (r : NodeIdx) (n l : Nat) : (s.validTree r n l).busy = s.busy := rfl
@[simp] theorem validTree_done (r : NodeIdx) (n l : Nat) : (s.validTree r n l).done = s.done := rfl
@[simp] theorem validTree_err (r : NodeIdx) (n l : Nat) : (s.validTree r n l).err = s.err := rfl
@[simp] theorem validTree_treeValid (r : NodeIdx) (n l : Nat) : (s.validTree r n l).treeValid = true := rfl
@[simp] theorem validTree_codesValid (r : NodeIdx) (n l : Nat) : (s.validTree r n l).codesValid = s.codesValid := rfl
@[simp] theorem validTree_drop (r : NodeIdx) (n l : Nat) : (s.validTree r n l).drop = s.drop := rfl
@[simp] theorem validTree_cause (r : NodeIdx) (n l : Nat) : (s.validTree r n l).cause = s.cause := rfl
@[simp] theorem validTree_op (r : NodeIdx) (n l : Nat) : (s.validTree r n l).op = s.op := rfl
@[simp] theorem validTree_stepOp (r : NodeIdx) (n l : Nat) : (s.validTree r n l).stepOp = s.stepOp := rfl
@[simp] theorem validTree_errPos (r : NodeIdx) (n l : Nat) : (s.validTree r n l).errPos = s.errPos := rfl
@[simp] theorem validTree_symCount (r : NodeIdx) (n l : Nat) : (s.validTree r n l).symCount = s.symCount := rfl
@[simp] theorem validTree_pending (r : NodeIdx) (n l : Nat) : (s.validTree r n l).pending = s.pending := rfl
@[simp] theorem validTree_inSrc (r : NodeIdx) (n l : Nat) : (s.validTree r n l).inSrc = s.inSrc := rfl
@[simp] theorem validTree_inPos (r : NodeIdx) (n l : Nat) : (s.validTree r n l).inPos = s.inPos := rfl
@[simp] theorem validTree_out (r : NodeIdx) (n l : Nat) : (s.validTree r n l).out = s.out := rfl
@[simp] theorem validTree_agenda (r : NodeIdx) (n l : Nat) : (s.validTree r n l).agenda = s.agenda := rfl
@[simp] theorem validTree_seen (r : NodeIdx) (n l : Nat) : (s.validTree r n l).seen = s.seen := rfl
@[simp] theorem validTree_draws (r : NodeIdx) (n l : Nat) : (s.validTree r n l).draws = s.draws := rfl

@[simp] theorem invalidateCodes_freq : (s.invalidateCodes).freq = s.freq := rfl
@[simp] theorem invalidateCodes_node : (s.invalidateCodes).node = s.node := rfl
@[simp] theorem invalidateCodes_weight : (s.invalidateCodes).weight = s.weight := rfl
@[simp] theorem invalidateCodes_nodeCount : (s.invalidateCodes).nodeCount = s.nodeCount := rfl
@[simp] theorem invalidateCodes_leafCount : (s.invalidateCodes).leafCount = s.leafCount := rfl
@[simp] theorem invalidateCodes_root : (s.invalidateCodes).root = s.root := rfl
@[simp] theorem invalidateCodes_codeLen : (s.invalidateCodes).codeLen = s.codeLen := rfl
@[simp] theorem invalidateCodes_codeVal : (s.invalidateCodes).codeVal = s.codeVal := rfl
@[simp] theorem invalidateCodes_busy : (s.invalidateCodes).busy = s.busy := rfl
@[simp] theorem invalidateCodes_done : (s.invalidateCodes).done = s.done := rfl
@[simp] theorem invalidateCodes_err : (s.invalidateCodes).err = s.err := rfl
@[simp] theorem invalidateCodes_treeValid : (s.invalidateCodes).treeValid = s.treeValid := rfl
@[simp] theorem invalidateCodes_codesValid : (s.invalidateCodes).codesValid = false := rfl
@[simp] theorem invalidateCodes_drop : (s.invalidateCodes).drop = s.drop := rfl
@[simp] theorem invalidateCodes_cause : (s.invalidateCodes).cause = s.cause := rfl
@[simp] theorem invalidateCodes_op : (s.invalidateCodes).op = s.op := rfl
@[simp] theorem invalidateCodes_stepOp : (s.invalidateCodes).stepOp = s.stepOp := rfl
@[simp] theorem invalidateCodes_errPos : (s.invalidateCodes).errPos = s.errPos := rfl
@[simp] theorem invalidateCodes_symCount : (s.invalidateCodes).symCount = s.symCount := rfl
@[simp] theorem invalidateCodes_pending : (s.invalidateCodes).pending = s.pending := rfl
@[simp] theorem invalidateCodes_inSrc : (s.invalidateCodes).inSrc = s.inSrc := rfl
@[simp] theorem invalidateCodes_inPos : (s.invalidateCodes).inPos = s.inPos := rfl
@[simp] theorem invalidateCodes_out : (s.invalidateCodes).out = s.out := rfl
@[simp] theorem invalidateCodes_agenda : (s.invalidateCodes).agenda = s.agenda := rfl
@[simp] theorem invalidateCodes_seen : (s.invalidateCodes).seen = s.seen := rfl
@[simp] theorem invalidateCodes_draws : (s.invalidateCodes).draws = s.draws := rfl

@[simp] theorem validCodes_freq : (s.validCodes).freq = s.freq := rfl
@[simp] theorem validCodes_node : (s.validCodes).node = s.node := rfl
@[simp] theorem validCodes_weight : (s.validCodes).weight = s.weight := rfl
@[simp] theorem validCodes_nodeCount : (s.validCodes).nodeCount = s.nodeCount := rfl
@[simp] theorem validCodes_leafCount : (s.validCodes).leafCount = s.leafCount := rfl
@[simp] theorem validCodes_root : (s.validCodes).root = s.root := rfl
@[simp] theorem validCodes_codeLen : (s.validCodes).codeLen = s.codeLen := rfl
@[simp] theorem validCodes_codeVal : (s.validCodes).codeVal = s.codeVal := rfl
@[simp] theorem validCodes_busy : (s.validCodes).busy = s.busy := rfl
@[simp] theorem validCodes_done : (s.validCodes).done = s.done := rfl
@[simp] theorem validCodes_err : (s.validCodes).err = s.err := rfl
@[simp] theorem validCodes_treeValid : (s.validCodes).treeValid = s.treeValid := rfl
@[simp] theorem validCodes_codesValid : (s.validCodes).codesValid = true := rfl
@[simp] theorem validCodes_drop : (s.validCodes).drop = s.drop := rfl
@[simp] theorem validCodes_cause : (s.validCodes).cause = s.cause := rfl
@[simp] theorem validCodes_op : (s.validCodes).op = s.op := rfl
@[simp] theorem validCodes_stepOp : (s.validCodes).stepOp = s.stepOp := rfl
@[simp] theorem validCodes_errPos : (s.validCodes).errPos = s.errPos := rfl
@[simp] theorem validCodes_symCount : (s.validCodes).symCount = s.symCount := rfl
@[simp] theorem validCodes_pending : (s.validCodes).pending = s.pending := rfl
@[simp] theorem validCodes_inSrc : (s.validCodes).inSrc = s.inSrc := rfl
@[simp] theorem validCodes_inPos : (s.validCodes).inPos = s.inPos := rfl
@[simp] theorem validCodes_out : (s.validCodes).out = s.out := rfl
@[simp] theorem validCodes_agenda : (s.validCodes).agenda = s.agenda := rfl
@[simp] theorem validCodes_seen : (s.validCodes).seen = s.seen := rfl
@[simp] theorem validCodes_draws : (s.validCodes).draws = s.draws := rfl

@[simp] theorem resetSymCount_freq : (s.resetSymCount).freq = s.freq := rfl
@[simp] theorem resetSymCount_node : (s.resetSymCount).node = s.node := rfl
@[simp] theorem resetSymCount_weight : (s.resetSymCount).weight = s.weight := rfl
@[simp] theorem resetSymCount_nodeCount : (s.resetSymCount).nodeCount = s.nodeCount := rfl
@[simp] theorem resetSymCount_leafCount : (s.resetSymCount).leafCount = s.leafCount := rfl
@[simp] theorem resetSymCount_root : (s.resetSymCount).root = s.root := rfl
@[simp] theorem resetSymCount_codeLen : (s.resetSymCount).codeLen = s.codeLen := rfl
@[simp] theorem resetSymCount_codeVal : (s.resetSymCount).codeVal = s.codeVal := rfl
@[simp] theorem resetSymCount_busy : (s.resetSymCount).busy = s.busy := rfl
@[simp] theorem resetSymCount_done : (s.resetSymCount).done = s.done := rfl
@[simp] theorem resetSymCount_err : (s.resetSymCount).err = s.err := rfl
@[simp] theorem resetSymCount_treeValid : (s.resetSymCount).treeValid = s.treeValid := rfl
@[simp] theorem resetSymCount_codesValid : (s.resetSymCount).codesValid = s.codesValid := rfl
@[simp] theorem resetSymCount_drop : (s.resetSymCount).drop = s.drop := rfl
@[simp] theorem resetSymCount_cause : (s.resetSymCount).cause = s.cause := rfl
@[simp] theorem resetSymCount_op : (s.resetSymCount).op = s.op := rfl
@[simp] theorem resetSymCount_stepOp : (s.resetSymCount).stepOp = s.stepOp := rfl
@[simp] theorem resetSymCount_errPos : (s.resetSymCount).errPos = s.errPos := rfl
@[simp] theorem resetSymCount_symCount : (s.resetSymCount).symCount = 0 := rfl
@[simp] theorem resetSymCount_pending : (s.resetSymCount).pending = s.pending := rfl
@[simp] theorem resetSymCount_inSrc : (s.resetSymCount).inSrc = s.inSrc := rfl
@[simp] theorem resetSymCount_inPos : (s.resetSymCount).inPos = s.inPos := rfl
@[simp] theorem resetSymCount_out : (s.resetSymCount).out = s.out := rfl
@[simp] theorem resetSymCount_agenda : (s.resetSymCount).agenda = s.agenda := rfl
@[simp] theorem resetSymCount_seen : (s.resetSymCount).seen = s.seen := rfl
@[simp] theorem resetSymCount_draws : (s.resetSymCount).draws = s.draws := rfl

@[simp] theorem countSymbol_freq : (s.countSymbol).freq = s.freq := rfl
@[simp] theorem countSymbol_node : (s.countSymbol).node = s.node := rfl
@[simp] theorem countSymbol_weight : (s.countSymbol).weight = s.weight := rfl
@[simp] theorem countSymbol_nodeCount : (s.countSymbol).nodeCount = s.nodeCount := rfl
@[simp] theorem countSymbol_leafCount : (s.countSymbol).leafCount = s.leafCount := rfl
@[simp] theorem countSymbol_root : (s.countSymbol).root = s.root := rfl
@[simp] theorem countSymbol_codeLen : (s.countSymbol).codeLen = s.codeLen := rfl
@[simp] theorem countSymbol_codeVal : (s.countSymbol).codeVal = s.codeVal := rfl
@[simp] theorem countSymbol_busy : (s.countSymbol).busy = s.busy := rfl
@[simp] theorem countSymbol_done : (s.countSymbol).done = s.done := rfl
@[simp] theorem countSymbol_err : (s.countSymbol).err = s.err := rfl
@[simp] theorem countSymbol_treeValid : (s.countSymbol).treeValid = s.treeValid := rfl
@[simp] theorem countSymbol_codesValid : (s.countSymbol).codesValid = s.codesValid := rfl
@[simp] theorem countSymbol_drop : (s.countSymbol).drop = s.drop := rfl
@[simp] theorem countSymbol_cause : (s.countSymbol).cause = s.cause := rfl
@[simp] theorem countSymbol_op : (s.countSymbol).op = s.op := rfl
@[simp] theorem countSymbol_stepOp : (s.countSymbol).stepOp = s.stepOp := rfl
@[simp] theorem countSymbol_errPos : (s.countSymbol).errPos = s.errPos := rfl
@[simp] theorem countSymbol_symCount : (s.countSymbol).symCount = s.symCount + 1 := rfl
@[simp] theorem countSymbol_pending : (s.countSymbol).pending = s.pending := rfl
@[simp] theorem countSymbol_inSrc : (s.countSymbol).inSrc = s.inSrc := rfl
@[simp] theorem countSymbol_inPos : (s.countSymbol).inPos = s.inPos := rfl
@[simp] theorem countSymbol_out : (s.countSymbol).out = s.out := rfl
@[simp] theorem countSymbol_agenda : (s.countSymbol).agenda = s.agenda := rfl
@[simp] theorem countSymbol_seen : (s.countSymbol).seen = s.seen := rfl
@[simp] theorem countSymbol_draws : (s.countSymbol).draws = s.draws := rfl

@[simp] theorem accept_freq (w : Word) : (s.accept w).freq = s.freq := rfl
@[simp] theorem accept_node (w : Word) : (s.accept w).node = s.node := rfl
@[simp] theorem accept_weight (w : Word) : (s.accept w).weight = s.weight := rfl
@[simp] theorem accept_nodeCount (w : Word) : (s.accept w).nodeCount = s.nodeCount := rfl
@[simp] theorem accept_leafCount (w : Word) : (s.accept w).leafCount = s.leafCount := rfl
@[simp] theorem accept_root (w : Word) : (s.accept w).root = s.root := rfl
@[simp] theorem accept_codeLen (w : Word) : (s.accept w).codeLen = s.codeLen := rfl
@[simp] theorem accept_codeVal (w : Word) : (s.accept w).codeVal = s.codeVal := rfl
@[simp] theorem accept_busy (w : Word) : (s.accept w).busy = true := rfl
@[simp] theorem accept_done (w : Word) : (s.accept w).done = false := rfl
@[simp] theorem accept_err (w : Word) : (s.accept w).err = s.err := rfl
@[simp] theorem accept_treeValid (w : Word) : (s.accept w).treeValid = s.treeValid := rfl
@[simp] theorem accept_codesValid (w : Word) : (s.accept w).codesValid = s.codesValid := rfl
@[simp] theorem accept_drop (w : Word) : (s.accept w).drop = s.drop := rfl
@[simp] theorem accept_cause (w : Word) : (s.accept w).cause = s.cause := rfl
@[simp] theorem accept_op (w : Word) : (s.accept w).op = s.op := rfl
@[simp] theorem accept_stepOp (w : Word) : (s.accept w).stepOp = s.stepOp := rfl
@[simp] theorem accept_errPos (w : Word) : (s.accept w).errPos = s.errPos := rfl
@[simp] theorem accept_symCount (w : Word) : (s.accept w).symCount = s.symCount := rfl
@[simp] theorem accept_pending (w : Word) : (s.accept w).pending = some w := rfl
@[simp] theorem accept_inSrc (w : Word) : (s.accept w).inSrc = s.inSrc := rfl
@[simp] theorem accept_inPos (w : Word) : (s.accept w).inPos = s.inPos := rfl
@[simp] theorem accept_out (w : Word) : (s.accept w).out = s.out := rfl
@[simp] theorem accept_agenda (w : Word) : (s.accept w).agenda = s.agenda := rfl
@[simp] theorem accept_seen (w : Word) : (s.accept w).seen = s.seen := rfl
@[simp] theorem accept_draws (w : Word) : (s.accept w).draws = s.draws := rfl

@[simp] theorem dropped_freq : (s.dropped).freq = s.freq := rfl
@[simp] theorem dropped_node : (s.dropped).node = s.node := rfl
@[simp] theorem dropped_weight : (s.dropped).weight = s.weight := rfl
@[simp] theorem dropped_nodeCount : (s.dropped).nodeCount = s.nodeCount := rfl
@[simp] theorem dropped_leafCount : (s.dropped).leafCount = s.leafCount := rfl
@[simp] theorem dropped_root : (s.dropped).root = s.root := rfl
@[simp] theorem dropped_codeLen : (s.dropped).codeLen = s.codeLen := rfl
@[simp] theorem dropped_codeVal : (s.dropped).codeVal = s.codeVal := rfl
@[simp] theorem dropped_busy : (s.dropped).busy = s.busy := rfl
@[simp] theorem dropped_done : (s.dropped).done = s.done := rfl
@[simp] theorem dropped_err : (s.dropped).err = s.err := rfl
@[simp] theorem dropped_treeValid : (s.dropped).treeValid = s.treeValid := rfl
@[simp] theorem dropped_codesValid : (s.dropped).codesValid = s.codesValid := rfl
@[simp] theorem dropped_drop : (s.dropped).drop = true := rfl
@[simp] theorem dropped_cause : (s.dropped).cause = s.cause := rfl
@[simp] theorem dropped_op : (s.dropped).op = s.op := rfl
@[simp] theorem dropped_stepOp : (s.dropped).stepOp = s.stepOp := rfl
@[simp] theorem dropped_errPos : (s.dropped).errPos = s.errPos := rfl
@[simp] theorem dropped_symCount : (s.dropped).symCount = s.symCount := rfl
@[simp] theorem dropped_pending : (s.dropped).pending = s.pending := rfl
@[simp] theorem dropped_inSrc : (s.dropped).inSrc = s.inSrc := rfl
@[simp] theorem dropped_inPos : (s.dropped).inPos = s.inPos := rfl
@[simp] theorem dropped_out : (s.dropped).out = s.out := rfl
@[simp] theorem dropped_agenda : (s.dropped).agenda = s.agenda := rfl
@[simp] theorem dropped_seen : (s.dropped).seen = s.seen := rfl
@[simp] theorem dropped_draws : (s.dropped).draws = s.draws := rfl

@[simp] theorem capture_freq (c : Cause) (o st : BitVec 8) : (s.capture c o st).freq = s.freq := rfl
@[simp] theorem capture_node (c : Cause) (o st : BitVec 8) : (s.capture c o st).node = s.node := rfl
@[simp] theorem capture_weight (c : Cause) (o st : BitVec 8) : (s.capture c o st).weight = s.weight := rfl
@[simp] theorem capture_nodeCount (c : Cause) (o st : BitVec 8) : (s.capture c o st).nodeCount = s.nodeCount := rfl
@[simp] theorem capture_leafCount (c : Cause) (o st : BitVec 8) : (s.capture c o st).leafCount = s.leafCount := rfl
@[simp] theorem capture_root (c : Cause) (o st : BitVec 8) : (s.capture c o st).root = s.root := rfl
@[simp] theorem capture_codeLen (c : Cause) (o st : BitVec 8) : (s.capture c o st).codeLen = s.codeLen := rfl
@[simp] theorem capture_codeVal (c : Cause) (o st : BitVec 8) : (s.capture c o st).codeVal = s.codeVal := rfl
@[simp] theorem capture_busy (c : Cause) (o st : BitVec 8) : (s.capture c o st).busy = s.busy := rfl
@[simp] theorem capture_done (c : Cause) (o st : BitVec 8) : (s.capture c o st).done = s.done := rfl
@[simp] theorem capture_err (c : Cause) (o st : BitVec 8) : (s.capture c o st).err = true := rfl
@[simp] theorem capture_treeValid (c : Cause) (o st : BitVec 8) : (s.capture c o st).treeValid = s.treeValid := rfl
@[simp] theorem capture_codesValid (c : Cause) (o st : BitVec 8) : (s.capture c o st).codesValid = s.codesValid := rfl
@[simp] theorem capture_drop (c : Cause) (o st : BitVec 8) : (s.capture c o st).drop = s.drop := rfl
@[simp] theorem capture_cause (c : Cause) (o st : BitVec 8) : (s.capture c o st).cause = c.code := rfl
@[simp] theorem capture_op (c : Cause) (o st : BitVec 8) : (s.capture c o st).op = o := rfl
@[simp] theorem capture_stepOp (c : Cause) (o st : BitVec 8) : (s.capture c o st).stepOp = st := rfl
@[simp] theorem capture_errPos (c : Cause) (o st : BitVec 8) : (s.capture c o st).errPos = BitVec.ofNat 32 s.inPos := rfl
@[simp] theorem capture_symCount (c : Cause) (o st : BitVec 8) : (s.capture c o st).symCount = s.symCount := rfl
@[simp] theorem capture_pending (c : Cause) (o st : BitVec 8) : (s.capture c o st).pending = s.pending := rfl
@[simp] theorem capture_inSrc (c : Cause) (o st : BitVec 8) : (s.capture c o st).inSrc = s.inSrc := rfl
@[simp] theorem capture_inPos (c : Cause) (o st : BitVec 8) : (s.capture c o st).inPos = s.inPos := rfl
@[simp] theorem capture_out (c : Cause) (o st : BitVec 8) : (s.capture c o st).out = s.out := rfl
@[simp] theorem capture_agenda (c : Cause) (o st : BitVec 8) : (s.capture c o st).agenda = s.agenda := rfl
@[simp] theorem capture_seen (c : Cause) (o st : BitVec 8) : (s.capture c o st).seen = s.seen := rfl
@[simp] theorem capture_draws (c : Cause) (o st : BitVec 8) : (s.capture c o st).draws = s.draws := rfl

@[simp] theorem acknowledge_freq : (s.acknowledge).freq = s.freq := rfl
@[simp] theorem acknowledge_node : (s.acknowledge).node = s.node := rfl
@[simp] theorem acknowledge_weight : (s.acknowledge).weight = s.weight := rfl
@[simp] theorem acknowledge_nodeCount : (s.acknowledge).nodeCount = s.nodeCount := rfl
@[simp] theorem acknowledge_leafCount : (s.acknowledge).leafCount = s.leafCount := rfl
@[simp] theorem acknowledge_root : (s.acknowledge).root = s.root := rfl
@[simp] theorem acknowledge_codeLen : (s.acknowledge).codeLen = s.codeLen := rfl
@[simp] theorem acknowledge_codeVal : (s.acknowledge).codeVal = s.codeVal := rfl
@[simp] theorem acknowledge_busy : (s.acknowledge).busy = s.busy := rfl
@[simp] theorem acknowledge_done : (s.acknowledge).done = s.done := rfl
@[simp] theorem acknowledge_err : (s.acknowledge).err = false := rfl
@[simp] theorem acknowledge_treeValid : (s.acknowledge).treeValid = s.treeValid := rfl
@[simp] theorem acknowledge_codesValid : (s.acknowledge).codesValid = s.codesValid := rfl
@[simp] theorem acknowledge_drop : (s.acknowledge).drop = s.drop := rfl
@[simp] theorem acknowledge_cause : (s.acknowledge).cause = 0#8 := rfl
@[simp] theorem acknowledge_op : (s.acknowledge).op = 0#8 := rfl
@[simp] theorem acknowledge_stepOp : (s.acknowledge).stepOp = 0#8 := rfl
@[simp] theorem acknowledge_errPos : (s.acknowledge).errPos = 0#32 := rfl
@[simp] theorem acknowledge_symCount : (s.acknowledge).symCount = s.symCount := rfl
@[simp] theorem acknowledge_pending : (s.acknowledge).pending = s.pending := rfl
@[simp] theorem acknowledge_inSrc : (s.acknowledge).inSrc = s.inSrc := rfl
@[simp] theorem acknowledge_inPos : (s.acknowledge).inPos = s.inPos := rfl
@[simp] theorem acknowledge_out : (s.acknowledge).out = s.out := rfl
@[simp] theorem acknowledge_agenda : (s.acknowledge).agenda = s.agenda := rfl
@[simp] theorem acknowledge_seen : (s.acknowledge).seen = s.seen := rfl
@[simp] theorem acknowledge_draws : (s.acknowledge).draws = s.draws := rfl

@[simp] theorem retire_freq : (s.retire).freq = s.freq := rfl
@[simp] theorem retire_node : (s.retire).node = s.node := rfl
@[simp] theorem retire_weight : (s.retire).weight = s.weight := rfl
@[simp] theorem retire_nodeCount : (s.retire).nodeCount = s.nodeCount := rfl
@[simp] theorem retire_leafCount : (s.retire).leafCount = s.leafCount := rfl
@[simp] theorem retire_root : (s.retire).root = s.root := rfl
@[simp] theorem retire_codeLen : (s.retire).codeLen = s.codeLen := rfl
@[simp] theorem retire_codeVal : (s.retire).codeVal = s.codeVal := rfl
@[simp] theorem retire_busy : (s.retire).busy = false := rfl
@[simp] theorem retire_done : (s.retire).done = s.done := rfl
@[simp] theorem retire_err : (s.retire).err = s.err := rfl
@[simp] theorem retire_treeValid : (s.retire).treeValid = s.treeValid := rfl
@[simp] theorem retire_codesValid : (s.retire).codesValid = s.codesValid := rfl
@[simp] theorem retire_drop : (s.retire).drop = s.drop := rfl
@[simp] theorem retire_cause : (s.retire).cause = s.cause := rfl
@[simp] theorem retire_op : (s.retire).op = s.op := rfl
@[simp] theorem retire_stepOp : (s.retire).stepOp = s.stepOp := rfl
@[simp] theorem retire_errPos : (s.retire).errPos = s.errPos := rfl
@[simp] theorem retire_symCount : (s.retire).symCount = s.symCount := rfl
@[simp] theorem retire_pending : (s.retire).pending = none := rfl
@[simp] theorem retire_inSrc : (s.retire).inSrc = s.inSrc := rfl
@[simp] theorem retire_inPos : (s.retire).inPos = s.inPos := rfl
@[simp] theorem retire_out : (s.retire).out = s.out := rfl
@[simp] theorem retire_agenda : (s.retire).agenda = s.agenda := rfl
@[simp] theorem retire_seen : (s.retire).seen = s.seen := rfl
@[simp] theorem retire_draws : (s.retire).draws = s.draws := rfl

@[simp] theorem setDone_freq : (s.setDone).freq = s.freq := rfl
@[simp] theorem setDone_node : (s.setDone).node = s.node := rfl
@[simp] theorem setDone_weight : (s.setDone).weight = s.weight := rfl
@[simp] theorem setDone_nodeCount : (s.setDone).nodeCount = s.nodeCount := rfl
@[simp] theorem setDone_leafCount : (s.setDone).leafCount = s.leafCount := rfl
@[simp] theorem setDone_root : (s.setDone).root = s.root := rfl
@[simp] theorem setDone_codeLen : (s.setDone).codeLen = s.codeLen := rfl
@[simp] theorem setDone_codeVal : (s.setDone).codeVal = s.codeVal := rfl
@[simp] theorem setDone_busy : (s.setDone).busy = s.busy := rfl
@[simp] theorem setDone_done : (s.setDone).done = true := rfl
@[simp] theorem setDone_err : (s.setDone).err = s.err := rfl
@[simp] theorem setDone_treeValid : (s.setDone).treeValid = s.treeValid := rfl
@[simp] theorem setDone_codesValid : (s.setDone).codesValid = s.codesValid := rfl
@[simp] theorem setDone_drop : (s.setDone).drop = s.drop := rfl
@[simp] theorem setDone_cause : (s.setDone).cause = s.cause := rfl
@[simp] theorem setDone_op : (s.setDone).op = s.op := rfl
@[simp] theorem setDone_stepOp : (s.setDone).stepOp = s.stepOp := rfl
@[simp] theorem setDone_errPos : (s.setDone).errPos = s.errPos := rfl
@[simp] theorem setDone_symCount : (s.setDone).symCount = s.symCount := rfl
@[simp] theorem setDone_pending : (s.setDone).pending = s.pending := rfl
@[simp] theorem setDone_inSrc : (s.setDone).inSrc = s.inSrc := rfl
@[simp] theorem setDone_inPos : (s.setDone).inPos = s.inPos := rfl
@[simp] theorem setDone_out : (s.setDone).out = s.out := rfl
@[simp] theorem setDone_agenda : (s.setDone).agenda = s.agenda := rfl
@[simp] theorem setDone_seen : (s.setDone).seen = s.seen := rfl
@[simp] theorem setDone_draws : (s.setDone).draws = s.draws := rfl

@[simp] theorem writeBits_freq (n v : Nat) : (s.writeBits n v).freq = s.freq := rfl
@[simp] theorem writeBits_node (n v : Nat) : (s.writeBits n v).node = s.node := rfl
@[simp] theorem writeBits_weight (n v : Nat) : (s.writeBits n v).weight = s.weight := rfl
@[simp] theorem writeBits_nodeCount (n v : Nat) : (s.writeBits n v).nodeCount = s.nodeCount := rfl
@[simp] theorem writeBits_leafCount (n v : Nat) : (s.writeBits n v).leafCount = s.leafCount := rfl
@[simp] theorem writeBits_root (n v : Nat) : (s.writeBits n v).root = s.root := rfl
@[simp] theorem writeBits_codeLen (n v : Nat) : (s.writeBits n v).codeLen = s.codeLen := rfl
@[simp] theorem writeBits_codeVal (n v : Nat) : (s.writeBits n v).codeVal = s.codeVal := rfl
@[simp] theorem writeBits_busy (n v : Nat) : (s.writeBits n v).busy = s.busy := rfl
@[simp] theorem writeBits_done (n v : Nat) : (s.writeBits n v).done = s.done := rfl
@[simp] theorem writeBits_err (n v : Nat) : (s.writeBits n v).err = s.err := rfl
@[simp] theorem writeBits_treeValid (n v : Nat) : (s.writeBits n v).treeValid = s.treeValid := rfl
@[simp] theorem writeBits_codesValid (n v : Nat) : (s.writeBits n v).codesValid = s.codesValid := rfl
@[simp] theorem writeBits_drop (n v : Nat) : (s.writeBits n v).drop = s.drop := rfl
@[simp] theorem writeBits_cause (n v : Nat) : (s.writeBits n v).cause = s.cause := rfl
@[simp] theorem writeBits_op (n v : Nat) : (s.writeBits n v).op = s.op := rfl
@[simp] theorem writeBits_stepOp (n v : Nat) : (s.writeBits n v).stepOp = s.stepOp := rfl
@[simp] theorem writeBits_errPos (n v : Nat) : (s.writeBits n v).errPos = s.errPos := rfl
@[simp] theorem writeBits_symCount (n v : Nat) : (s.writeBits n v).symCount = s.symCount := rfl
@[simp] theorem writeBits_pending (n v : Nat) : (s.writeBits n v).pending = s.pending := rfl
@[simp] theorem writeBits_inSrc (n v : Nat) : (s.writeBits n v).inSrc = s.inSrc := rfl
@[simp] theorem writeBits_inPos (n v : Nat) : (s.writeBits n v).inPos = s.inPos := rfl
@[simp] theorem writeBits_out (n v : Nat) : (s.writeBits n v).out = s.out ++ bitsOf n v := rfl
@[simp] theorem writeBits_agenda (n v : Nat) : (s.writeBits n v).agenda = s.agenda := rfl
@[simp] theorem writeBits_seen (n v : Nat) : (s.writeBits n v).seen = s.seen := rfl
@[simp] theorem writeBits_draws (n v : Nat) : (s.writeBits n v).draws = s.draws := rfl

@[simp] theorem finalize_freq : (s.finalize).freq = s.freq := rfl
@[simp] theorem finalize_node : (s.finalize).node = s.node := rfl
@[simp] theorem finalize_weight : (s.finalize).weight = s.weight := rfl
@[simp] theorem finalize_nodeCount : (s.finalize).nodeCount = s.nodeCount := rfl
@[simp] theorem finalize_leafCount : (s.finalize).leafCount = s.leafCount := rfl
@[simp] theorem finalize_root : (s.finalize).root = s.root := rfl
@[simp] theorem finalize_codeLen : (s.finalize).codeLen = s.codeLen := rfl
@[simp] theorem finalize_codeVal : (s.finalize).codeVal = s.codeVal := rfl
@[simp] theorem finalize_busy : (s.finalize).busy = s.busy := rfl
@[simp] theorem finalize_done : (s.finalize).done = s.done := rfl
@[simp] theorem finalize_err : (s.finalize).err = s.err := rfl
@[simp] theorem finalize_treeValid : (s.finalize).treeValid = s.treeValid := rfl
@[simp] theorem finalize_codesValid : (s.finalize).codesValid = s.codesValid := rfl
@[simp] theorem finalize_drop : (s.finalize).drop = s.drop := rfl
@[simp] theorem finalize_cause : (s.finalize).cause = s.cause := rfl
@[simp] theorem finalize_op : (s.finalize).op = s.op := rfl
@[simp] theorem finalize_stepOp : (s.finalize).stepOp = s.stepOp := rfl
@[simp] theorem finalize_errPos : (s.finalize).errPos = s.errPos := rfl
@[simp] theorem finalize_symCount : (s.finalize).symCount = s.symCount := rfl
@[simp] theorem finalize_pending : (s.finalize).pending = s.pending := rfl
@[simp] theorem finalize_inSrc : (s.finalize).inSrc = s.inSrc := rfl
@[simp] theorem finalize_inPos : (s.finalize).inPos = s.inPos := rfl
@[simp] theorem finalize_out : (s.finalize).out = s.out ++ List.replicate (padding s.out.length) false := rfl
@[simp] theorem finalize_agenda : (s.finalize).agenda = s.agenda := rfl
@[simp] theorem finalize_seen : (s.finalize).seen = s.seen := rfl
@[simp] theorem finalize_draws : (s.finalize).draws = s.draws := rfl

@[simp] theorem clearDone_freq : (s.clearDone).freq = s.freq := rfl
@[simp] theorem clearDone_node : (s.clearDone).node = s.node := rfl
@[simp] theorem clearDone_weight : (s.clearDone).weight = s.weight := rfl
@[simp] theorem clearDone_nodeCount : (s.clearDone).nodeCount = s.nodeCount := rfl
@[simp] theorem clearDone_leafCount : (s.clearDone).leafCount = s.leafCount := rfl
@[simp] theorem clearDone_root : (s.clearDone).root = s.root := rfl
@[simp] theorem clearDone_codeLen : (s.clearDone).codeLen = s.codeLen := rfl
@[simp] theorem clearDone_codeVal : (s.clearDone).codeVal = s.codeVal := rfl
@[simp] theorem clearDone_busy : (s.clearDone).busy = s.busy := rfl
@[simp] theorem clearDone_done : (s.clearDone).done = false := rfl
@[simp] theorem clearDone_err : (s.clearDone).err = s.err := rfl
@[simp] theorem clearDone_treeValid : (s.clearDone).treeValid = s.treeValid := rfl
@[simp] theorem clearDone_codesValid : (s.clearDone).codesValid = s.codesValid := rfl
@[simp] theorem clearDone_drop : (s.clearDone).drop = s.drop := rfl
@[simp] theorem clearDone_cause : (s.clearDone).cause = s.cause := rfl
@[simp] theorem clearDone_op : (s.clearDone).op = s.op := rfl
@[simp] theorem clearDone_stepOp : (s.clearDone).stepOp = s.stepOp := rfl
@[simp] theorem clearDone_errPos : (s.clearDone).errPos = s.errPos := rfl
@[simp] theorem clearDone_symCount : (s.clearDone).symCount = s.symCount := rfl
@[simp] theorem clearDone_pending : (s.clearDone).pending = s.pending := rfl
@[simp] theorem clearDone_inSrc : (s.clearDone).inSrc = s.inSrc := rfl
@[simp] theorem clearDone_inPos : (s.clearDone).inPos = s.inPos := rfl
@[simp] theorem clearDone_out : (s.clearDone).out = s.out := rfl
@[simp] theorem clearDone_agenda : (s.clearDone).agenda = s.agenda := rfl
@[simp] theorem clearDone_seen : (s.clearDone).seen = s.seen := rfl
@[simp] theorem clearDone_draws : (s.clearDone).draws = s.draws := rfl

@[simp] theorem clearDrop_freq : (s.clearDrop).freq = s.freq := rfl
@[simp] theorem clearDrop_node : (s.clearDrop).node = s.node := rfl
@[simp] theorem clearDrop_weight : (s.clearDrop).weight = s.weight := rfl
@[simp] theorem clearDrop_nodeCount : (s.clearDrop).nodeCount = s.nodeCount := rfl
@[simp] theorem clearDrop_leafCount : (s.clearDrop).leafCount = s.leafCount := rfl
@[simp] theorem clearDrop_root : (s.clearDrop).root = s.root := rfl
@[simp] theorem clearDrop_codeLen : (s.clearDrop).codeLen = s.codeLen := rfl
@[simp] theorem clearDrop_codeVal : (s.clearDrop).codeVal = s.codeVal := rfl
@[simp] theorem clearDrop_busy : (s.clearDrop).busy = s.busy := rfl
@[simp] theorem clearDrop_done : (s.clearDrop).done = s.done := rfl
@[simp] theorem clearDrop_err : (s.clearDrop).err = s.err := rfl
@[simp] theorem clearDrop_treeValid : (s.clearDrop).treeValid = s.treeValid := rfl
@[simp] theorem clearDrop_codesValid : (s.clearDrop).codesValid = s.codesValid := rfl
@[simp] theorem clearDrop_drop : (s.clearDrop).drop = false := rfl
@[simp] theorem clearDrop_cause : (s.clearDrop).cause = s.cause := rfl
@[simp] theorem clearDrop_op : (s.clearDrop).op = s.op := rfl
@[simp] theorem clearDrop_stepOp : (s.clearDrop).stepOp = s.stepOp := rfl
@[simp] theorem clearDrop_errPos : (s.clearDrop).errPos = s.errPos := rfl
@[simp] theorem clearDrop_symCount : (s.clearDrop).symCount = s.symCount := rfl
@[simp] theorem clearDrop_pending : (s.clearDrop).pending = s.pending := rfl
@[simp] theorem clearDrop_inSrc : (s.clearDrop).inSrc = s.inSrc := rfl
@[simp] theorem clearDrop_inPos : (s.clearDrop).inPos = s.inPos := rfl
@[simp] theorem clearDrop_out : (s.clearDrop).out = s.out := rfl
@[simp] theorem clearDrop_agenda : (s.clearDrop).agenda = s.agenda := rfl
@[simp] theorem clearDrop_seen : (s.clearDrop).seen = s.seen := rfl
@[simp] theorem clearDrop_draws : (s.clearDrop).draws = s.draws := rfl

@[simp] theorem observe_freq (o : Observation) : (s.observe o).freq = s.freq := rfl
@[simp] theorem observe_node (o : Observation) : (s.observe o).node = s.node := rfl
@[simp] theorem observe_weight (o : Observation) : (s.observe o).weight = s.weight := rfl
@[simp] theorem observe_nodeCount (o : Observation) : (s.observe o).nodeCount = s.nodeCount := rfl
@[simp] theorem observe_leafCount (o : Observation) : (s.observe o).leafCount = s.leafCount := rfl
@[simp] theorem observe_root (o : Observation) : (s.observe o).root = s.root := rfl
@[simp] theorem observe_codeLen (o : Observation) : (s.observe o).codeLen = s.codeLen := rfl
@[simp] theorem observe_codeVal (o : Observation) : (s.observe o).codeVal = s.codeVal := rfl
@[simp] theorem observe_busy (o : Observation) : (s.observe o).busy = s.busy := rfl
@[simp] theorem observe_done (o : Observation) : (s.observe o).done = s.done := rfl
@[simp] theorem observe_err (o : Observation) : (s.observe o).err = s.err := rfl
@[simp] theorem observe_treeValid (o : Observation) : (s.observe o).treeValid = s.treeValid := rfl
@[simp] theorem observe_codesValid (o : Observation) : (s.observe o).codesValid = s.codesValid := rfl
@[simp] theorem observe_drop (o : Observation) : (s.observe o).drop = s.drop := rfl
@[simp] theorem observe_cause (o : Observation) : (s.observe o).cause = s.cause := rfl
@[simp] theorem observe_op (o : Observation) : (s.observe o).op = s.op := rfl
@[simp] theorem observe_stepOp (o : Observation) : (s.observe o).stepOp = s.stepOp := rfl
@[simp] theorem observe_errPos (o : Observation) : (s.observe o).errPos = s.errPos := rfl
@[simp] theorem observe_symCount (o : Observation) : (s.observe o).symCount = s.symCount := rfl
@[simp] theorem observe_pending (o : Observation) : (s.observe o).pending = s.pending := rfl
@[simp] theorem observe_inSrc (o : Observation) : (s.observe o).inSrc = s.inSrc := rfl
@[simp] theorem observe_inPos (o : Observation) : (s.observe o).inPos = s.inPos := rfl
@[simp] theorem observe_out (o : Observation) : (s.observe o).out = s.out := rfl
@[simp] theorem observe_agenda (o : Observation) : (s.observe o).agenda = s.agenda := rfl
@[simp] theorem observe_seen (o : Observation) : (s.observe o).seen = s.seen ++ [o] := rfl
@[simp] theorem observe_draws (o : Observation) : (s.observe o).draws = s.draws := rfl

@[simp] theorem draw_freq : (s.draw).freq = s.freq := rfl
@[simp] theorem draw_node : (s.draw).node = s.node := rfl
@[simp] theorem draw_weight : (s.draw).weight = s.weight := rfl
@[simp] theorem draw_nodeCount : (s.draw).nodeCount = s.nodeCount := rfl
@[simp] theorem draw_leafCount : (s.draw).leafCount = s.leafCount := rfl
@[simp] theorem draw_root : (s.draw).root = s.root := rfl
@[simp] theorem draw_codeLen : (s.draw).codeLen = s.codeLen := rfl
@[simp] theorem draw_codeVal : (s.draw).codeVal = s.codeVal := rfl
@[simp] theorem draw_busy : (s.draw).busy = s.busy := rfl
@[simp] theorem draw_done : (s.draw).done = s.done := rfl
@[simp] theorem draw_err : (s.draw).err = s.err := rfl
@[simp] theorem draw_treeValid : (s.draw).treeValid = s.treeValid := rfl
@[simp] theorem draw_codesValid : (s.draw).codesValid = s.codesValid := rfl
@[simp] theorem draw_drop : (s.draw).drop = s.drop := rfl
@[simp] theorem draw_cause : (s.draw).cause = s.cause := rfl
@[simp] theorem draw_op : (s.draw).op = s.op := rfl
@[simp] theorem draw_stepOp : (s.draw).stepOp = s.stepOp := rfl
@[simp] theorem draw_errPos : (s.draw).errPos = s.errPos := rfl
@[simp] theorem draw_symCount : (s.draw).symCount = s.symCount := rfl
@[simp] theorem draw_pending : (s.draw).pending = s.pending := rfl
@[simp] theorem draw_inSrc : (s.draw).inSrc = s.inSrc := rfl
@[simp] theorem draw_inPos : (s.draw).inPos = s.inPos := rfl
@[simp] theorem draw_out : (s.draw).out = s.out := rfl
@[simp] theorem draw_agenda : (s.draw).agenda = s.agenda := rfl
@[simp] theorem draw_seen : (s.draw).seen = s.seen := rfl
@[simp] theorem draw_draws : (s.draw).draws = s.draws + 1 := rfl

@[simp] theorem attachIn_freq (b : Bits) : (s.attachIn b).freq = s.freq := rfl
@[simp] theorem attachIn_node (b : Bits) : (s.attachIn b).node = s.node := rfl
@[simp] theorem attachIn_weight (b : Bits) : (s.attachIn b).weight = s.weight := rfl
@[simp] theorem attachIn_nodeCount (b : Bits) : (s.attachIn b).nodeCount = s.nodeCount := rfl
@[simp] theorem attachIn_leafCount (b : Bits) : (s.attachIn b).leafCount = s.leafCount := rfl
@[simp] theorem attachIn_root (b : Bits) : (s.attachIn b).root = s.root := rfl
@[simp] theorem attachIn_codeLen (b : Bits) : (s.attachIn b).codeLen = s.codeLen := rfl
@[simp] theorem attachIn_codeVal (b : Bits) : (s.attachIn b).codeVal = s.codeVal := rfl
@[simp] theorem attachIn_busy (b : Bits) : (s.attachIn b).busy = s.busy := rfl
@[simp] theorem attachIn_done (b : Bits) : (s.attachIn b).done = s.done := rfl
@[simp] theorem attachIn_err (b : Bits) : (s.attachIn b).err = s.err := rfl
@[simp] theorem attachIn_treeValid (b : Bits) : (s.attachIn b).treeValid = s.treeValid := rfl
@[simp] theorem attachIn_codesValid (b : Bits) : (s.attachIn b).codesValid = s.codesValid := rfl
@[simp] theorem attachIn_drop (b : Bits) : (s.attachIn b).drop = s.drop := rfl
@[simp] theorem attachIn_cause (b : Bits) : (s.attachIn b).cause = s.cause := rfl
@[simp] theorem attachIn_op (b : Bits) : (s.attachIn b).op = s.op := rfl
@[simp] theorem attachIn_stepOp (b : Bits) : (s.attachIn b).stepOp = s.stepOp := rfl
@[simp] theorem attachIn_errPos (b : Bits) : (s.attachIn b).errPos = s.errPos := rfl
@[simp] theorem attachIn_symCount (b : Bits) : (s.attachIn b).symCount = s.symCount := rfl
@[simp] theorem attachIn_pending (b : Bits) : (s.attachIn b).pending = s.pending := rfl
@[simp] theorem attachIn_inSrc (b : Bits) : (s.attachIn b).inSrc = b := rfl
@[simp] theorem attachIn_inPos (b : Bits) : (s.attachIn b).inPos = 0 := rfl
@[simp] theorem attachIn_out (b : Bits) : (s.attachIn b).out = s.out := rfl
@[simp] theorem attachIn_agenda (b : Bits) : (s.attachIn b).agenda = s.agenda := rfl
@[simp] theorem attachIn_seen (b : Bits) : (s.attachIn b).seen = s.seen := rfl
@[simp] theorem attachIn_draws (b : Bits) : (s.attachIn b).draws = s.draws := rfl

@[simp] theorem attachOut_freq : (s.attachOut).freq = s.freq := rfl
@[simp] theorem attachOut_node : (s.attachOut).node = s.node := rfl
@[simp] theorem attachOut_weight : (s.attachOut).weight = s.weight := rfl
@[simp] theorem attachOut_nodeCount : (s.attachOut).nodeCount = s.nodeCount := rfl
@[simp] theorem attachOut_leafCount : (s.attachOut).leafCount = s.leafCount := rfl
@[simp] theorem attachOut_root : (s.attachOut).root = s.root := rfl
@[simp] theorem attachOut_codeLen : (s.attachOut).codeLen = s.codeLen := rfl
@[simp] theorem attachOut_codeVal : (s.attachOut).codeVal = s.codeVal := rfl
@[simp] theorem attachOut_busy : (s.attachOut).busy = s.busy := rfl
@[simp] theorem attachOut_done : (s.attachOut).done = s.done := rfl
@[simp] theorem attachOut_err : (s.attachOut).err = s.err := rfl
@[simp] theorem attachOut_treeValid : (s.attachOut).treeValid = s.treeValid := rfl
@[simp] theorem attachOut_codesValid : (s.attachOut).codesValid = s.codesValid := rfl
@[simp] theorem attachOut_drop : (s.attachOut).drop = s.drop := rfl
@[simp] theorem attachOut_cause : (s.attachOut).cause = s.cause := rfl
@[simp] theorem attachOut_op : (s.attachOut).op = s.op := rfl
@[simp] theorem attachOut_stepOp : (s.attachOut).stepOp = s.stepOp := rfl
@[simp] theorem attachOut_errPos : (s.attachOut).errPos = s.errPos := rfl
@[simp] theorem attachOut_symCount : (s.attachOut).symCount = s.symCount := rfl
@[simp] theorem attachOut_pending : (s.attachOut).pending = s.pending := rfl
@[simp] theorem attachOut_inSrc : (s.attachOut).inSrc = s.inSrc := rfl
@[simp] theorem attachOut_inPos : (s.attachOut).inPos = s.inPos := rfl
@[simp] theorem attachOut_out : (s.attachOut).out = [] := rfl
@[simp] theorem attachOut_agenda : (s.attachOut).agenda = s.agenda := rfl
@[simp] theorem attachOut_seen : (s.attachOut).seen = s.seen := rfl
@[simp] theorem attachOut_draws : (s.attachOut).draws = s.draws := rfl

@[simp] theorem popTurn_freq : (s.popTurn).freq = s.freq := rfl
@[simp] theorem popTurn_node : (s.popTurn).node = s.node := rfl
@[simp] theorem popTurn_weight : (s.popTurn).weight = s.weight := rfl
@[simp] theorem popTurn_nodeCount : (s.popTurn).nodeCount = s.nodeCount := rfl
@[simp] theorem popTurn_leafCount : (s.popTurn).leafCount = s.leafCount := rfl
@[simp] theorem popTurn_root : (s.popTurn).root = s.root := rfl
@[simp] theorem popTurn_codeLen : (s.popTurn).codeLen = s.codeLen := rfl
@[simp] theorem popTurn_codeVal : (s.popTurn).codeVal = s.codeVal := rfl
@[simp] theorem popTurn_busy : (s.popTurn).busy = s.busy := rfl
@[simp] theorem popTurn_done : (s.popTurn).done = s.done := rfl
@[simp] theorem popTurn_err : (s.popTurn).err = s.err := rfl
@[simp] theorem popTurn_treeValid : (s.popTurn).treeValid = s.treeValid := rfl
@[simp] theorem popTurn_codesValid : (s.popTurn).codesValid = s.codesValid := rfl
@[simp] theorem popTurn_drop : (s.popTurn).drop = s.drop := rfl
@[simp] theorem popTurn_cause : (s.popTurn).cause = s.cause := rfl
@[simp] theorem popTurn_op : (s.popTurn).op = s.op := rfl
@[simp] theorem popTurn_stepOp : (s.popTurn).stepOp = s.stepOp := rfl
@[simp] theorem popTurn_errPos : (s.popTurn).errPos = s.errPos := rfl
@[simp] theorem popTurn_symCount : (s.popTurn).symCount = s.symCount := rfl
@[simp] theorem popTurn_pending : (s.popTurn).pending = s.pending := rfl
@[simp] theorem popTurn_inSrc : (s.popTurn).inSrc = s.inSrc := rfl
@[simp] theorem popTurn_inPos : (s.popTurn).inPos = s.inPos := rfl
@[simp] theorem popTurn_out : (s.popTurn).out = s.out := rfl
@[simp] theorem popTurn_agenda : (s.popTurn).agenda = s.agenda.tail := rfl
@[simp] theorem popTurn_seen : (s.popTurn).seen = s.seen := rfl
@[simp] theorem popTurn_draws : (s.popTurn).draws = s.draws := rfl

@[simp] theorem succeeded_freq : (s.succeeded).freq = s.freq := rfl
@[simp] theorem succeeded_node : (s.succeeded).node = s.node := rfl
@[simp] theorem succeeded_weight : (s.succeeded).weight = s.weight := rfl
@[simp] theorem succeeded_nodeCount : (s.succeeded).nodeCount = s.nodeCount := rfl
@[simp] theorem succeeded_leafCount : (s.succeeded).leafCount = s.leafCount := rfl
@[simp] theorem succeeded_root : (s.succeeded).root = s.root := rfl
@[simp] theorem succeeded_codeLen : (s.succeeded).codeLen = s.codeLen := rfl
@[simp] theorem succeeded_codeVal : (s.succeeded).codeVal = s.codeVal := rfl
@[simp] theorem succeeded_busy : (s.succeeded).busy = false := rfl
@[simp] theorem succeeded_done : (s.succeeded).done = true := rfl
@[simp] theorem succeeded_err : (s.succeeded).err = s.err := rfl
@[simp] theorem succeeded_treeValid : (s.succeeded).treeValid = s.treeValid := rfl
@[simp] theorem succeeded_codesValid : (s.succeeded).codesValid = s.codesValid := rfl
@[simp] theorem succeeded_drop : (s.succeeded).drop = s.drop := rfl
@[simp] theorem succeeded_cause : (s.succeeded).cause = s.cause := rfl
@[simp] theorem succeeded_op : (s.succeeded).op = s.op := rfl
@[simp] theorem succeeded_stepOp : (s.succeeded).stepOp = s.stepOp := rfl
@[simp] theorem succeeded_errPos : (s.succeeded).errPos = s.errPos := rfl
@[simp] theorem succeeded_symCount : (s.succeeded).symCount = s.symCount := rfl
@[simp] theorem succeeded_pending : (s.succeeded).pending = none := rfl
@[simp] theorem succeeded_inSrc : (s.succeeded).inSrc = s.inSrc := rfl
@[simp] theorem succeeded_inPos : (s.succeeded).inPos = s.inPos := rfl
@[simp] theorem succeeded_out : (s.succeeded).out = s.out := rfl
@[simp] theorem succeeded_agenda : (s.succeeded).agenda = s.agenda := rfl
@[simp] theorem succeeded_seen : (s.succeeded).seen = s.seen := rfl
@[simp] theorem succeeded_draws : (s.succeeded).draws = s.draws := rfl

@[simp] theorem failedWith_freq (c o st : BitVec 8) : (s.failedWith c o st).freq = s.freq := rfl
@[simp] theorem failedWith_node (c o st : BitVec 8) : (s.failedWith c o st).node = s.node := rfl
@[simp] theorem failedWith_weight (c o st : BitVec 8) : (s.failedWith c o st).weight = s.weight := rfl
@[simp] theorem failedWith_nodeCount (c o st : BitVec 8) : (s.failedWith c o st).nodeCount = s.nodeCount := rfl
@[simp] theorem failedWith_leafCount (c o st : BitVec 8) : (s.failedWith c o st).leafCount = s.leafCount := rfl
@[simp] theorem failedWith_root (c o st : BitVec 8) : (s.failedWith c o st).root = s.root := rfl
@[simp] theorem failedWith_codeLen (c o st : BitVec 8) : (s.failedWith c o st).codeLen = s.codeLen := rfl
@[simp] theorem failedWith_codeVal (c o st : BitVec 8) : (s.failedWith c o st).codeVal = s.codeVal := rfl
@[simp] theorem failedWith_busy (c o st : BitVec 8) : (s.failedWith c o st).busy = false := rfl
@[simp] theorem failedWith_done (c o st : BitVec 8) : (s.failedWith c o st).done = s.done := rfl
@[simp] theorem failedWith_err (c o st : BitVec 8) : (s.failedWith c o st).err = true := rfl
@[simp] theorem failedWith_treeValid (c o st : BitVec 8) : (s.failedWith c o st).treeValid = s.treeValid := rfl
@[simp] theorem failedWith_codesValid (c o st : BitVec 8) : (s.failedWith c o st).codesValid = s.codesValid := rfl
@[simp] theorem failedWith_drop (c o st : BitVec 8) : (s.failedWith c o st).drop = s.drop := rfl
@[simp] theorem failedWith_cause (c o st : BitVec 8) : (s.failedWith c o st).cause = c := rfl
@[simp] theorem failedWith_op (c o st : BitVec 8) : (s.failedWith c o st).op = o := rfl
@[simp] theorem failedWith_stepOp (c o st : BitVec 8) : (s.failedWith c o st).stepOp = st := rfl
@[simp] theorem failedWith_errPos (c o st : BitVec 8) : (s.failedWith c o st).errPos = BitVec.ofNat 32 s.inPos := rfl
@[simp] theorem failedWith_symCount (c o st : BitVec 8) : (s.failedWith c o st).symCount = s.symCount := rfl
@[simp] theorem failedWith_pending (c o st : BitVec 8) : (s.failedWith c o st).pending = none := rfl
@[simp] theorem failedWith_inSrc (c o st : BitVec 8) : (s.failedWith c o st).inSrc = s.inSrc := rfl
@[simp] theorem failedWith_inPos (c o st : BitVec 8) : (s.failedWith c o st).inPos = s.inPos := rfl
@[simp] theorem failedWith_out (c o st : BitVec 8) : (s.failedWith c o st).out = s.out := rfl
@[simp] theorem failedWith_agenda (c o st : BitVec 8) : (s.failedWith c o st).agenda = s.agenda := rfl
@[simp] theorem failedWith_seen (c o st : BitVec 8) : (s.failedWith c o st).seen = s.seen := rfl
@[simp] theorem failedWith_draws (c o st : BitVec 8) : (s.failedWith c o st).draws = s.draws := rfl

end Sys2Proof.Machine.State
end

