-- ==== Sys2Proof/Laws/Ops.lean ====
section
/-! SUPPORT. What the shared operations of Machine/Ops.lean and Machine/Operands.lean can do, said once each. -/

namespace Sys2Proof.Machine

/-- Every state a body leaves, whether it ends well or with an error, has the property. -/
def Ran.All (P : State → Prop) : Ran → Prop
  | .ok s => P s
  | .error _ _ s => P s
  | .stuck _ => True

@[simp] theorem Ran.all_ok (P : State → Prop) (s : State) : (Ran.ok s).All P = P s := rfl
@[simp] theorem Ran.all_error (P : State → Prop) (c : Cause) (st : BitVec 8) (s : State) :
    (Ran.error c st s).All P = P s := rfl
@[simp] theorem Ran.all_stuck (P : State → Prop) (f : Fault) : (Ran.stuck f).All P = True := rfl

@[simp] theorem Ran.andThen_ok (s : State) (k : State → Ran) : (Ran.ok s).andThen k = k s := rfl
@[simp] theorem Ran.andThen_error (c : Cause) (st : BitVec 8) (s : State) (k : State → Ran) :
    (Ran.error c st s).andThen k = .error c st s := rfl
@[simp] theorem Ran.andThen_stuck (f : Fault) (k : State → Ran) : (Ran.stuck f).andThen k = .stuck f := rfl

theorem Ran.andThen_assoc (r : Ran) (k m : State → Ran) :
    (r.andThen k).andThen m = r.andThen (fun s => (k s).andThen m) := by
  cases r <;> rfl

theorem Ran.All.mono {P Q : State → Prop} {r : Ran} (h : r.All P) (hpq : ∀ s, P s → Q s) : r.All Q := by
  cases r <;> first | exact hpq _ h | trivial

/-- What holds of a body's end and is kept by what follows holds at the end. -/
theorem Ran.All.andThen {P Q : State → Prop} {r : Ran} {k : State → Ran} (h : r.All P)
    (hk : ∀ s, P s → (k s).All Q) (hq : ∀ s, P s → Q s) : (r.andThen k).All Q := by
  cases r with
  | ok s => exact hk s h
  | error c st s => exact hq s h
  | stuck f => trivial

@[simp] theorem complete_ok (o : BitVec 8) (s : State) : complete o (.ok s) = .next s.succeeded := rfl
@[simp] theorem complete_error (o : BitVec 8) (c : Cause) (st : BitVec 8) (s : State) :
    complete o (.error c st s) = .next (s.failedWith c.code o st) := rfl
@[simp] theorem complete_stuck (o : BitVec 8) (f : Fault) : complete o (.stuck f) = .fault f := rfl

/-- The next state of a completion is the body's end, marked done or with the error captured. -/
theorem complete_eq_next {o : BitVec 8} {r : Ran} {t : State} :
    complete o r = .next t ↔
      (∃ s, r = .ok s ∧ t = s.succeeded) ∨ ∃ c st s, r = .error c st s ∧ t = s.failedWith c.code o st := by
  cases r <;> simp [eq_comm]

/-- A completion is never refused. -/
theorem complete_ne_refused (o : BitVec 8) (r : Ran) (q : Refusal) : complete o r ≠ .refused q := by
  cases r <;> simp

@[simp] theorem bitsOf_zero (v : Nat) : bitsOf 0 v = [] := rfl
@[simp] theorem bitsOf_succ (n v : Nat) : bitsOf (n + 1) v = v.testBit n :: bitsOf n v := rfl
@[simp] theorem valOf_nil : valOf [] = 0 := rfl

@[simp] theorem bytesToBits_nil : bytesToBits [] = [] := rfl
@[simp] theorem bytesToBits_cons (b : Byte) (bs : List Byte) :
    bytesToBits (b :: bs) = bitsOf 8 b.toNat ++ bytesToBits bs := rfl

theorem bytesToBits_append (as bs : List Byte) : bytesToBits (as ++ bs) = bytesToBits as ++ bytesToBits bs := by
  induction as with
  | nil => rfl
  | cons a as ih => simp only [List.cons_append, bytesToBits_cons, ih, List.append_assoc]

/-- What an answered read leaves: only the position moves, and the bits were there. -/
theorem readBits_eq_some {n : Nat} {s s' : State} {v : BitVec n} (h : readBits n s = some (v, s')) :
    s' = { s with inPos := s.inPos + n } ∧ s.inPos + n ≤ s.inSrc.length
      ∧ v = BitVec.ofNat n (valOf (s.unread.take n)) := by
  unfold readBits at h
  split at h
  · cases h
  · simp only [Option.some.injEq, Prod.mk.injEq] at h
    exact ⟨h.2.symm, by omega, h.1.symm⟩

/-- EOI is answered exactly when too few bits remain. -/
theorem readBits_eq_none {n : Nat} {s : State} : readBits n s = none ↔ s.inSrc.length < s.inPos + n := by
  unfold readBits
  split <;> simp <;> omega

end Sys2Proof.Machine
end

