-- ==== Sys2Proof/Laws/Frames.lean ====
section
/-! SUPPORT. What each command's body can change: the fields its state may differ in, said once for every end. -/

namespace Sys2Proof.Machine

/-- Writes to the code table only. -/
def CodesOnly (s t : State) : Prop := ∃ codeLen codeVal, t = { s with codeLen := codeLen, codeVal := codeVal }

/-- Bits appended to the output only. -/
def OutOnly (s t : State) : Prop := ∃ b, t = { s with out := s.out ++ b }

/-- Input consumed and arena entries written only. -/
def ReadsTree (s t : State) : Prop :=
  ∃ n node weight, t = { s with inPos := s.inPos + n, node := node, weight := weight }

/-- Input consumed, bits appended to the output and symbols counted only. -/
def Recodes (s t : State) : Prop :=
  ∃ n b k, t = { s with inPos := s.inPos + n, out := s.out ++ b, symCount := k }

theorem CodesOnly.refl (s : State) : CodesOnly s s := ⟨_, _, rfl⟩
theorem CodesOnly.trans {s t u : State} : CodesOnly s t → CodesOnly t u → CodesOnly s u := by
  rintro ⟨_, _, rfl⟩ ⟨_, _, rfl⟩; exact ⟨_, _, rfl⟩

theorem OutOnly.refl (s : State) : OutOnly s s := ⟨[], by simp⟩
theorem OutOnly.trans {s t u : State} : OutOnly s t → OutOnly t u → OutOnly s u := by
  rintro ⟨b, rfl⟩ ⟨c, rfl⟩; exact ⟨b ++ c, by simp⟩

theorem ReadsTree.refl (s : State) : ReadsTree s s := ⟨0, _, _, rfl⟩
theorem ReadsTree.trans {s t u : State} : ReadsTree s t → ReadsTree t u → ReadsTree s u := by
  rintro ⟨n, _, _, rfl⟩ ⟨m, nd, w, rfl⟩; exact ⟨n + m, nd, w, by simp [Nat.add_assoc]⟩

theorem Recodes.refl (s : State) : Recodes s s := ⟨0, [], s.symCount, by simp⟩
theorem Recodes.trans {s t u : State} : Recodes s t → Recodes t u → Recodes s u := by
  rintro ⟨n, b, _, rfl⟩ ⟨m, c, k, rfl⟩; exact ⟨n + m, b ++ c, k, by simp [Nat.add_assoc]⟩

theorem walk_all (k : Nat) (i : NodeIdx) (p : Bits) (s : State) : (walk k i p s).All (CodesOnly s) := by
  induction k generalizing i p s with
  | zero => trivial
  | succ k ih =>
    unfold walk
    split
    · split
      · exact ⟨_, _, rfl⟩
      · exact .refl s
    · exact (ih _ _ s).andThen (fun t ht => (ih _ _ t).mono fun _ hu => ht.trans hu) fun _ h => h

theorem writeNode_all (k : Nat) (i : NodeIdx) (s : State) : (writeNode k i s).All (OutOnly s) := by
  induction k generalizing i s with
  | zero => trivial
  | succ k ih =>
    have bits : ∀ (t : State) (n v : Nat), OutOnly t (t.writeBits n v) := fun t n v => ⟨_, rfl⟩
    unfold writeNode
    split
    · exact ((ih _ _).mono fun _ h => (bits s 1 0).trans h).andThen
        (fun t ht => (ih _ t).mono fun _ hu => ht.trans hu) fun _ h => h
    · exact (bits s 1 1).trans (bits _ _ _)

/-- The state a node read leaves. -/
def NodeRead.state : NodeRead → State
  | .got _ _ s => s
  | .failed _ s => s

theorem readNode_state (k n : Nat) (s : State) : ReadsTree s (readNode k n s).state := by
  induction k generalizing n s with
  | zero => exact .refl s
  | succ k ih =>
    have read : ∀ {m : Nat} {t t' : State} {v : BitVec m}, readBits m t = some (v, t') → ReadsTree t t' :=
      fun h => (readBits_eq_some h).1 ▸ ⟨_, _, _, rfl⟩
    have weighed : ∀ (t : State) i w, ReadsTree t (t.setWeight i w) := fun t i w => ⟨0, _, _, rfl⟩
    have noded : ∀ (t : State) i nd, ReadsTree t (t.setNode i nd) := fun t i nd => ⟨0, _, _, rfl⟩
    unfold readNode
    split
    · exact .refl s
    · rename_i f s1 hf
      split
      · split
        · split
          · exact (read hf).trans (weighed s1 _ _)
          · rename_i v s2 hv
            have h2 := ((read hf).trans (weighed _ _ _)).trans (read hv)
            split
            · exact h2.trans (noded _ _ _)
            · exact h2
        · have h1 := (read hf).trans (weighed s1 ⟨n, ‹_›⟩ 0#32)
          split
          · rename_i c s2 hl
            exact h1.trans (by simpa [hl, NodeRead.state] using ih (n + 1) (s1.setWeight ⟨n, ‹_›⟩ 0#32))
          · rename_i l n2 s2 hl
            have h2 := h1.trans (by simpa [hl, NodeRead.state] using ih (n + 1) (s1.setWeight ⟨n, ‹_›⟩ 0#32))
            split
            · rename_i c s3 hr
              exact h2.trans (by simpa [hr, NodeRead.state] using ih n2 s2)
            · rename_i r n3 s3 hr
              exact (h2.trans (by simpa [hr, NodeRead.state] using ih n2 s2)).trans (noded _ _ _)
      · exact read hf

theorem emitCode_all (v : Symbol) (s : State) : (emitCode v s).All (Recodes s) := by
  unfold emitCode
  split
  · exact .refl s
  · exact ⟨0, _, _, rfl⟩

theorem encodeLoop_all (k : Nat) (s : State) : (encodeLoop k s).All (Recodes s) := by
  induction k generalizing s with
  | zero => exact .refl s
  | succ k ih =>
    unfold encodeLoop
    split
    · exact .refl s
    · rename_i v s1 hv
      have h1 : Recodes s s1 := ⟨8, [], s.symCount, by simp [(readBits_eq_some hv).1]⟩
      have counted : ∀ t : State, Recodes t t.countSymbol := fun t => ⟨0, [], t.symCount + 1, by simp [State.countSymbol]⟩
      exact ((emitCode_all _ s1).mono fun _ h => h1.trans h).andThen
        (fun t ht => (ih _).mono fun _ hu => (ht.trans (counted t)).trans hu) fun _ h => h

theorem decodeLoop_all (k : Nat) (pos : NodeIdx) (s : State) : (decodeLoop k pos s).All (Recodes s) := by
  induction k generalizing pos s with
  | zero => exact .refl s
  | succ k ih =>
    unfold decodeLoop
    split
    · exact .refl s
    · rename_i b s1 hb
      have h1 : Recodes s s1 := ⟨1, [], s.symCount, by simp [(readBits_eq_some hb).1]⟩
      split
      · trivial
      · split
        · exact (ih _ s1).mono fun _ h => h1.trans h
        · split
          · exact h1
          · rename_i v _ _
            have h2 : Recodes s1 (s1.writeBits Config.BYTE_BITS v.val).countSymbol := ⟨0, _, _, rfl⟩
            exact (ih _ _).mono fun _ h => (h1.trans h2).trans h

theorem runFlush_all (s : State) : (runFlush s).All (OutOnly s) := ⟨_, rfl⟩

theorem runMagicWrite_all (m : Word) (s : State) : (runMagicWrite m s).All (OutOnly s) := ⟨_, rfl⟩

theorem runHdrWrite_all (s : State) : (runHdrWrite s).All (OutOnly s) := by
  unfold runHdrWrite
  split
  · exact writeNode_all _ _ s
  · exact .refl s

/-- BUILD writes the arena, its sizes and the valid flags. -/
theorem runBuild_all (s : State) : (runBuild s).All fun t => ∃ node weight root n l v,
    t = { s with
          node := node, weight := weight, root := root, nodeCount := n, leafCount := l
          treeValid := v, codesValid := false } := by
  unfold runBuild
  generalize builtForest s = f
  generalize leafForest s = g
  generalize totalWeight s = total
  by_cases h : total > 2 ^ 32 - 1
  · rw [if_pos h]
    exact ⟨s.node, s.weight, s.root, s.nodeCount, s.leafCount, false, rfl⟩
  · rw [if_neg h]
    exact ⟨f.node, f.weight, f.pq.headD 0, f.n, g.n, true, rfl⟩

/-- GENCODES writes the code table and its valid flag. -/
theorem runGencodes_all (s : State) : (runGencodes s).All fun t => ∃ codeLen codeVal v,
    t = { s with codeLen := codeLen, codeVal := codeVal, codesValid := v } := by
  unfold runGencodes
  split
  · have h : (assignCodes s.invalidateCodes.clearCodes).All (CodesOnly s.invalidateCodes.clearCodes) := by
      unfold assignCodes
      split
      · exact ⟨_, _, rfl⟩
      · exact walk_all _ _ _ _
    exact h.andThen (fun t => by rintro ⟨_, _, rfl⟩; exact ⟨_, _, _, rfl⟩)
      (fun t => by rintro ⟨_, _, rfl⟩; exact ⟨_, _, _, rfl⟩)
  · exact ⟨_, _, _, rfl⟩

theorem runMagicRead_all (m : Word) (s : State) :
    (runMagicRead m s).All fun t => ∃ n, t = { s with inPos := s.inPos + n } := by
  unfold runMagicRead
  split
  · exact ⟨0, rfl⟩
  · rename_i v s1 hv
    have h1 := (readBits_eq_some hv).1
    split <;> exact ⟨_, h1⟩

/-- HDR_READ consumes input and writes the arena, its sizes and the valid flags. -/
theorem runHdrRead_all (s : State) : (runHdrRead s).All fun t => ∃ p node weight root n l v,
    t = { s with
          inPos := s.inPos + p, node := node, weight := weight, root := root, nodeCount := n, leafCount := l
          treeValid := v, codesValid := false } := by
  have h := readNode_state (Config.NODE_MAX + 1) 0 s.invalidate
  unfold runHdrRead
  split
  · rename_i c t ht
    rw [ht] at h
    obtain ⟨n, nd, w, rfl : t = _⟩ := h
    exact ⟨_, _, _, _, _, _, _, rfl⟩
  · rename_i r n t ht
    rw [ht] at h
    obtain ⟨n', nd, w, rfl : t = _⟩ := h
    exact ⟨_, _, _, _, _, _, _, rfl⟩

theorem runEncode_all (s : State) : (runEncode s).All (Recodes s) := by
  have h0 : Recodes s s.resetSymCount := ⟨0, [], 0, by simp [State.resetSymCount]⟩
  unfold runEncode
  split
  · exact ((encodeLoop_all _ _).mono fun _ h => h0.trans h).andThen
      (fun t ht => (emitCode_all _ t).mono fun _ hu => ht.trans hu) fun _ h => h
  · exact h0

theorem runDecode_all (s : State) : (runDecode s).All (Recodes s) := by
  have h0 : Recodes s s.resetSymCount := ⟨0, [], 0, by simp [State.resetSymCount]⟩
  unfold runDecode
  split
  · exact (decodeLoop_all _ _ _).mono fun _ h => h0.trans h
  · exact h0

end Sys2Proof.Machine
end

