-- ==== Sys2Proof/Laws/PerInstr.lean ====
section
/-! SUPPORT. Families of statements about every command, one lemma for each constructor. -/

/-- The command's word is a legal word: reserved bits zero and the command's own opcode (30 R111 to R113). -/
def Sys2Proof.Laws.CommandWord.Statement (i : Sys2Proof.Instr) : Prop :=
  i.wf = true ∧ Sys2Proof.reservedField (Sys2Proof.encode i) = 0#24
    ∧ Sys2Proof.opcodeField (Sys2Proof.encode i) = Sys2Proof.opcodeOf i
    ∧ Sys2Proof.legalWord (Sys2Proof.encode i) = true

namespace Sys2Proof.Laws.CommandWord

theorem nop : Statement .nop := ⟨rfl, rfl, rfl, rfl⟩
theorem clear : Statement .clear := ⟨rfl, rfl, rfl, rfl⟩
theorem flush : Statement .flush := ⟨rfl, rfl, rfl, rfl⟩
theorem build : Statement .build := ⟨rfl, rfl, rfl, rfl⟩
theorem gencodes : Statement .gencodes := ⟨rfl, rfl, rfl, rfl⟩
theorem magicWrite : Statement .magicWrite := ⟨rfl, rfl, rfl, rfl⟩
theorem hdrWrite : Statement .hdrWrite := ⟨rfl, rfl, rfl, rfl⟩
theorem magicRead : Statement .magicRead := ⟨rfl, rfl, rfl, rfl⟩
theorem hdrRead : Statement .hdrRead := ⟨rfl, rfl, rfl, rfl⟩
theorem encode : Statement .encode := ⟨rfl, rfl, rfl, rfl⟩
theorem decode : Statement .decode := ⟨rfl, rfl, rfl, rfl⟩
theorem compress : Statement .compress := ⟨rfl, rfl, rfl, rfl⟩
theorem decompress : Statement .decompress := ⟨rfl, rfl, rfl, rfl⟩

end Sys2Proof.Laws.CommandWord
end

