-- ==== Sys2Proof/Laws/TreeBuilder.lean ====
section
/-! SUPPORT. The two ends of BUILD, and what the operations on its forest do. -/

namespace Sys2Proof.Machine

theorem allSymbols_length : allSymbols.length = 257 := by simp [allSymbols]

@[simp] theorem allSymbols_getElem (i : Nat) (h : i < allSymbols.length) : (allSymbols[i]).val = i := by
  simp [allSymbols] at h ⊢
  omega

/-- The counts BUILD reads are `F` of every symbol in order. -/
theorem counts_eq_map_count (s : State) : s.counts = allSymbols.map s.count := by
  apply List.ext_getElem
  · simp [State.counts, allSymbols]
  · intro i h₁ h₂
    simp only [State.counts, List.length_append, List.length_map, Vector.length_toList, List.length_singleton] at h₁
    simp only [State.counts, List.getElem_map, State.count, allSymbols_getElem]
    by_cases h : i < 256
    · simp [h]
    · rw [List.getElem_append_right (by simpa using h)]
      simp [h]

theorem totalWeight_eq (s : State) : totalWeight s = (allSymbols.map s.count).sum := by
  rw [totalWeight, counts_eq_map_count]

/-- Each symbol beside its count. -/
theorem zip_counts (s : State) : allSymbols.zip s.counts = allSymbols.map fun v => (v, s.count v) := by
  rw [counts_eq_map_count, List.zip_map_right, List.zip_eq_zipWith, List.zipWith_self]
  simp

theorem runBuild_of_overflow {s : State} (h : totalWeight s > 2 ^ 32 - 1) :
    runBuild s = .error .weightOverflow (opcodeOf .build) s.invalidate := if_pos h

theorem runBuild_of_fits {s : State} (h : ¬ totalWeight s > 2 ^ 32 - 1) :
    runBuild s = .ok ({ s.invalidate with node := (builtForest s).node, weight := (builtForest s).weight }.validTree
      ((builtForest s).pq.headD 0) (builtForest s).n (leafForest s).n) := if_neg h

/-- An allocation with room takes the next free index and leaves every other entry. -/
theorem Forest.alloc_of_room {f : Forest} (nd : Node) (w : Word) (h : f.n < 513) :
    f.alloc nd w = { node := f.node.set f.n nd h, weight := f.weight.set f.n w h, n := f.n + 1
                     pq := f.pq ++ [⟨f.n, h⟩] } := dif_pos h

/-- The queue is exhausted exactly when it is empty. -/
theorem extractMin_eq_none {w : Vector Word 513} {q : List NodeIdx} : extractMin w q = none ↔ q = [] := by
  cases q with
  | nil => simp [extractMin]
  | cons x xs =>
    simp only [extractMin, reduceCtorEq, iff_false]
    split
    · simp
    · split <;> simp

/-- Extraction removes one element and keeps the others. -/
theorem extractMin_perm {w : Vector Word 513} {q : List NodeIdx} {m : NodeIdx} {rest : List NodeIdx}
    (h : extractMin w q = some (m, rest)) : q.Perm (m :: rest) := by
  induction q generalizing m rest with
  | nil => cases h
  | cons x xs ih =>
    simp only [extractMin] at h
    split at h
    · rename_i hn
      obtain rfl := extractMin_eq_none.mp hn
      cases h
      exact .refl _
    · rename_i m' rest' hs
      have hp := ih hs
      split at h
      · cases h; exact .refl _
      · cases h; exact (hp.cons x).trans (.swap m x rest')

end Sys2Proof.Machine
end

