-- ==== Sys2Proof/Laws/Trees.lean ====
section
/-! SUPPORT. The nodes of a tree in preorder, and its header as theirs. -/

namespace Sys2Proof.Machine

@[simp] theorem headerBits_nil : headerBits [] = [] := rfl
@[simp] theorem headerBits_cons (nd : Option Symbol) (nodes : List (Option Symbol)) :
    headerBits (nd :: nodes) = nodeBits nd ++ headerBits nodes := rfl
@[simp] theorem headerBits_append (as bs : List (Option Symbol)) :
    headerBits (as ++ bs) = headerBits as ++ headerBits bs := by simp [headerBits]

/-- The header is the bits of the nodes in preorder (30 R121). -/
theorem HuffTree.header_eq_headerBits (t : HuffTree) : t.header = headerBits t.nodes := by
  induction t with
  | leaf v => simp [HuffTree.header, HuffTree.nodes, nodeBits]
  | node l r ihl ihr => simp [HuffTree.header, HuffTree.nodes, nodeBits, ihl, ihr]

theorem HuffTree.preorder_eq_map_nodes (t : HuffTree) : t.preorder = t.nodes.map Option.isSome := by
  induction t with
  | leaf v => rfl
  | node l r ihl ihr => simp [HuffTree.preorder, HuffTree.nodes, ihl, ihr]

theorem HuffTree.length_nodes (t : HuffTree) : t.nodes.length = t.size := by
  induction t with
  | leaf v => rfl
  | node l r ihl ihr => simp [HuffTree.nodes, HuffTree.size, ihl, ihr]

/-- The leaves are the symbols of the nodes, in the same order. -/
theorem HuffTree.leaves_eq_filterMap_nodes (t : HuffTree) : t.leaves = t.nodes.filterMap id := by
  induction t with
  | leaf v => rfl
  | node l r ihl ihr => simp [HuffTree.leaves, HuffTree.nodes, ihl, ihr]

/-- A strictly binary tree has one internal node fewer than leaves (30 R123). -/
theorem HuffTree.size_add_one (t : HuffTree) : t.size + 1 = 2 * t.leaves.length := by
  induction t with
  | leaf v => rfl
  | node l r ihl ihr => simp only [HuffTree.size, HuffTree.leaves, List.length_append]; omega

end Sys2Proof.Machine
end

