-- ==== Sys2Proof/Tests/Slice0.lean ====
section
/-! SUPPORT. Tests against the vectors of spec/95 (each names its vector) and the encodings of spec/30, and the
witnesses: for each statement with hypotheses a state that meets them together. -/

-- One kernel check at a time: each parallel check reserves a stack of its own, and together they pass the memory limit.
set_option Elab.async false

namespace Sys2Proof.Tests

open Sys2Proof Sys2Proof.Machine

/-! Decoding (30 R112 to R114). -/

theorem test_decode_nop : decode 0b00000000000000000000000000000000#32 = .ok .nop := by rfl
theorem test_decode_clear : decode 0b00000000000000000000000000000001#32 = .ok .clear := by rfl
theorem test_decode_flush : decode 0b00000000000000000000000000000010#32 = .ok .flush := by rfl
theorem test_decode_build : decode 0b00000000000000000000000000010000#32 = .ok .build := by rfl
theorem test_decode_gencodes : decode 0b00000000000000000000000000100000#32 = .ok .gencodes := by rfl
theorem test_decode_magicWrite : decode 0b00000000000000000000000000110000#32 = .ok .magicWrite := by rfl
theorem test_decode_hdrWrite : decode 0b00000000000000000000000000110001#32 = .ok .hdrWrite := by rfl
theorem test_decode_magicRead : decode 0b00000000000000000000000000111000#32 = .ok .magicRead := by rfl
theorem test_decode_hdrRead : decode 0b00000000000000000000000000111001#32 = .ok .hdrRead := by rfl
theorem test_decode_encode : decode 0b00000000000000000000000001000000#32 = .ok .encode := by rfl
theorem test_decode_decode : decode 0b00000000000000000000000001010000#32 = .ok .decode := by rfl
theorem test_decode_compress : decode 0b00000000000000000000000001110000#32 = .ok .compress := by rfl
theorem test_decode_decompress : decode 0b00000000000000000000000001110001#32 = .ok .decompress := by rfl
theorem test_decode_unassigned : decode 0x00000003#32 = .error .unassignedOpcode := by rfl
theorem test_decode_reserved_bits : decode 0x00000110#32 = .error .reservedBits := by rfl
theorem test_table_word : decodeTableWord 32 0x71 = some .decompress := by decide +kernel

/-! Well-formedness: each check refuses an ill-formed term. -/

theorem test_wf_reserved_bits : legalWord 0x00000110#32 = false := by decide +kernel
theorem test_wf_unassigned_opcode : legalWord 0x00000003#32 = false := by decide +kernel
theorem test_wf_legal : legalWord 0x00000071#32 = true := by decide +kernel
theorem test_wf_access_width : admitted 0x0004#16 16 = false := by decide +kernel
theorem test_wf_access_alignment : admitted 0x0006#16 32 = false := by decide +kernel
theorem test_wf_access : admitted 0xA01C#16 32 = true := by decide +kernel
theorem test_wf_instr : Instr.decompress.wf = true := by rfl

/-! Small states. -/

/-- Bits written as digits, first bit first (95, notation). -/
def bin (l : List Nat) : Bits := l.map (· == 1)

/-- The state after reset with these counts and this input. -/
def start (counts : List (Fin 256 × Word)) (input : Bits) : State :=
  { State.reset with
    freq := counts.foldl (fun f c => f.set c.1.val c.2) State.reset.freq
    inSrc := input }

/-- A state whose arena holds these nodes with this root, valid (weights 0). -/
def withArena (s : State) (nodes : List Node) (root : NodeIdx) (leaves : Nat) : State :=
  { s with
    node := (nodes.zipIdx).foldl (fun a n => a.setIfInBounds n.2 n.1) s.node
    root := root, nodeCount := nodes.length, leafCount := leaves, treeValid := true }

/-- A state whose code table holds these codes, valid. -/
def withCodes (s : State) (codes : List (Symbol × Nat × Nat)) : State :=
  { codes.foldl (fun s c => s.setCode c.1 c.2.1 (BitVec.ofNat 256 c.2.2)) s with codesValid := true }

/-- The state a body leaves and its error. -/
def finish : Ran → Option (State × Option Cause)
  | .ok s => some (s, none)
  | .error c _ s => some (s, some c)
  | .stuck _ => none

/-- The next state. -/
def nextOf : Host.Outcome State Fault Refusal → Option State
  | .next s => some s
  | .fault _ => none
  | .refused _ => none

/-- STATUS, ERROR and ERR_POS. -/
def report (s : State) : Word × Word × Word := (s.statusWord, s.errorWord, s.errPos)

/-- The tree of V-B1 (95, 2.2). -/
def arenaB1 (s : State) : State := withArena s [.leaf 65, .leaf 66, .leaf 256, .internal 1 2, .internal 3 0] 4 3

/-- The codes of V-G1 (95, 2.3). -/
def codesG1 (s : State) : State := withCodes (arenaB1 s) [(65, 1, 1), (66, 2, 0), (256, 2, 1)]

/-- The header of V-H2 (95, 2.4). -/
def headerH2 : Bits := bin [0, 0, 1, 0, 0, 1, 0, 0, 0, 0, 1, 0, 1, 1, 0, 0, 0, 0, 0, 0, 0, 0, 1, 0, 0, 1, 0, 0, 0, 0, 0, 1]

/-! Control and the register window (95, 2.1). -/

/-- V-C2. -/
theorem test_nop_status : (nextOf (step (State.reset.withFetchWord 32 0x00))).map report = some (0x02, 0, 0) := by
  decide +kernel
/-- V-C3. -/
theorem test_illegal_opcode :
    (nextOf (step (State.reset.withFetchWord 32 0x03))).map report = some (0x04, 0x00030301, 0) := by decide +kernel
/-- V-C4. -/
theorem test_illegal_reserved :
    (nextOf (step (State.reset.withFetchWord 32 0x110))).map report = some (0x04, 0x00101001, 0) := by decide +kernel
/-- V-C5. -/
theorem test_nop_dropped_after_error :
    ((State.reset.capture .illegalCmd 3 3).writeReg .cmd 0).statusWord = 0x24 := by decide +kernel
/-- V-C6. -/
theorem test_near_clear_dropped :
    ((State.reset.capture .illegalCmd 3 3).writeReg .cmd 0x101).statusWord = 0x24 := by decide +kernel
/-- V-C7. -/
theorem test_clear_after_error :
    (nextOf (exec .clear (State.reset.dropped.capture .illegalCmd 3 3))).map report = some (0x02, 0, 0) := by
  decide +kernel
/-- V-C9. -/
theorem test_ack_err_keeps_drop :
    report ((State.reset.dropped.capture .illegalCmd 3 3).writeReg .status 0x4) = (0x20, 0, 0) := by decide +kernel
/-- V-C10. -/
theorem test_freq_256_ignored : (State.reset.writeReg (regAt 0x1400#16) 5).regValue (regAt 0x1400#16) = 1 := by
  decide +kernel
/-- V-C11. -/
theorem test_freq_write_reads_back :
    (State.reset.writeReg (regAt 0x1104#16) 3).regValue (regAt 0x1104#16) = 3 := by decide +kernel
/-- V-C12: the second write is dropped when it comes before the completion. -/
theorem test_second_command_dropped :
    ((State.reset.writeReg .cmd 0x10).writeReg .cmd 0x20).statusWord = 0x21 := by decide +kernel
/-- V-C13. -/
theorem test_flush_pads_71 :
    (finish (runFlush { State.reset with out := List.replicate 71 true })).map (fun r => (r.1.out.length, r.1.out.getLast?))
      = some (72, some false) := by decide +kernel
/-- V-C14. -/
theorem test_flush_aligned :
    (finish (runFlush { State.reset with out := List.replicate 72 true })).map (fun r => r.1.out.length) = some 72 := by
  decide +kernel
/-- V-C16. -/
theorem test_reserved_offset : regAt 0x0030#16 = .reserved := by decide +kernel
/-- 20 R82: the last word of the map. -/
theorem test_last_code_word : regAt 0xA01C#16 = .codeWord 256 7 := by decide +kernel
/-- V-B1's NODE_INFO words. -/
theorem test_node_info :
    [Node.leaf 65, .leaf 66, .leaf 256, .internal 1 2, .internal 3 0].map nodeInfoWord
      = [0x80000041, 0x80000042, 0x80000100, 0x00020001, 0x00000003] := by decide +kernel
/-- V-G7's CODE_WORD words of symbol 0 (43 ones and a 0). -/
theorem test_code_words :
    [0, 1, 2].map (fun k => (withCodes State.reset [(0, 44, 2 ^ 44 - 2)]).regValue (.codeWord 0 k))
      = [0xFFFFFFFE, 0x00000FFF, 0] := by decide +kernel

/-! BUILD (95, 2.2). -/

/-- V-B1. -/
theorem test_build_B1 :
    (finish (runBuild (start [(65, 3), (66, 1)] []))).map
        (fun r => (r.1.node.toList.take 5, r.1.weight.toList.take 5, r.1.root.val, r.1.nodeCount, r.1.leafCount))
      = some ([.leaf 65, .leaf 66, .leaf 256, .internal 1 2, .internal 3 0], [3, 1, 1, 2, 5], 4, 5, 3) := by
  decide +kernel
/-- V-B8. -/
theorem test_build_overflow :
    (nextOf (exec .build (start [(0, 0xFFFFFFFF)] []))).map report = some (0x04, 0x00101004, 0) := by decide +kernel

/-! GENCODES (95, 2.3). -/

/-- V-G1. -/
theorem test_gencodes_G1 :
    (finish (runGencodes (arenaB1 State.reset))).map
        (fun r => ([65, 66, 256] : List Symbol).map (fun v => (r.1.codeLen[v.val], r.1.codeVal[v.val])))
      = some [(1, 1), (2, 0), (2, 1)] := by decide +kernel
/-- V-G9. -/
theorem test_gencodes_dup :
    (nextOf (exec .gencodes { withArena State.reset [.internal 1 2, .leaf 65, .leaf 65] 0 2 with inPos := 21 })).map report
      = some (0x0C, 0x00202005, 21) := by decide +kernel

/-! The header codec (95, 2.4). -/

/-- V-H1. -/
theorem test_magic_write :
    (finish (runMagicWrite 0xFACE8201 State.reset)).map (fun r => r.1.out) = some (bytesToBits [0xFA, 0xCE, 0x82, 0x01]) := by
  decide +kernel
/-- V-H2. -/
theorem test_hdr_write :
    (finish (runHdrWrite (arenaB1 State.reset))).map (fun r => r.1.out) = some headerH2 := by decide +kernel
/-- V-H14. -/
theorem test_hdr_write_no_tree : (nextOf (exec .hdrWrite State.reset)).map report = some (0x04, 0x00313102, 0) := by
  decide +kernel
/-- V-H6. -/
theorem test_magic_read_bad :
    (nextOf (complete 0x38 (runMagicRead 0xFACE8201 (start [] (bytesToBits [0xFA, 0xCE, 0x82, 0x00]))))).map report
      = some (0x04, 0x00383810, 32) := by decide +kernel
/-- V-H7. -/
theorem test_magic_read_short :
    (nextOf (exec .magicRead (start [] (bytesToBits [0xFA, 0xCE, 0x82])))).map report = some (0x04, 0x00383811, 0) := by
  decide +kernel
/-- V-H5. -/
theorem test_hdr_read_H5 :
    (finish (runHdrRead (start [] headerH2))).map
        (fun r => (r.1.node.toList.take 5, r.1.root.val, r.1.nodeCount, r.1.leafCount, r.1.inPos))
      = some ([.internal 1 4, .internal 2 3, .leaf 66, .leaf 256, .leaf 65], 0, 5, 3, 32) := by decide +kernel
/-- V-H12. -/
theorem test_hdr_read_symbol :
    (nextOf (exec .hdrRead (start [] (bin [1, 1, 0, 0, 0, 0, 0, 0, 0, 1])))).map report = some (0x04, 0x00393912, 10) := by
  decide +kernel

/-! ENCODE and DECODE (95, 2.5 and 2.6). -/

/-- V-E1. -/
theorem test_encode_E1 :
    (finish (runEncode (codesG1 (start [] (bytesToBits [0x41, 0x41, 0x42, 0x41]))))).map
        (fun r => (r.1.out, r.1.inPos, r.1.symCount))
      = some (bin [1, 1, 0, 0, 1, 0, 1], 32, 4) := by decide +kernel
/-- V-E7. -/
theorem test_encode_E7 :
    (nextOf (exec .encode (withCodes (withArena (start [] (bytesToBits [0x41, 0x43, 0x41]))
        [.leaf 65, .leaf 256, .internal 0 1] 2 2) [(65, 1, 0), (256, 1, 1)]))).map (fun s => (report s, s.out, s.symCount))
      = some ((0x1C, 0x00404030, 16), bin [0], 1) := by decide +kernel
/-- V-D1. -/
theorem test_decode_D1 :
    (finish (runDecode (arenaB1 (start [] (bin [1, 1, 0, 0, 1, 0, 1, 0]))))).map
        (fun r => (r.1.out, r.1.inPos, r.1.symCount))
      = some (bytesToBits [0x41, 0x41, 0x42, 0x41], 7, 4) := by decide +kernel
/-- V-D3. -/
theorem test_decode_D3 :
    (nextOf (exec .decode (withArena (start [] (bin [1, 0, 1])) [.leaf 65] 0 1))).map
        (fun s => (s.errorWord, s.errPos, s.out))
      = some (0x00505020, 3, bytesToBits [0x41, 0x41, 0x41]) := by decide +kernel

/-! The composites (95, 2.7). -/

/-- V-P1, for the example marker (00 R7). -/
theorem test_compress_P1 :
    (finish (runCompress 0xFACE8201 (start [(65, 3), (66, 1)] (bytesToBits [0x41, 0x41, 0x42, 0x41])))).map
        (fun r => (r.1.out, r.1.inPos, r.1.symCount))
      = some (bytesToBits [0xFA, 0xCE, 0x82, 0x01, 0x24, 0x2C, 0x02, 0x41, 0xCA], 32, 4) := by decide +kernel
/-- V-P7. -/
theorem test_compress_overflow :
    (nextOf (exec .compress (start [(0, 0xFFFFFFFF)] []))).map (fun s => s.errorWord) = some 0x00107004 := by
  decide +kernel
/-- V-P1, the way back. -/
theorem test_decompress_P1 :
    (finish (runDecompress 0xFACE8201
        (start [] (bytesToBits [0xFA, 0xCE, 0x82, 0x01, 0x24, 0x2C, 0x02, 0x41, 0xCA])))).map
        (fun r => (r.1.out, r.1.inPos, r.1.symCount))
      = some (bytesToBits [0x41, 0x41, 0x42, 0x41], 71, 4) := by decide +kernel
/-- V-P9. -/
theorem test_decompress_truncated :
    (nextOf (complete 0x71 (runDecompress 0xFACE8201
        (start [] (bytesToBits [0xFA, 0xCE, 0x82, 0x01, 0x24, 0x2C, 0x02, 0x41]))))).map (fun s => (report s, s.out))
      = some ((0x0C, 0x00507120, 64), []) := by decide +kernel

/-! Witnesses: for each statement with hypotheses, values that meet them together, at the ends of their ranges where a
clause has a range. The name is the statement's. -/

/-- The host's next move is `a`. -/
def asks (a : HostAction) (s : State) : State := { s with agenda := [.host a] }

/-- A command runs. -/
def running : State := State.reset.accept 0x00000010#32

/-- An ILLEGAL_CMD is pending. -/
def failed : State := State.reset.capture .illegalCmd 3#8 3#8

/-- Decide over the list, not over every bit vector. -/
theorem all_of {α : Type} {p : α → Prop} [DecidablePred p] {l : List α} (h : l.all (fun x => decide (p x)) = true) :
    ∀ x ∈ l, p x := by simpa using h

theorem next_of_isSome {o : Host.Outcome State Fault Refusal} (h : (nextOf o).isSome = true) : ∃ u, o = .next u := by
  cases o with
  | next s => exact ⟨s, rfl⟩
  | fault f => cases h
  | refused r => cases h

/-! Witnesses: decoding, bits and control. -/

theorem witness_IllegalWordCompletesWithIllegalCmd :
    (State.reset.accept 0xFFFFFF71#32).turn = .engine ∧ (State.reset.accept 0xFFFFFF71#32).busy = true
      ∧ (State.reset.accept 0xFFFFFF71#32).pending = some 0xFFFFFF71#32 ∧ ∀ i, decode 0xFFFFFF71#32 ≠ .ok i :=
  ⟨rfl, rfl, rfl, fun i => by cases i <;> decide⟩

theorem witness_EngineStepRunsTheDecodedCommand :
    running.turn = .engine ∧ running.busy = true ∧ running.pending = some 0x00000010#32
      ∧ decode 0x00000010#32 = .ok .build := ⟨rfl, rfl, rfl, rfl⟩

theorem witness_ReadBitsIsAllOrNothing :
    (start [] headerH2).inPos + 33 > (start [] headerH2).inSrc.length
      ∧ (start [] headerH2).inPos + 32 ≤ (start [] headerH2).inSrc.length := by decide +kernel

theorem witness_FlushPadsToWholeBytes : ({ State.reset with out := bin [1, 0, 1, 1, 0, 0, 1, 1] } : State).out.length % 8 = 0 := by
  decide +kernel

theorem witness_ClearReturnsToACleanState :
    (asks (.regWrite 0x0000#16 32 0x00000001#32) failed).busy = false
      ∧ (asks (.regWrite 0x0000#16 32 0x00000001#32) failed).turn = .host (.regWrite 0x0000#16 32 0x00000001#32)
      ∧ (∀ w ∈ [0x00000000#32, 0x00000002#32, 0x00000101#32],
          (asks (.regWrite 0x0000#16 32 w) failed).busy = false ∧ (asks (.regWrite 0x0000#16 32 w) failed).err = true
            ∧ w ≠ 0x00000001#32
            ∧ (asks (.regWrite 0x0000#16 32 w) failed).turn = .host (.regWrite 0x0000#16 32 w))
      ∧ (State.reset.accept 0x00000101#32).turn = .engine ∧ (State.reset.accept 0x00000101#32).busy = true
      ∧ (State.reset.accept 0x00000101#32).pending = some 0x00000101#32 :=
  ⟨rfl, rfl, all_of (by decide +kernel), rfl, rfl, rfl⟩

theorem witness_OpcodeMapDecodesAndEncodes : Sys2Proof.decode 0x00000071#32 = .ok .decompress := rfl

theorem witness_FieldsAreBigEndian : 8 < 9 := by decide

/-! Witnesses: register accesses and stream moves. -/

theorem witness_CmdWriteIsAcceptedOrDropped :
    (∀ w ∈ [0x00000000#32, 0x00000002#32, 0xFFFFFFFF#32],
        (asks (.regWrite 0x0000#16 32 w) failed).turn = .host (.regWrite 0x0000#16 32 w)
          ∧ (asks (.regWrite 0x0000#16 32 w) failed).busy = false ∧ (asks (.regWrite 0x0000#16 32 w) failed).err = true
          ∧ w ≠ 0x00000001#32)
      ∧ (asks (.regWrite 0x0000#16 32 0x71#32) State.reset).err = false
      ∧ (asks (.regWrite 0x0000#16 32 0x71#32) State.reset).busy = false :=
  ⟨all_of (by decide +kernel), rfl, rfl⟩

theorem witness_WritesWhileBusyOnlySetDrop :
    ∀ off ∈ [0x0000#16, 0x0004#16, 0x1000#16, 0xFFFC#16],
      (asks (.regWrite off 32 1#32) running).turn = .host (.regWrite off 32 1#32) ∧ off.toNat % 4 = 0
        ∧ (asks (.regWrite off 32 1#32) running).busy = true := all_of (by decide +kernel)

theorem witness_UnadmittedAccessIsRefused :
    ∀ a ∈ [(0x0000#16, 8), (0x0004#16, 64), (0x0001#16, 32), (0xFFFF#16, 32)],
      (a.2 ≠ 32 ∨ a.1.toNat % 4 ≠ 0) ∧ (asks (.regRead a.1 a.2) State.reset).turn = .host (.regRead a.1 a.2)
        ∧ (asks (.regWrite a.1 a.2 0#32) State.reset).turn = .host (.regWrite a.1 a.2 0#32) := all_of (by decide +kernel)

theorem witness_StatusWriteClearsByOnes :
    (asks (.regWrite 0x0004#16 32 0x26#32) failed).turn = .host (.regWrite 0x0004#16 32 0x26#32)
      ∧ (asks (.regWrite 0x0004#16 32 0x26#32) failed).busy = false := ⟨rfl, rfl⟩

theorem witness_FreqWriteStoresTheCount :
    ∀ v ∈ ([0, 255, 256] : List Symbol),
      (asks (.regWrite (BitVec.ofNat 16 (0x1000 + 4 * v.val)) 32 0xFFFFFFFF#32) State.reset).turn
          = .host (.regWrite (BitVec.ofNat 16 (0x1000 + 4 * v.val)) 32 0xFFFFFFFF#32)
        ∧ (asks (.regWrite (BitVec.ofNat 16 (0x1000 + 4 * v.val)) 32 0xFFFFFFFF#32) State.reset).busy = false := all_of (by decide +kernel)

theorem witness_ReservedAndReadOnlyWritesAreIgnored :
    (∀ off ∈ [0x0008#16, 0x0028#16, 0x002C#16, 0x0FFC#16, 0x1400#16, 0x2000#16, 0xA01C#16, 0xFFFC#16],
        (asks (.regWrite off 32 1#32) State.reset).turn = .host (.regWrite off 32 1#32)
          ∧ (asks (.regWrite off 32 1#32) State.reset).busy = false ∧ off.toNat % 4 = 0 ∧ 4 < off.toNat
          ∧ (off.toNat < 0x1000 ∨ 0x1400 ≤ off.toNat))
      ∧ (∀ off ∈ [0x002C#16, 0x0FFC#16, 0x1404#16, 0x1FFC#16, 0x2804#16, 0x2FFC#16, 0x3804#16, 0x3FFC#16, 0x4404#16,
            0x7FFC#16, 0xA020#16, 0xFFFC#16],
          (asks (.regRead off 32) State.reset).turn = .host (.regRead off 32) ∧ off.toNat % 4 = 0
            ∧ (0x0028 < off.toNat ∧ off.toNat < 0x1000 ∨ 0x1400 < off.toNat ∧ off.toNat < 0x2000
              ∨ 0x2800 < off.toNat ∧ off.toNat < 0x3000 ∨ 0x3800 < off.toNat ∧ off.toNat < 0x4000
              ∨ 0x4400 < off.toNat ∧ off.toNat < 0x8000 ∨ 0xA01C < off.toNat))
      ∧ State.reset.busy = false :=
  ⟨all_of (by decide +kernel), all_of (by decide +kernel), rfl⟩

theorem witness_StatusAndErrorReadTheirFields :
    ∀ off ∈ [0x0004#16, 0x0008#16, 0x000C#16], (asks (.regRead off 32) failed).turn = .host (.regRead off 32) := all_of (by decide +kernel)

/-- The one-leaf tree in arena entry 512, and its code. -/
def lastEntry : State :=
  { State.reset with
    node := State.reset.node.set 512 (.leaf 256), nodeCount := 513, treeValid := true, codesValid := true
    codeLen := State.reset.codeLen.set 256 1 }

theorem witness_ArenaAndCodeReadsAreMasked :
    (∀ i ∈ ([0, 512] : List NodeIdx),
        (asks (.regRead (BitVec.ofNat 16 (0x2000 + 4 * i.val)) 32) lastEntry).turn
            = .host (.regRead (BitVec.ofNat 16 (0x2000 + 4 * i.val)) 32)
          ∧ (asks (.regRead (BitVec.ofNat 16 (0x3000 + 4 * i.val)) 32) lastEntry).turn
            = .host (.regRead (BitVec.ofNat 16 (0x3000 + 4 * i.val)) 32))
      ∧ (∀ v ∈ ([0, 256] : List Symbol), ∀ k ∈ ([0, 7] : List (Fin 8)),
          (asks (.regRead (BitVec.ofNat 16 (0x4000 + 4 * v.val)) 32) lastEntry).turn
              = .host (.regRead (BitVec.ofNat 16 (0x4000 + 4 * v.val)) 32)
            ∧ (asks (.regRead (BitVec.ofNat 16 (0x8000 + 32 * v.val + 4 * k.val)) 32) lastEntry).turn
              = .host (.regRead (BitVec.ofNat 16 (0x8000 + 32 * v.val + 4 * k.val)) 32))
      ∧ lastEntry.busy = false ∧ lastEntry.treeValid = true ∧ 512 < lastEntry.nodeCount ∧ lastEntry.codesValid = true
      ∧ State.reset.treeValid = false ∧ State.reset.codesValid = false
      ∧ (arenaB1 State.reset).nodeCount ≤ 5 ∧ (arenaB1 State.reset).node[3] = Node.internal 1 2
      ∧ lastEntry.node[512] = Node.leaf 256 := by
  refine ⟨?_, ?_, rfl, rfl, ?_, rfl, rfl, rfl, ?_, ?_, ?_⟩ <;> decide +kernel

theorem witness_CounterReadsShowTheirState :
    State.reset.busy = false
      ∧ ∀ off ∈ [0x0000#16, 0xFFFC#16], off.toNat % 4 = 0
          ∧ (asks (.regRead off 32) State.reset).busy = false
          ∧ (asks (.regRead off 32) State.reset).turn = .host (.regRead off 32) :=
  ⟨rfl, all_of (by decide +kernel)⟩

theorem witness_VolatileReadsWhileBusyAreFree :
    (∀ off ∈ [0x0014#16, 0x0028#16, 0x2000#16, 0x2800#16, 0x3000#16, 0x3800#16, 0x4000#16, 0x4400#16, 0x8000#16, 0xA01C#16],
        (asks (.regRead off 32) running).turn = .host (.regRead off 32) ∧ off.toNat % 4 = 0
          ∧ (asks (.regRead off 32) running).busy = true
          ∧ (0x0014 ≤ off.toNat ∧ off.toNat ≤ 0x0028 ∨ 0x2000 ≤ off.toNat ∧ off.toNat ≤ 0x2800
            ∨ 0x3000 ≤ off.toNat ∧ off.toNat ≤ 0x3800 ∨ 0x4000 ≤ off.toNat ∧ off.toNat ≤ 0x4400
            ∨ 0x8000 ≤ off.toNat ∧ off.toNat ≤ 0xA01C))
      ∧ (∀ off ∈ [0x0004#16, 0x0010#16, 0x1000#16, 0x1400#16],
          (asks (.regRead off 32) running).turn = .host (.regRead off 32) ∧ off.toNat % 4 = 0
            ∧ (asks (.regRead off 32) running).busy = true
            ∧ (0x0004 ≤ off.toNat ∧ off.toNat ≤ 0x0010 ∨ 0x1000 ≤ off.toNat ∧ off.toNat ≤ 0x1400))
      ∧ (asks (.regRead 0x0000#16 32) running).turn = .host (.regRead 0x0000#16 32)
      ∧ (asks (.regRead 0x0000#16 32) running).busy = true :=
  ⟨all_of (by decide +kernel), all_of (by decide +kernel), rfl, rfl⟩

theorem witness_ReadsHaveNoSideEffect :
    (∀ off ∈ [0x0000#16, 0xFFFC#16], (asks (.regRead off 32) State.reset).turn = .host (.regRead off 32)
        ∧ off.toNat % 4 = 0 ∧ (asks (.regRead off 32) State.reset).busy = false)
      ∧ ∀ off ∈ [0x0000#16, 0x0004#16, 0x0010#16, 0x1000#16, 0x1400#16, 0xFFFC#16],
          (asks (.regRead off 32) running).turn = .host (.regRead off 32) ∧ off.toNat % 4 = 0
            ∧ (regAt off).volatile = false :=
  ⟨all_of (by decide +kernel), all_of (by decide +kernel)⟩

theorem witness_StreamsAttachOnlyWhileIdle :
    ∀ s ∈ [State.reset, running],
      (asks (.attachIn headerH2) s).turn = .host (.attachIn headerH2) ∧ (asks .attachOut s).turn = .host .attachOut
        ∧ (asks .takeOut s).turn = .host .takeOut ∧ (asks .takeOut s).busy = s.busy := all_of (by decide +kernel)

theorem witness_ResetGivesTheStatedValues : (asks .reset running).turn = .host .reset := rfl

/-! Witnesses: the invariant, on states without a tree and on the state of V-G1. -/

theorem inv_of_noTree (s : State) (h1 : s.treeValid = false) (h2 : s.codesValid = false)
    (hb : s.busy = s.pending.isSome) (hd : s.done = true → s.busy = false ∧ s.err = false)
    (he : s.busy = true → s.err = true → s.pending = some 0x00000001#32)
    (hc : s.err = false → s.cause = 0#8 ∧ s.op = 0#8 ∧ s.stepOp = 0#8 ∧ s.errPos = 0#32)
    (hk : s.err = true → ∃ c : Cause, s.cause = c.code) (hp : s.inPos ≤ s.inSrc.length) (hn : s.nodeCount ≤ 513)
    (hl : s.leafCount ≤ 257) (hv : s.codeLen = Vector.replicate 257 0) : s.Inv :=
  ⟨hb, hd, he, hc, hk, hp, hn, hl, by simp [hv], by simp [h2], by simp [h1], by simp [h2]⟩

theorem running_inv : running.Inv :=
  inv_of_noTree _ rfl rfl rfl (by decide +kernel) (by decide +kernel) (by decide +kernel) nofun (by decide +kernel)
    (by decide +kernel) (by decide +kernel) rfl

theorem failed_inv : failed.Inv :=
  inv_of_noTree _ rfl rfl rfl (by decide +kernel) (by decide +kernel) (by decide +kernel) (fun _ => ⟨.illegalCmd, rfl⟩)
    (by decide +kernel) (by decide +kernel) (by decide +kernel) rfl

/-- The tree of V-B1. -/
def treeB1 : HuffTree := .node (.node (.leaf 66) (.leaf 256)) (.leaf 65)

theorem arenaB1_represents : Represents (arenaB1 State.reset).node 4 treeB1 [4, 3, 1, 2, 0] :=
  .node 4 3 0 _ _ [3, 1, 2] [0] (by decide +kernel)
    (.node 3 1 2 _ _ [1] [2] (by decide +kernel) (.leaf 1 66 (by decide +kernel)) (.leaf 2 256 (by decide +kernel)))
    (.leaf 0 65 (by decide +kernel))

theorem arenaB1_holds : (arenaB1 State.reset).HoldsTree treeB1 :=
  ⟨[4, 3, 1, 2, 0], arenaB1_represents, by decide +kernel, by decide +kernel, by decide +kernel⟩

theorem codesG1_holdsCodes : (codesG1 State.reset).HoldsCodes treeB1 := by
  refine ⟨by decide +kernel, ?_, ?_⟩
  case refine_2 =>
    intro v h
    have h65 : ¬ 65 = v.val := fun e => h ((Fin.ext e.symm : v = 65) ▸ by decide +kernel)
    have h66 : ¬ 66 = v.val := fun e => h ((Fin.ext e.symm : v = 66) ▸ by decide +kernel)
    have h256 : ¬ 256 = v.val := fun e => h ((Fin.ext e.symm : v = 256) ▸ by decide +kernel)
    simp [codesG1, withCodes, State.setCode, arenaB1, withArena, State.reset, h65, h66, h256]
  intro v p h
  simp only [treeB1, HuffTree.codes, HuffTree.paths, List.nil_append, List.cons_append, List.mem_cons, Prod.mk.injEq,
    List.not_mem_nil, or_false] at h
  obtain ⟨rfl, rfl⟩ | ⟨rfl, rfl⟩ | ⟨rfl, rfl⟩ := h <;> decide +kernel

theorem codesG1_holdsTree : (codesG1 State.reset).HoldsTree treeB1 := arenaB1_holds

theorem codesG1_inv : (codesG1 State.reset).Inv := by
  refine ⟨rfl, by decide +kernel, by decide +kernel, by decide +kernel, nofun, by decide +kernel, by decide +kernel,
    by decide +kernel, ?_, fun _ => rfl, fun _ => ⟨_, codesG1_holdsTree⟩,
    fun _ => ⟨_, codesG1_holdsTree, codesG1_holdsCodes⟩⟩
  intro v
  simp only [codesG1, withCodes, List.foldl, State.setCode, arenaB1, withArena, State.reset, Vector.getElem_set,
    Vector.getElem_replicate]
  split_ifs <;> omega

theorem witness_PendingErrorIsSticky :
    (asks (.regWrite 0x0000#16 32 0x00#32) failed).err = true ∧ (asks (.regWrite 0x0000#16 32 0x00#32) failed).busy = false
      ∧ (asks (.regWrite 0x0000#16 32 0x00#32) failed).turn = .host (.regWrite 0x0000#16 32 0x00#32)
      ∧ failed.Inv ∧ failed.err = true ∧ ∃ t, step failed = .next t ∧ t.err = true :=
  ⟨rfl, rfl, rfl, failed_inv, rfl, failed, rfl, rfl⟩

theorem witness_StepKeepsTheInvariant :
    (codesG1 State.reset).Inv ∧ ∃ t, step (codesG1 State.reset) = .next t := ⟨codesG1_inv, _, rfl⟩

theorem witness_EveryCommandEnds : (codesG1 State.reset).Inv := codesG1_inv

/-- A command runs while the host polls STATUS twice and writes CMD once. -/
def polled : State := { running with agenda := rd 0x0004#16 ++ wr 0x0000#16 0#32 ++ rd 0x0004#16 }

theorem witness_BusyMachineCompletes : polled.Inv ∧ polled.busy = true ∧ ∀ x ∈ polled.agenda, x.waits = true :=
  ⟨inv_of_noTree _ rfl rfl rfl (by decide +kernel) (by decide +kernel) (by decide +kernel) nofun (by decide +kernel)
    (by decide +kernel) (by decide +kernel) rfl, rfl, by decide +kernel⟩

theorem witness_ValidFlagsRiseOnlyByTheirCommands :
    (∃ t, step running = .next t ∧ running.treeValid = false ∧ t.treeValid = true)
      ∧ ∃ t, step ((arenaB1 State.reset).accept 0x00000020#32) = .next t
        ∧ ((arenaB1 State.reset).accept 0x00000020#32).codesValid = false ∧ t.codesValid = true := by
  have h1 : (nextOf (step running)).map (·.treeValid) = some true := by decide +kernel
  have h2 : (nextOf (step ((arenaB1 State.reset).accept 0x00000020#32))).map (·.codesValid) = some true := by
    decide +kernel
  constructor
  · cases h : step running with
    | next t => rw [h] at h1; exact ⟨t, rfl, rfl, by simpa [nextOf] using h1⟩
    | fault f => rw [h] at h1; cases h1
    | refused r => rw [h] at h1; cases h1
  · cases h : step ((arenaB1 State.reset).accept 0x00000020#32) with
    | next t => rw [h] at h2; exact ⟨t, rfl, rfl, by simpa [nextOf] using h2⟩
    | fault f => rw [h] at h2; cases h2
    | refused r => rw [h] at h2; cases h2

theorem witness_StreamsOnlyAdvance :
    (∃ t, step running = .next t) ∧ running.turn ≠ .host .reset ∧ (∀ b, running.turn ≠ .host (.attachIn b))
      ∧ running.turn ≠ .host .attachOut := ⟨next_of_isSome (by decide +kernel), nofun, nofun, nofun⟩

theorem witness_OnlyTheHostAndClearChangeTheCounts :
    (∃ t, step (asks (.regWrite 0x13FC#16 32 7#32) State.reset) = .next t
        ∧ t.freq ≠ (asks (.regWrite 0x13FC#16 32 7#32) State.reset).freq)
      ∧ ∃ t, step ((start [(65, 3)] []).accept 0x00000001#32) = .next t
        ∧ t.freq ≠ ((start [(65, 3)] []).accept 0x00000001#32).freq :=
  ⟨⟨_, rfl, fun h => absurd (congrArg (fun f => f[255]) h) (by decide +kernel)⟩,
    ⟨_, rfl, fun h => absurd (congrArg (fun f => f[65]) h) (by decide +kernel)⟩⟩

/-- A state that differs from `running` in the arena's masked contents. -/
def runningDirty : State := running.setNode 512 (.internal 3 4)

theorem witness_MaskedStorageIsNeverObserved :
    running.Inv ∧ runningDirty.Inv ∧ SameButMasked running runningDirty ∧ running ≠ runningDirty :=
  ⟨running_inv,
    inv_of_noTree _ rfl rfl rfl (by decide +kernel) (by decide +kernel) (by decide +kernel) nofun (by decide +kernel)
      (by decide +kernel) (by decide +kernel) rfl,
    ⟨rfl, nofun, nofun⟩, fun h => absurd (congrArg (fun s => s.node[512]) h) (by decide +kernel)⟩

/-! Witnesses: BUILD and GENCODES. -/

/-- The counts of V-B1. -/
def countsB1 : State := start [(65, 3), (66, 1)] []

theorem countsB1_total : (allSymbols.map countsB1.count).sum ≤ 2 ^ 32 - 1 := by decide +kernel

theorem countsB1_builds : ∃ u, exec .build countsB1 = .next u := next_of_isSome (by decide +kernel)

theorem witness_BuildRejectsAnOverflowingTotal :
    (allSymbols.map (start [(0, 0xFFFFFFFF)] []).count).sum > 2 ^ 32 - 1 := by decide +kernel

/-- The largest total that does not overflow. -/
theorem witness_BuildCompletesWithItsSizes :
    (allSymbols.map (start [(0, 0xFFFFFFFE)] []).count).sum ≤ 2 ^ 32 - 1 := by decide +kernel

theorem witness_BuildMergesTheTwoLeastKeys :
    (allSymbols.map countsB1.count).sum ≤ 2 ^ 32 - 1
      ∧ ∃ u, exec .build countsB1 = .next u ∧ ∃ j : NodeIdx, countsB1.live.length ≤ j.val ∧ j.val < u.nodeCount := by
  refine ⟨countsB1_total, ?_⟩
  have h : (nextOf (exec .build countsB1)).map (fun u => decide (countsB1.live.length ≤ 4 ∧ 4 < u.nodeCount)) = some true := by
    decide +kernel
  obtain ⟨u, hu⟩ := countsB1_builds
  rw [hu] at h
  exact ⟨u, hu, 4, by simpa [nextOf] using h⟩

theorem witness_BuildLeavesAValidTree :
    (allSymbols.map countsB1.count).sum ≤ 2 ^ 32 - 1 ∧ ∃ u, exec .build countsB1 = .next u :=
  ⟨countsB1_total, countsB1_builds⟩

theorem witness_BuildDependsOnTheCountsAlone :
    countsB1.freq = (countsB1.setNode 0 (.internal 7 8)).freq ∧ (allSymbols.map countsB1.count).sum ≤ 2 ^ 32 - 1
      ∧ (∃ u, exec .build countsB1 = .next u) ∧ ∃ u, exec .build (countsB1.setNode 0 (.internal 7 8)) = .next u :=
  ⟨rfl, countsB1_total, countsB1_builds, next_of_isSome (by decide +kernel)⟩

theorem witness_BuildHandlesTheSmallestInputs :
    (∀ v : Symbol, v.val < 256 → State.reset.count v = 0)
      ∧ 0 < (start [(255, 0xFFFFFFFE)] []).count 255 ∧ (start [(255, 0xFFFFFFFE)] []).count 255 ≤ 2 ^ 32 - 2
      ∧ ∀ v : Symbol, v.val < 256 → v ≠ 255 → (start [(255, 0xFFFFFFFE)] []).count v = 0 := by decide +kernel

theorem witness_BuildTreeIsOptimal :
    (allSymbols.map countsB1.count).sum ≤ 2 ^ 32 - 1
      ∧ ∃ u t, exec .build countsB1 = .next u ∧ u.HoldsTree t
        ∧ (HuffTree.node (.leaf 65) (.node (.leaf 66) (.leaf 256))).leaves.Perm t.leaves := by
  refine ⟨countsB1_total, ?_⟩
  have h : (nextOf (exec .build countsB1)).map
      (fun u => (u.root, u.nodeCount, u.leafCount, [u.node[0], u.node[1], u.node[2], u.node[3], u.node[4]]))
      = some (4, 5, 3, [.leaf 65, .leaf 66, .leaf 256, .internal 1 2, .internal 3 0]) := by decide +kernel
  obtain ⟨u, hu⟩ := countsB1_builds
  rw [hu] at h
  simp only [nextOf, Option.map_some, Option.some.injEq, Prod.mk.injEq, List.cons.injEq, and_true] at h
  obtain ⟨hr, hn, hl, h0, h1, h2, h3, h4⟩ := h
  refine ⟨u, treeB1, hu, ⟨[4, 3, 1, 2, 0], ?_, by decide, ?_, by rw [hl]; rfl⟩, by decide⟩
  · rw [hr]
    exact .node 4 3 0 _ _ [3, 1, 2] [0] h4 (.node 3 1 2 _ _ [1] [2] h3 (.leaf 1 66 h1) (.leaf 2 256 h2)) (.leaf 0 65 h0)
  · rw [hn]; decide +kernel

theorem witness_GencodesAssignsEachLeafItsPath :
    (arenaB1 State.reset).treeValid = true ∧ (arenaB1 State.reset).HoldsTree treeB1 ∧ treeB1.leaves.Nodup :=
  ⟨rfl, arenaB1_holds, by decide +kernel⟩

theorem witness_MissingTreeOrCodesIsReported : State.reset.treeValid = false ∧ State.reset.codesValid = false := ⟨rfl, rfl⟩

/-- The arena of V-G9. -/
def arenaG9 : State := withArena State.reset [.internal 1 2, .leaf 65, .leaf 65] 0 2

theorem witness_GencodesReportsARepeatedLeaf :
    arenaG9.treeValid = true ∧ arenaG9.HoldsTree (.node (.leaf 65) (.leaf 65))
      ∧ ¬ (HuffTree.node (.leaf 65) (.leaf 65)).leaves.Nodup :=
  ⟨rfl,
    ⟨[0, 1, 2],
      .node 0 1 2 _ _ [1] [2] (by decide +kernel) (.leaf 1 65 (by decide +kernel)) (.leaf 2 65 (by decide +kernel)),
      by decide +kernel, by decide +kernel, by decide +kernel⟩,
    by decide +kernel⟩

theorem witness_ValidCodesArePrefixFree :
    ((arenaB1 State.reset).treeValid = true ∧ (arenaB1 State.reset).HoldsTree treeB1
        ∧ ∃ u, exec .gencodes (arenaB1 State.reset) = .next u ∧ u.codesValid = true ∧ (65 : Symbol) ≠ 256
          ∧ u.codeLen[65] ≠ 0 ∧ u.codeLen[256] ≠ 0)
      ∧ (codesG1 State.reset).Inv ∧ (codesG1 State.reset).codesValid = true ∧ (65 : Symbol) ≠ 256
      ∧ (codesG1 State.reset).codeLen[(65 : Symbol).val] ≠ 0 ∧ (codesG1 State.reset).codeLen[(256 : Symbol).val] ≠ 0 := by
  refine ⟨⟨rfl, arenaB1_holds, ?_⟩, codesG1_inv, rfl, by decide +kernel, by decide +kernel, by decide +kernel⟩
  have h : (nextOf (exec .gencodes (arenaB1 State.reset))).map (fun u => (u.codesValid, u.codeLen[65], u.codeLen[256]))
      = some (true, 1, 2) := by decide +kernel
  obtain ⟨u, hu⟩ := next_of_isSome (o := exec .gencodes (arenaB1 State.reset)) (by decide +kernel)
  rw [hu] at h
  simp only [nextOf, Option.map_some, Option.some.injEq, Prod.mk.injEq] at h
  exact ⟨u, hu, h.1, by decide, by rw [h.2.1]; decide, by rw [h.2.2]; decide⟩

/-! Witnesses: the header codec. -/

theorem witness_HdrWriteAppendsTheHeader :
    (arenaB1 State.reset).treeValid = true ∧ (arenaB1 State.reset).HoldsTree treeB1 ∧ State.reset.treeValid = false :=
  ⟨rfl, arenaB1_holds, rfl⟩

/-- 32 bits that differ from the marker in the first bit. -/
def otherMarker : Bits := (bitsOf 32 Config.MAGIC.toNat).map (!·)

theorem witness_MagicReadChecksTheMarker :
    (start [] (bitsOf 32 Config.MAGIC.toNat)).unread.take 32 = bitsOf 32 Config.MAGIC.toNat
      ∧ (start [] (List.replicate 31 true)).unread.length < 32
      ∧ 32 ≤ (start [] otherMarker).unread.length
      ∧ (start [] otherMarker).unread.take 32 ≠ bitsOf 32 Config.MAGIC.toNat := by
  refine ⟨rfl, by decide +kernel, Nat.le_refl 32, ?_⟩
  intro h
  have h0 := congrArg List.head? h
  simp [start, otherMarker, State.unread, State.reset, bitsOf] at h0

theorem witness_HdrReadRebuildsTheTree :
    (start [] (treeB1.header ++ bin [1, 1, 0])).unread = treeB1.header ++ bin [1, 1, 0] ∧ treeB1.size ≤ 513 :=
  ⟨rfl, by decide +kernel⟩

/-- A tree of `2 n + 1` nodes. -/
def comb : Nat → HuffTree
  | 0 => .leaf 256
  | n + 1 => .node (.leaf 0) (comb n)

/-- The nodes of `treeB1` before its third leaf. -/
def beforeLast : List (Option Symbol) := [none, none, some 66, some 256]

/-- Per clause: nothing read, 4 nodes read, and 513 or 512 nodes read; a field cut at 0 and at 8 bits; the fields 257
and 511. -/
theorem witness_HdrReadReportsATruncatedOrBadHeader :
    (treeB1.nodes = [] ++ none :: [none, some 66, some 256, some 65] ∧ (start [] []).unread = headerBits []
        ∧ treeB1.nodes = beforeLast ++ some 65 :: [] ∧ beforeLast.length ≤ 513
        ∧ (start [] (headerBits beforeLast)).unread = headerBits beforeLast
        ∧ (comb 257).nodes = (comb 257).nodes.take 513 ++ some 0 :: [some 256] ∧ ((comb 257).nodes.take 513).length ≤ 513
        ∧ (start [] (headerBits ((comb 257).nodes.take 513))).unread = headerBits ((comb 257).nodes.take 513))
      ∧ ((comb 256).nodes = (comb 256).nodes.take 512 ++ some 256 :: [] ∧ ((comb 256).nodes.take 512).length < 513
        ∧ (List.replicate 8 true).length < 9 ∧ ([] : Bits).length < 9
        ∧ (start [] (headerBits beforeLast ++ true :: [])).unread = headerBits beforeLast ++ true :: []
        ∧ (start [] (headerBits ((comb 256).nodes.take 512) ++ true :: List.replicate 8 true)).unread
          = headerBits ((comb 256).nodes.take 512) ++ true :: List.replicate 8 true)
      ∧ (257 ≤ 257 ∧ 511 ≤ 511
        ∧ (start [] (headerBits beforeLast ++ true :: bitsOf 9 257 ++ bin [1])).unread
          = headerBits beforeLast ++ true :: bitsOf 9 257 ++ bin [1]
        ∧ (start [] (headerBits ((comb 256).nodes.take 512) ++ true :: bitsOf 9 511 ++ [])).unread
          = headerBits ((comb 256).nodes.take 512) ++ true :: bitsOf 9 511 ++ []) := by
  refine ⟨⟨rfl, rfl, rfl, by decide +kernel, rfl, by decide +kernel, by decide +kernel, rfl⟩, ⟨by decide +kernel,
    by decide +kernel, by decide +kernel, by decide +kernel, rfl, rfl⟩, by decide +kernel, by decide +kernel, rfl, rfl⟩

theorem witness_HdrReadReportsAnOversizedHeader :
    513 < (comb 257).size
      ∧ (comb 257).header.take (514 + 9 * ((comb 257).preorder.take 513).countP id)
        <+: (start [] (comb 257).header).unread :=
  ⟨by decide +kernel, List.take_prefix _ _⟩

theorem witness_HdrReadSucceedsExactlyOnHeaders : (start [] headerH2).err = false := rfl

theorem witness_HeaderRoundTripKeepsTheTree :
    (arenaB1 State.reset).treeValid = true ∧ (arenaB1 State.reset).HoldsTree treeB1 ∧ treeB1.leaves.Nodup
      ∧ ∃ s', exec .hdrWrite (arenaB1 State.reset) = .next s'
        ∧ (start [] (s'.out ++ bin [1])).unread = s'.out.drop (arenaB1 State.reset).out.length ++ bin [1] := by
  obtain ⟨s', h⟩ := next_of_isSome (o := exec .hdrWrite (arenaB1 State.reset)) (by decide +kernel)
  exact ⟨rfl, arenaB1_holds, by decide +kernel, s', h, rfl⟩

/-! Witnesses: ENCODE and DECODE. -/

theorem witness_EncodeWritesThePayload :
    (codesG1 (start [] (bytesToBits [0x41, 0x42] ++ List.replicate 7 true))).codesValid = true
      ∧ (codesG1 (start [] (bytesToBits [0x41, 0x42] ++ List.replicate 7 true))).unread
        = bytesToBits [0x41, 0x42] ++ List.replicate 7 true
      ∧ (List.replicate 7 true).length < 8
      ∧ (∀ b ∈ ([0x41, 0x42] : List Byte),
          (codesG1 (start [] (bytesToBits [0x41, 0x42] ++ List.replicate 7 true))).codeLen[(byteSymbol b).val] ≠ 0)
      ∧ (codesG1 (start [] (bytesToBits [0x41, 0x42] ++ List.replicate 7 true))).codeLen[256] ≠ 0 := by
  decide +kernel

/-- Codes for 65 and 256, or for 65 alone. -/
def codesA (input : Bits) : State := withCodes (start [] input) [(65, 1, 0), (256, 1, 1)]

/-- A code for 65 alone. -/
def codesNoEnd (input : Bits) : State := withCodes (start [] input) [(65, 1, 0)]

theorem witness_EncodeReportsASymbolWithoutACode :
    ((codesA (bytesToBits ([0x41] ++ [0x43]) ++ bin [1])).codesValid = true
        ∧ (codesA (bytesToBits ([0x41] ++ [0x43]) ++ bin [1])).unread = bytesToBits ([0x41] ++ [0x43]) ++ bin [1]
        ∧ (∀ c ∈ ([0x41] : List Byte),
            (codesA (bytesToBits ([0x41] ++ [0x43]) ++ bin [1])).codeLen[(byteSymbol c).val] ≠ 0)
        ∧ (codesA (bytesToBits ([0x41] ++ [0x43]) ++ bin [1])).codeLen[(byteSymbol 0x43).val] = 0)
      ∧ (codesNoEnd (bytesToBits [0x41] ++ List.replicate 7 true)).codesValid = true
      ∧ (codesNoEnd (bytesToBits [0x41] ++ List.replicate 7 true)).unread = bytesToBits [0x41] ++ List.replicate 7 true
      ∧ (List.replicate 7 true).length < 8
      ∧ (∀ c ∈ ([0x41] : List Byte),
          (codesNoEnd (bytesToBits [0x41] ++ List.replicate 7 true)).codeLen[(byteSymbol c).val] ≠ 0)
      ∧ (codesNoEnd (bytesToBits [0x41] ++ List.replicate 7 true)).codeLen[256] = 0 :=
  ⟨⟨rfl, rfl, all_of (by decide +kernel), by decide +kernel⟩, rfl, rfl, by decide +kernel, all_of (by decide +kernel),
    by decide +kernel⟩

/-- The tree of V-B1 with this input. -/
def readyB1 (input : Bits) : State := { arenaB1 State.reset with inSrc := input }

theorem readyB1_holds (input : Bits) : (readyB1 input).HoldsTree treeB1 := arenaB1_holds

theorem witness_DecodeEmitsTheBytes :
    (readyB1 (bin [1, 0, 0, 0, 1, 1, 1])).treeValid = true ∧ (readyB1 (bin [1, 0, 0, 0, 1, 1, 1])).HoldsTree treeB1
      ∧ (∀ c ∈ ([(0x41, bin [1]), (0x42, bin [0, 0])] : List (Byte × Bits)), (byteSymbol c.1, c.2) ∈ treeB1.codes)
      ∧ ((256 : Symbol), bin [0, 1]) ∈ treeB1.codes
      ∧ (readyB1 (bin [1, 0, 0, 0, 1, 1, 1])).unread
        = (([(0x41, bin [1]), (0x42, bin [0, 0])] : List (Byte × Bits)).map Prod.snd).flatten ++ bin [0, 1] ++ bin [1, 1] :=
  ⟨rfl, readyB1_holds _, by decide +kernel, by decide +kernel, rfl⟩

/-- The one-leaf tree of a symbol. -/
def oneLeaf (v : Symbol) (input : Bits) : State := withArena (start [] input) [.leaf v] 0 1

theorem witness_DecodeOfAOneLeafTree :
    (oneLeaf 256 (bin [1, 0])).treeValid = true
      ∧ (oneLeaf 256 (bin [1, 0])).node[(oneLeaf 256 (bin [1, 0])).root.val] = .leaf 256
      ∧ (oneLeaf 256 (bin [1, 0])).unread = true :: bin [0]
      ∧ (oneLeaf 255 (bin [1, 0])).treeValid = true
      ∧ (oneLeaf 255 (bin [1, 0])).node[(oneLeaf 255 (bin [1, 0])).root.val] = .leaf (byteSymbol 0xFF) := by
  decide +kernel

theorem witness_DecodeReportsATruncatedPayload :
    (readyB1 (bin [1, 0])).treeValid = true ∧ (readyB1 (bin [1, 0])).HoldsTree treeB1
      ∧ (∀ c ∈ ([(0x41, bin [1])] : List (Byte × Bits)), (byteSymbol c.1, c.2) ∈ treeB1.codes)
      ∧ ((256 : Symbol), bin [0] ++ bin [1]) ∈ treeB1.codes ∧ bin [1] ≠ []
      ∧ (readyB1 (bin [1, 0])).unread = (([(0x41, bin [1])] : List (Byte × Bits)).map Prod.snd).flatten ++ bin [0] :=
  ⟨rfl, readyB1_holds _, by decide +kernel, by decide +kernel, by decide +kernel, rfl⟩

/-! Witnesses: the composites. -/

/-- The start of V-P1. -/
def startP1 : State := start [(65, 3), (66, 1)] (bytesToBits [0x41, 0x41, 0x42, 0x41])

theorem witness_CompositesRunTheirStepsInOrder :
    startP1.err = false
      ∧ (∃ t, runInOrder [.build, .gencodes, .magicWrite, .hdrWrite, .encode, .flush] startP1 = .next t)
      ∧ ∃ t, runInOrder [.magicRead, .hdrRead, .decode, .flush] (start [] (bin [1])) = .next t :=
  ⟨rfl, next_of_isSome (by decide +kernel), next_of_isSome (by decide +kernel)⟩

theorem witness_CompressWritesTheWholeStream :
    (allSymbols.map startP1.count).sum ≤ 2 ^ 32 - 1 ∧ startP1.unread = bytesToBits [0x41, 0x41, 0x42, 0x41] ++ []
      ∧ ([] : Bits).length < 8 ∧ ∀ b ∈ ([0x41, 0x41, 0x42, 0x41] : List Byte), startP1.count (byteSymbol b) ≠ 0 := by
  decide +kernel

theorem witness_CompositesFailOnlyAsTheirStepsDo : startP1.err = false := rfl

theorem witness_DecompressReadsTheWholeStream :
    treeB1.size ≤ 513
      ∧ (∀ c ∈ ([(0x41, bin [1])] : List (Byte × Bits)), (byteSymbol c.1, c.2) ∈ treeB1.codes)
      ∧ ((256 : Symbol), bin [0, 1]) ∈ treeB1.codes
      ∧ (start [] (bitsOf 32 Config.MAGIC.toNat ++ treeB1.header
            ++ (([(0x41, bin [1])] : List (Byte × Bits)).map Prod.snd).flatten ++ bin [0, 1] ++ bin [0])).unread
        = bitsOf 32 Config.MAGIC.toNat ++ treeB1.header
            ++ (([(0x41, bin [1])] : List (Byte × Bits)).map Prod.snd).flatten ++ bin [0, 1] ++ bin [0] :=
  ⟨by decide +kernel, by decide +kernel, by decide +kernel, rfl⟩

theorem witness_DecompressInvertsCompress :
    ([0x41, 0x41, 0x42, 0x41] : List Byte).length ≤ 2 ^ 32 - 2 ∧ startP1.CountsOf [0x41, 0x41, 0x42, 0x41]
      ∧ startP1.inSrc = bytesToBits [0x41, 0x41, 0x42, 0x41] ∧ startP1.inPos = 0 ∧ startP1.out = []
      ∧ ∀ c : State, (start [] c.out).inSrc = c.out ∧ (start [] c.out).inPos = 0 ∧ (start [] c.out).out = [] :=
  ⟨by decide +kernel, by unfold State.CountsOf; decide +kernel, rfl, rfl, rfl, fun _ => ⟨rfl, rfl, rfl⟩⟩

end Sys2Proof.Tests
end

section
/-! PROOFS. `bits_n` and `val` (spec/00 R10): the bits of a field, its value, and that each inverts the other. -/

namespace Sys2Proof.Machine

@[simp] theorem length_bitsOf (n v : Nat) : (bitsOf n v).length = n := by
  induction n with
  | zero => rfl
  | succ n ih => simp [ih]

/-- Place `i` of a field of `n` bits has the weight `2 ^ (n - 1 - i)`. -/
theorem getElem?_bitsOf {n i : Nat} (v : Nat) (h : i < n) : (bitsOf n v)[i]? = some (v.testBit (n - 1 - i)) := by
  induction n generalizing i with
  | zero => omega
  | succ n ih =>
    cases i with
    | zero => simp
    | succ i =>
      have weight : n - 1 - i = n + 1 - 1 - (i + 1) := by omega
      rw [bitsOf_succ, List.getElem?_cons_succ, ih (by omega), weight]

/-- A field of `n` bits depends on the `n` low bits of the number only. -/
theorem bitsOf_mod_two_pow {n m : Nat} (v : Nat) (h : n ≤ m) : bitsOf n (v % 2 ^ m) = bitsOf n v := by
  induction n with
  | zero => rfl
  | succ n ih =>
    have low : n < m := h
    simp [ih low.le, Nat.testBit_mod_two_pow, low]

/-- The fold of `valOf`, begun at any number. -/
theorem foldl_bits_eq (c : Bits) (acc : Nat) :
    c.foldl (fun acc b => 2 * acc + b.toNat) acc = 2 ^ c.length * acc + valOf c := by
  induction c generalizing acc with
  | nil => simp
  | cons b c ih =>
    rw [valOf, List.foldl_cons, List.foldl_cons, ih, ih, List.length_cons]
    ring

@[simp] theorem valOf_cons (b : Bool) (c : Bits) : valOf (b :: c) = 2 ^ c.length * b.toNat + valOf c := by
  have folded := foldl_bits_eq c b.toNat
  simpa [valOf] using folded

theorem valOf_lt (c : Bits) : valOf c < 2 ^ c.length := by
  induction c with
  | nil => simp
  | cons b c ih =>
    rw [valOf_cons, List.length_cons, Nat.pow_succ]
    cases b <;> simp <;> omega

/-- Reading a field gives the number written, cut to the field's width. -/
theorem valOf_bitsOf (n v : Nat) : valOf (bitsOf n v) = v % 2 ^ n := by
  induction n with
  | zero => simp [Nat.mod_one]
  | succ n ih => rw [bitsOf_succ, valOf_cons, length_bitsOf, ih, Nat.toNat_testBit, Nat.mod_pow_succ, Nat.add_comm]

/-- Writing the value of a sequence at its own width gives the sequence. -/
theorem bitsOf_valOf (c : Bits) : bitsOf c.length (valOf c) = c := by
  induction c with
  | nil => rfl
  | cons b c ih =>
    have head : (valOf (b :: c)).testBit c.length = b := by
      rw [valOf_cons, Nat.testBit_two_pow_mul_add _ (valOf_lt c)]
      cases b <;> simp
    have tail : bitsOf c.length (valOf (b :: c)) = c := by
      rw [← bitsOf_mod_two_pow _ le_rfl, valOf_cons, Nat.mul_add_mod, Nat.mod_eq_of_lt (valOf_lt c), ih]
    rw [List.length_cons, bitsOf_succ, head, tail]

/-- Settles O4: the bits of a field by place, and the two round trips of `bits_n` and `val`. -/
theorem fieldsAreBigEndian : Obligations.FieldsAreBigEndian :=
  ⟨fun n v => ⟨length_bitsOf n v, fun _ h => getElem?_bitsOf v h, valOf_bitsOf n v⟩,
    fun c => ⟨bitsOf_valOf c, valOf_lt c⟩⟩

end Sys2Proof.Machine
end

section
/-! PROOFS. The register window (spec/20 R82): which register stands at each offset, what an admitted read records, and
the fields of the words it reads (spec/10 R33 to R51). -/

namespace Sys2Proof.Machine

/-! The register at the offset of each entry. -/

theorem regAt_freq (v : Symbol) : regAt (BitVec.ofNat 16 (0x1000 + 4 * v.val)) = .freq v := by
  simp (disch := omega) only [regAt, BitVec.toNat_ofNat, Nat.mod_eq_of_lt, dif_pos]
  congr 2
  omega

theorem regAt_nodeInfo (i : NodeIdx) : regAt (BitVec.ofNat 16 (0x2000 + 4 * i.val)) = .nodeInfo i := by
  simp (disch := omega) only [regAt, BitVec.toNat_ofNat, Nat.mod_eq_of_lt, dif_neg, dif_pos]
  congr 2
  omega

theorem regAt_nodeWeight (i : NodeIdx) : regAt (BitVec.ofNat 16 (0x3000 + 4 * i.val)) = .nodeWeight i := by
  simp (disch := omega) only [regAt, BitVec.toNat_ofNat, Nat.mod_eq_of_lt, dif_neg, dif_pos]
  congr 2
  omega

theorem regAt_codeLen (v : Symbol) : regAt (BitVec.ofNat 16 (0x4000 + 4 * v.val)) = .codeLen v := by
  simp (disch := omega) only [regAt, BitVec.toNat_ofNat, Nat.mod_eq_of_lt, dif_neg, dif_pos]
  congr 2
  omega

theorem regAt_codeWord (v : Symbol) (k : Fin 8) :
    regAt (BitVec.ofNat 16 (0x8000 + 32 * v.val + 4 * k.val)) = .codeWord v k := by
  simp (disch := omega) only [regAt, BitVec.toNat_ofNat, Nat.mod_eq_of_lt, dif_neg, dif_pos]
  congr 2 <;> omega

/-- FREQ stands only at the offsets `0x1000` to `0x1400`, at the place of its symbol (20 R82). -/
theorem toNat_of_regAt_freq {off : Offset} {v : Symbol} (h : regAt off = .freq v) :
    0x1000 ≤ off.toNat ∧ (off.toNat - 0x1000) / 4 = v.val := by
  unfold regAt at h
  dsimp only at h
  split_ifs at h with range
  · cases h
    exact ⟨range.1, rfl⟩
  · split at h <;> cases h

/-! Reads. -/

theorem step_of_host {s : State} {a : HostAction} (h : s.turn = .host a) : step s = hostTurn a s.popTurn := by
  rw [step, h]

theorem step_of_engine {s : State} (h : s.turn = .engine) : step s = engineTurn s.popTurn := by
  rw [step, h]

/-- A read of a register that shows its state records the register's value (40 R150). -/
theorem readReg_of_shown {s : State} {r : Reg} (h : s.busy = false ∨ r.volatile = false) :
    s.readReg r = s.observe (.word (s.regValue r)) := by
  have shown : (s.busy && r.volatile) = false := by rcases h with h | h <;> simp [h]
  rw [State.readReg, if_neg (by simp [shown])]

@[simp] theorem popTurn_regValue (s : State) (r : Reg) : s.popTurn.regValue r = s.regValue r := by
  cases r <;> rfl

/-- The step of an aligned 32-bit read that shows its state. -/
theorem step_read {s : State} {off : Offset} (ht : s.turn = .host (.regRead off 32)) (aligned : off.toNat % 4 = 0)
    (shown : s.busy = false ∨ (regAt off).volatile = false) :
    step s = .next { s.popTurn with seen := s.seen ++ [.word (s.regValue (regAt off))] } := by
  have width : admitted off 32 = true := by simp [admitted, aligned]
  rw [step_of_host ht, hostTurn, if_pos width, readReg_of_shown (by exact shown), popTurn_regValue]
  rfl

/-- An offset of a multiple of 4 is aligned, whatever the window's width cuts off. -/
theorem aligned_ofNat {n : Nat} (h : n % 4 = 0) : (BitVec.ofNat 16 n).toNat % 4 = 0 := by
  rw [BitVec.toNat_ofNat]
  omega

/-! The words registers read. -/

/-- The lowest bit of a word put before a flag is the flag, the others are the word's. -/
theorem getLsbD_append_ofBool {n : Nat} (x : BitVec n) (b : Bool) (k : Nat) :
    (x ++ BitVec.ofBool b).getLsbD k = if k = 0 then b else x.getLsbD (k - 1) := by
  rw [BitVec.getLsbD_append]
  by_cases h : k = 0
  · simp [h]
  · simp [h, show ¬ k < 1 by omega]

theorem getLsbD_statusWord (s : State) (k : Nat) :
    s.statusWord.getLsbD k = [s.busy, s.done, s.err, s.treeValid, s.codesValid, s.drop].getD k false := by
  rw [State.statusWord]
  iterate 6 rw [getLsbD_append_ofBool]
  match k with
  | 0 | 1 | 2 | 3 | 4 | 5 => rfl
  | k + 6 => simp

theorem errorWord_fields (s : State) : s.errorWord.extractLsb' 0 8 = s.cause ∧ s.errorWord.extractLsb' 8 8 = s.op
    ∧ s.errorWord.extractLsb' 16 8 = s.stepOp ∧ s.errorWord.extractLsb' 24 8 = 0#8 := by
  unfold State.errorWord
  refine ⟨?_, ?_, ?_, ?_⟩
  · rw [BitVec.extractLsb'_append_eq_right]
  · rw [BitVec.extractLsb'_append_eq_of_le (by decide), BitVec.extractLsb'_append_eq_right]
  · rw [BitVec.extractLsb'_append_eq_of_le (by decide), BitVec.extractLsb'_append_eq_of_le (by decide),
      BitVec.extractLsb'_append_eq_right]
  · rw [BitVec.extractLsb'_append_eq_of_le (by decide), BitVec.extractLsb'_append_eq_of_le (by decide),
      BitVec.extractLsb'_append_eq_left]

/-- A word put before another counts in its higher places. -/
theorem toNat_append_eq_add {m n : Nat} (x : BitVec m) (y : BitVec n) : (x ++ y).toNat = x.toNat * 2 ^ n + y.toNat := by
  rw [BitVec.toNat_append, ← Nat.shiftLeft_add_eq_or_of_lt y.isLt, Nat.shiftLeft_eq]

theorem toNat_nodeInfoWord_leaf (v : Symbol) : (nodeInfoWord (.leaf v)).toNat = 2 ^ 31 + v.val := by
  unfold nodeInfoWord
  rw [toNat_append_eq_add, toNat_append_eq_add, BitVec.toNat_ofNat v.val, Nat.mod_eq_of_lt (by omega)]
  rfl

theorem toNat_nodeInfoWord_internal (l r : NodeIdx) :
    (nodeInfoWord (.internal l r)).toNat = l.val + r.val * 2 ^ 16 := by
  unfold nodeInfoWord
  rw [toNat_append_eq_add, toNat_append_eq_add, toNat_append_eq_add, BitVec.toNat_ofNat r.val,
    BitVec.toNat_ofNat l.val, Nat.mod_eq_of_lt (by omega), Nat.mod_eq_of_lt (by omega)]
  simp
  omega

/-- Settles O17: each register is found at its offset, and an idle read records its value. -/
theorem counterReadsShowTheirState : Obligations.CounterReadsShowTheirState := by
  intro s idle
  have byteCount (v : Symbol) (byte : v.val < 256) : s.regValue (.freq v) = s.freq[v.val] := by
    rw [State.regValue, State.count, dif_pos byte, BitVec.ofNat_toNat, BitVec.setWidth_eq]
  have eosCount : s.regValue (.freq 256) = 1#32 := by rw [State.regValue, State.count, dif_neg (by decide)]
  refine ⟨rfl, rfl, rfl, rfl, rfl, rfl, rfl, rfl, fun v byte => ?_, ?_,
    fun off aligned ht => step_read ht aligned (.inl idle)⟩
  · rw [regAt_freq, byteCount v byte]
  · rw [show regAt 0x1400#16 = .freq 256 from regAt_freq 256, eosCount]

/-- Settles O15: STATUS, ERROR and ERR_POS are not volatile, and their words are their fields side by side. -/
theorem statusAndErrorReadTheirFields : Obligations.StatusAndErrorReadTheirFields := by
  refine ⟨fun s ht => ⟨s.statusWord, step_read ht rfl (.inr rfl), ?_⟩,
    fun s ht => ⟨s.errorWord, step_read ht rfl (.inr rfl), errorWord_fields s⟩,
    fun s ht => step_read ht rfl (.inr rfl)⟩
  simp only [getLsbD_statusWord]
  refine ⟨rfl, rfl, rfl, rfl, rfl, rfl, fun k reserved => ?_⟩
  exact List.getD_eq_default _ _ reserved

/-- Settles O16: each entry's register stands at its offset, and reads its entry where the valid flag shows it. -/
theorem arenaAndCodeReadsAreMasked : Obligations.ArenaAndCodeReadsAreMasked := by
  refine ⟨fun s i idle => ⟨fun ht => ⟨s.regValue (.nodeInfo i), ?_, ?_, ?_⟩, fun ht => ?_⟩,
    fun s v idle => ⟨fun ht => ?_, fun k ht => ⟨s.regValue (.codeWord v k), ?_, ?_, ?_⟩⟩⟩
  · rw [step_read ht (aligned_ofNat (by omega)) (.inl idle), regAt_nodeInfo]
  · intro masked
    rw [State.regValue, if_neg]
    rcases masked with h | h <;> simp [h]
  · intro valid below
    rw [State.regValue, if_pos (by simp [valid, below])]
    exact ⟨fun v entry => by rw [entry, toNat_nodeInfoWord_leaf],
      fun l r entry => by rw [entry, toNat_nodeInfoWord_internal]⟩
  · rw [step_read ht (aligned_ofNat (by omega)) (.inl idle), regAt_nodeWeight, State.regValue]
    simp only [Bool.and_eq_true, decide_eq_true_eq]
  · rw [step_read ht (aligned_ofNat (by omega)) (.inl idle), regAt_codeLen, State.regValue]
  · rw [step_read ht (aligned_ofNat (by omega)) (.inl idle), regAt_codeWord]
  · intro invalid
    rw [State.regValue, if_neg (by simp [invalid])]
  · intro valid j hj
    rw [State.regValue, if_pos valid, BitVec.getLsbD_extractLsb']
    simp [hj]

/-- Settles O20: the host's turn takes each stream move while idle and refuses it while busy. -/
theorem streamsAttachOnlyWhileIdle : Obligations.StreamsAttachOnlyWhileIdle := by
  have refused {s : State} {o : Host.Outcome State Fault Refusal} (busy : s.busy = true) :
      (if s.popTurn.busy then .refused .streamMoveWhileBusy else o) = .refused .streamMoveWhileBusy := if_pos busy
  have taken {s : State} {o : Host.Outcome State Fault Refusal} (idle : s.busy = false) :
      (if s.popTurn.busy then .refused .streamMoveWhileBusy else o) = o := if_neg (by simp [idle])
  refine ⟨fun s b ht => ?_, fun s ht => ?_, fun s ht => ?_⟩
  all_goals rw [step_of_host ht]; exact ⟨taken, refused⟩

end Sys2Proof.Machine
end

section
/-! PROOFS. What one step can do, said once: the completion of the pending command, or one of the host's moves
(spec/40 R150 to R159, spec/60 R331). -/

namespace Sys2Proof.Machine

/-! Commands as the completion of a body. -/

/-- Each command's body (40 R154). -/
def bodyOf : Instr → State → Ran
  | .nop => runNop
  | .clear => runClear
  | .flush => runFlush
  | .build => runBuild
  | .gencodes => runGencodes
  | .magicWrite => runMagicWrite Config.MAGIC
  | .hdrWrite => runHdrWrite
  | .magicRead => runMagicRead Config.MAGIC
  | .hdrRead => runHdrRead
  | .encode => runEncode
  | .decode => runDecode
  | .compress => runCompress Config.MAGIC
  | .decompress => runDecompress Config.MAGIC

theorem exec_eq_complete (i : Instr) (s : State) : exec i s = complete (opcodeOf i) (bodyOf i s) := by
  cases i <;> rfl

/-- A completed body ends where the body did, marked done or with the error captured. -/
theorem Ran.All.complete {P : State → Prop} {r : Ran} {o : BitVec 8} {t : State} (all : r.All P)
    (h : complete o r = .next t) :
    ∃ u, P u ∧ (t = u.succeeded ∨ ∃ (c : Cause) (st : BitVec 8), t = u.failedWith c.code o st) := by
  obtain ⟨u, rfl, rfl⟩ | ⟨c, st, u, rfl, rfl⟩ := complete_eq_next.mp h
  · exact ⟨u, all, .inl rfl⟩
  · exact ⟨u, all, .inr ⟨c, st, rfl⟩⟩

/-! The decoder: a command has no word but its own (30 R112). -/

theorem opcodeOf_of_decodeOpcode {op : BitVec 8} {i : Instr} (h : decodeOpcode op = some i) : opcodeOf i = op := by
  unfold decodeOpcode at h
  split at h <;> cases h <;> rfl

theorem encode_of_decode {w : Word} {i : Instr} (h : decode w = .ok i) : encode i = w := by
  unfold decode at h
  split at h
  · rename_i reserved
    split at h
    · rename_i j hj
      cases h
      have fields : reservedField w ++ opcodeField w = w := by
        unfold reservedField opcodeField
        rw [BitVec.extractLsb'_append_extractLsb']
      rw [encode, opcodeOf_of_decodeOpcode hj, ← reserved, fields]
    · cases h
  · cases h

/-! The host's moves. -/

/-- What an admitted move of the host makes of a state: `HostMove s a t` when the move `a` can lead from `s` to `t`. -/
inductive HostMove (s : State) : HostAction → State → Prop where
  /-- A read appends what it observed, and may draw a free value. -/
  | read (off : Offset) (width : Nat) (o : Observation) (n : Nat) :
      HostMove s (.regRead off width) { s with seen := s.seen ++ [o], draws := n }
  /-- A discarded write. -/
  | drop (off : Offset) (width : Nat) (v : Word) : HostMove s (.regWrite off width v) s.dropped
  /-- A write of CMD accepted while idle: with an error pending, of CLEAR only. -/
  | accept (off : Offset) (width : Nat) (v : Word) (idle : s.busy = false) (h : s.err = true → v = 0x00000001#32) :
      HostMove s (.regWrite off width v) (s.accept v)
  /-- A write of STATUS while idle. -/
  | status (off : Offset) (width : Nat) (v : Word) (idle : s.busy = false) :
      HostMove s (.regWrite off width v) (s.statusWrite v)
  /-- A write of the count of a byte while idle. -/
  | count (off : Offset) (width : Nat) (v : Word) (idle : s.busy = false) (lower : 0x1000 ≤ off.toNat)
      (upper : off.toNat < 0x1400) (freq : Vector Word 256) :
      HostMove s (.regWrite off width v) { s with freq := freq }
  /-- A write that is ignored. -/
  | ignored (off : Offset) (width : Nat) (v : Word) : HostMove s (.regWrite off width v) s
  | attachIn (b : Bits) : HostMove s (.attachIn b) (s.attachIn b)
  | attachOut : HostMove s .attachOut s.attachOut
  | takeOut (o : Observation) : HostMove s .takeOut (s.observe o)
  | reset : HostMove s .reset s.resetMove

theorem hostMove_readReg (s : State) (off : Offset) (width : Nat) :
    HostMove s (.regRead off width) (s.readReg (regAt off)) := by
  unfold State.readReg
  split
  · exact .read off width _ (s.draws + 1)
  · exact .read off width _ s.draws

theorem hostMove_writeReg (s : State) (off : Offset) (width : Nat) (v : Word) :
    HostMove s (.regWrite off width v) (s.writeReg (regAt off) v) := by
  unfold State.writeReg
  split
  · exact .drop off width v
  · rename_i busy
    have idle : s.busy = false := by simpa using busy
    split <;> try exact .ignored off width v
    · unfold State.cmdWrite
      split
      · exact .drop off width v
      · rename_i taken
        exact .accept off width v idle (by simpa using taken)
    · exact .status off width v idle
    · rename_i u hu
      have place := toNat_of_regAt_freq hu
      unfold State.freqWrite
      split
      · exact .count off width v idle place.1 (by omega) _
      · exact .ignored off width v

/-- Every step of the host is one of its moves. -/
theorem hostMove_of_hostTurn {a : HostAction} {s t : State} (h : hostTurn a s = .next t) : HostMove s a t := by
  unfold hostTurn at h
  split at h
  · split at h <;> cases h
    exact hostMove_readReg s _ _
  · split at h <;> cases h
    exact hostMove_writeReg s _ _ _
  · split at h <;> cases h
    exact .attachIn _
  · split at h <;> cases h
    exact .attachOut
  · split at h <;> cases h
    exact .takeOut _
  · cases h
    exact .reset

/-! The step. -/

/-- What one step can do: an idle engine waits, a pending command or illegal word completes, or the host moves. -/
theorem step_cases {s t : State} (h : step s = .next t) :
    (s.turn = .engine ∧ s.busy = false ∧ t = s.popTurn)
      ∨ (∃ (w : Word) (i : Instr), s.turn = .engine ∧ s.busy = true ∧ s.pending = some w ∧ decode w = .ok i
          ∧ complete (opcodeOf i) (bodyOf i s.popTurn) = .next t)
      ∨ (∃ w : Word, s.turn = .engine ∧ s.busy = true
          ∧ t = s.popTurn.failedWith Cause.illegalCmd.code (opcodeField w) (opcodeField w))
      ∨ ∃ a, s.turn = .host a ∧ HostMove s.popTurn a t := by
  cases ht : s.turn with
  | host a =>
    rw [step_of_host ht] at h
    exact .inr (.inr (.inr ⟨a, rfl, hostMove_of_hostTurn h⟩))
  | engine =>
    rw [step_of_engine ht, engineTurn] at h
    by_cases busy : s.busy = true
    · rw [if_pos (by exact busy), completePending] at h
      split at h
      · cases h
      · rename_i w pending
        split at h
        · rename_i i hi
          rw [exec_eq_complete] at h
          exact .inr (.inl ⟨w, i, rfl, busy, pending, hi, h⟩)
        · cases h
          exact .inr (.inr (.inl ⟨w, rfl, busy, rfl⟩))
    · rw [if_neg (by exact busy)] at h
      cases h
      exact .inl ⟨rfl, by simpa using busy, rfl⟩

end Sys2Proof.Machine
end

section
/-! PROOFS. Rules of every step (spec/10 R36, R45, R56, R57): the frame of a command's body, then which steps raise a
valid flag, move a stream or change a count. -/

namespace Sys2Proof.Machine

/-! The frame of a command's body. -/

/-- The flags, the error capture and the pending command: what a command's body leaves to its completion (40 R153). -/
def State.control (s : State) : Bool × Option Word × Bool × Bool × BitVec 8 × BitVec 8 × BitVec 8 × Word :=
  (s.busy, s.pending, s.done, s.err, s.cause, s.op, s.stepOp, s.errPos)

/-- What the body of a command other than CLEAR keeps: the control state, the counts and the attached input; the
streams only advance. -/
structure BodyFrame (s t : State) : Prop where
  control : t.control = s.control
  freq : t.freq = s.freq
  inSrc : t.inSrc = s.inSrc
  inPos : s.inPos ≤ t.inPos
  out : s.out <+: t.out

theorem BodyFrame.refl (s : State) : BodyFrame s s := ⟨rfl, rfl, rfl, le_rfl, List.prefix_rfl⟩

theorem BodyFrame.trans {s t u : State} (h : BodyFrame s t) (k : BodyFrame t u) : BodyFrame s u :=
  ⟨k.control.trans h.control, k.freq.trans h.freq, k.inSrc.trans h.inSrc, h.inPos.trans k.inPos, h.out.trans k.out⟩

theorem OutOnly.bodyFrame {s t : State} : OutOnly s t → BodyFrame s t := by
  rintro ⟨b, rfl⟩
  exact ⟨rfl, rfl, rfl, le_rfl, List.prefix_append _ _⟩

theorem Recodes.bodyFrame {s t : State} : Recodes s t → BodyFrame s t := by
  rintro ⟨n, b, k, rfl⟩
  exact ⟨rfl, rfl, rfl, Nat.le_add_right _ _, List.prefix_append _ _⟩

theorem runBuild_frame (s : State) : (runBuild s).All (BodyFrame s) :=
  (runBuild_all s).mono fun _ ⟨_, _, _, _, _, _, h⟩ => h ▸ ⟨rfl, rfl, rfl, le_rfl, List.prefix_rfl⟩

theorem runGencodes_frame (s : State) : (runGencodes s).All (BodyFrame s) :=
  (runGencodes_all s).mono fun _ ⟨_, _, _, h⟩ => h ▸ ⟨rfl, rfl, rfl, le_rfl, List.prefix_rfl⟩

theorem runMagicRead_frame (m : Word) (s : State) : (runMagicRead m s).All (BodyFrame s) :=
  (runMagicRead_all m s).mono fun _ ⟨_, h⟩ => h ▸ ⟨rfl, rfl, rfl, Nat.le_add_right _ _, List.prefix_rfl⟩

theorem runHdrRead_frame (s : State) : (runHdrRead s).All (BodyFrame s) :=
  (runHdrRead_all s).mono fun _ ⟨_, _, _, _, _, _, _, h⟩ => h ▸ ⟨rfl, rfl, rfl, Nat.le_add_right _ _, List.prefix_rfl⟩

/-- A relation that holds of each of two bodies run one after the other holds of both together. -/
theorem Ran.All.chain {R : State → State → Prop} {s : State} {r : Ran} {k : State → Ran}
    (trans : ∀ {a b c}, R a b → R b c → R a c) (h : r.All (R s)) (hk : ∀ t, (k t).All (R t)) :
    (r.andThen k).All (R s) :=
  h.andThen (fun t ht => (hk t).mono fun _ hu => trans ht hu) fun _ h => h

theorem runFlush_frame (s : State) : (runFlush s).All (BodyFrame s) :=
  (runFlush_all s).mono fun _ => OutOnly.bodyFrame

theorem runMagicWrite_frame (m : Word) (s : State) : (runMagicWrite m s).All (BodyFrame s) :=
  (runMagicWrite_all m s).mono fun _ => OutOnly.bodyFrame

theorem runHdrWrite_frame (s : State) : (runHdrWrite s).All (BodyFrame s) :=
  (runHdrWrite_all s).mono fun _ => OutOnly.bodyFrame

theorem runEncode_frame (s : State) : (runEncode s).All (BodyFrame s) :=
  (runEncode_all s).mono fun _ => Recodes.bodyFrame

theorem runDecode_frame (s : State) : (runDecode s).All (BodyFrame s) :=
  (runDecode_all s).mono fun _ => Recodes.bodyFrame

theorem runCompress_frame (m : Word) (s : State) : (runCompress m s).All (BodyFrame s) :=
  (((((runBuild_frame s).chain .trans runGencodes_frame).chain .trans (runMagicWrite_frame m)).chain .trans
    runHdrWrite_frame).chain .trans runEncode_frame).chain .trans runFlush_frame

theorem runDecompress_frame (m : Word) (s : State) : (runDecompress m s).All (BodyFrame s) :=
  (((runMagicRead_frame m s).chain .trans runHdrRead_frame).chain .trans runDecode_frame).chain .trans runFlush_frame

/-- The frame of every body but CLEAR's, which alone changes the counts and the error capture. -/
theorem bodyOf_frame {i : Instr} (h : i ≠ .clear) (s : State) : (bodyOf i s).All (BodyFrame s) := by
  cases i with
  | clear => exact absurd rfl h
  | nop => exact .refl s
  | flush => exact runFlush_frame s
  | build => exact runBuild_frame s
  | gencodes => exact runGencodes_frame s
  | magicWrite => exact runMagicWrite_frame _ s
  | hdrWrite => exact runHdrWrite_frame s
  | magicRead => exact runMagicRead_frame _ s
  | hdrRead => exact runHdrRead_frame s
  | encode => exact runEncode_frame s
  | decode => exact runDecode_frame s
  | compress => exact runCompress_frame _ s
  | decompress => exact runDecompress_frame _ s

/-! What a completion leaves. -/

/-- A completed command other than CLEAR changes neither the counts nor the input, and its streams only advance. -/
theorem complete_frame {i : Instr} {s t : State} {o : BitVec 8} (h : i ≠ .clear)
    (done : complete o (bodyOf i s) = .next t) :
    t.freq = s.freq ∧ t.inSrc = s.inSrc ∧ s.inPos ≤ t.inPos ∧ s.out <+: t.out := by
  obtain ⟨u, frame, rfl | ⟨c, st, rfl⟩⟩ := (bodyOf_frame h s).complete done
  all_goals exact ⟨frame.freq, frame.inSrc, frame.inPos, frame.out⟩

/-- CLEAR leaves the streams as they are (40 R156). -/
theorem complete_clear_streams {s t : State} {o : BitVec 8} (done : complete o (bodyOf .clear s) = .next t) :
    t.inSrc = s.inSrc ∧ t.inPos = s.inPos ∧ t.out = s.out := by
  cases done
  exact ⟨rfl, rfl, rfl⟩

/-- A STATUS write changes the flags and the error capture only. -/
theorem statusWrite_frame (s : State) (v : Word) : ∃ done err cause op stepOp errPos drop, s.statusWrite v =
    { s with
      done := done, err := err, cause := cause, op := op, stepOp := stepOp, errPos := errPos, drop := drop } := by
  simp only [State.statusWrite]
  split_ifs <;> exact ⟨_, _, _, _, _, _, _, rfl⟩

/-! The valid flags. -/

/-- A flag is set in the second state only if it is set in the first. -/
def NoRise (flag : State → Bool) (s t : State) : Prop := flag t ≤ flag s

theorem NoRise.trans {flag : State → Bool} {s t u : State} (h : NoRise flag s t) (k : NoRise flag t u) :
    NoRise flag s u :=
  le_trans k h

theorem NoRise.of_eq {flag : State → Bool} {s t : State} (h : flag t = flag s) : NoRise flag s t := h.le

theorem NoRise.of_false {flag : State → Bool} {s t : State} (h : flag t = false) : NoRise flag s t :=
  h.le.trans (Bool.false_le _)

/-- The valid flags of two states are the same. -/
def SameFlags (s t : State) : Prop := t.treeValid = s.treeValid ∧ t.codesValid = s.codesValid

theorem OutOnly.sameFlags {s t : State} : OutOnly s t → SameFlags s t := by
  rintro ⟨_, rfl⟩
  exact ⟨rfl, rfl⟩

theorem Recodes.sameFlags {s t : State} : Recodes s t → SameFlags s t := by
  rintro ⟨_, _, _, rfl⟩
  exact ⟨rfl, rfl⟩

theorem runMagicRead_sameFlags (m : Word) (s : State) : (runMagicRead m s).All (SameFlags s) :=
  (runMagicRead_all m s).mono fun _ ⟨_, h⟩ => h ▸ ⟨rfl, rfl⟩

/-- Both valid flags are kept by every body but those of CLEAR, BUILD, GENCODES, HDR_READ and the composites. -/
theorem bodyOf_sameFlags {i : Instr} (h : i ∉ [Instr.clear, .build, .gencodes, .hdrRead, .compress, .decompress])
    (s : State) : (bodyOf i s).All (SameFlags s) := by
  cases i with
  | clear | build | gencodes | hdrRead | compress | decompress => simp at h
  | nop => exact ⟨rfl, rfl⟩
  | flush => exact (runFlush_all s).mono fun _ => OutOnly.sameFlags
  | magicWrite => exact (runMagicWrite_all _ s).mono fun _ => OutOnly.sameFlags
  | hdrWrite => exact (runHdrWrite_all s).mono fun _ => OutOnly.sameFlags
  | magicRead => exact runMagicRead_sameFlags _ s
  | encode => exact (runEncode_all s).mono fun _ => Recodes.sameFlags
  | decode => exact (runDecode_all s).mono fun _ => Recodes.sameFlags

/-- No body but those of BUILD and HDR_READ, alone or inside a composite, makes the tree valid. -/
theorem bodyOf_noRise_treeValid {i : Instr} (h : i ∉ [Instr.build, .hdrRead, .compress, .decompress]) (s : State) :
    (bodyOf i s).All (NoRise State.treeValid s) := by
  by_cases other : i ∈ [Instr.clear, .gencodes]
  · obtain rfl | rfl : i = .clear ∨ i = .gencodes := by simpa using other
    · exact .of_false rfl
    · exact (runGencodes_all s).mono fun _ ⟨_, _, _, h⟩ => .of_eq (h ▸ rfl)
  · exact (bodyOf_sameFlags (by simp_all) s).mono fun _ h => .of_eq h.1

theorem runHdrRead_codesValid (s : State) : (runHdrRead s).All fun t => t.codesValid = false :=
  (runHdrRead_all s).mono fun _ ⟨_, _, _, _, _, _, _, h⟩ => h ▸ rfl

theorem runDecompress_noRise_codesValid (m : Word) (s : State) :
    (runDecompress m s).All (NoRise State.codesValid s) := by
  have magic : (runMagicRead m s).All (NoRise State.codesValid s) :=
    (runMagicRead_sameFlags m s).mono fun _ h => .of_eq h.2
  have header (t : State) : (runHdrRead t).All (NoRise State.codesValid t) :=
    (runHdrRead_codesValid t).mono fun _ h => .of_false h
  have payload (t : State) : (runDecode t).All (NoRise State.codesValid t) :=
    (runDecode_all t).mono fun _ h => .of_eq h.sameFlags.2
  have padding (t : State) : (runFlush t).All (NoRise State.codesValid t) :=
    (runFlush_all t).mono fun _ h => .of_eq h.sameFlags.2
  exact ((magic.chain .trans header).chain .trans payload).chain .trans padding

/-- No body but that of GENCODES, alone or inside COMPRESS, makes the code table valid. -/
theorem bodyOf_noRise_codesValid {i : Instr} (h : i ∉ [Instr.gencodes, .compress]) (s : State) :
    (bodyOf i s).All (NoRise State.codesValid s) := by
  by_cases other : i ∈ [Instr.clear, .build, .hdrRead, .decompress]
  · obtain rfl | rfl | rfl | rfl : i = .clear ∨ i = .build ∨ i = .hdrRead ∨ i = .decompress := by simpa using other
    · exact .of_false rfl
    · exact (runBuild_all s).mono fun _ ⟨_, _, _, _, _, _, h⟩ => .of_false (h ▸ rfl)
    · exact (runHdrRead_codesValid s).mono fun _ h => .of_false h
    · exact runDecompress_noRise_codesValid _ s
  · exact (bodyOf_sameFlags (by simp_all) s).mono fun _ h => .of_eq h.2

/-- A host move raises neither valid flag. -/
theorem HostMove.noRise {s t : State} {a : HostAction} (h : HostMove s a t) :
    NoRise State.treeValid s t ∧ NoRise State.codesValid s t := by
  cases h with
  | status off width v idle =>
    obtain ⟨_, _, _, _, _, _, _, h⟩ := statusWrite_frame s v
    exact ⟨.of_eq (h ▸ rfl), .of_eq (h ▸ rfl)⟩
  | reset => exact ⟨.of_false rfl, .of_false rfl⟩
  | _ => exact ⟨.of_eq rfl, .of_eq rfl⟩

/-- Where neither the completion nor a host move raises a flag, and of the bodies only those of some commands do, a
flag that a step raises is raised by one of those commands. -/
theorem command_of_flag_raised {flag : State → Bool} {cmds : List Instr} {s t : State} (h : step s = .next t)
    (popped : flag s.popTurn = flag s) (succeeded : ∀ u : State, flag u.succeeded = flag u)
    (failed : ∀ (u : State) c o st, flag (u.failedWith c o st) = flag u)
    (body : ∀ i ∉ cmds, ∀ u, (bodyOf i u).All (NoRise flag u))
    (host : ∀ {u v : State} {a : HostAction}, HostMove u a v → NoRise flag u v)
    (before : flag s = false) (after : flag t = true) :
    ∃ (w : Word) (i : Instr), s.turn = .engine ∧ s.busy = true ∧ s.pending = some w ∧ decode w = .ok i ∧ i ∈ cmds := by
  have raised : ¬ NoRise flag s.popTurn t := by simp [NoRise, before, after, popped]
  obtain ⟨-, -, rfl⟩ | ⟨w, i, ht, busy, pending, hi, done⟩ | ⟨w, -, -, rfl⟩ | ⟨a, -, move⟩ := step_cases h
  · exact absurd (.of_eq rfl) raised
  · refine ⟨w, i, ht, busy, pending, hi, ?_⟩
    by_contra other
    obtain ⟨u, below, rfl | ⟨c, st, rfl⟩⟩ := (body i other s.popTurn).complete done
    · exact raised (below.trans (.of_eq (succeeded u)))
    · exact raised (below.trans (.of_eq (failed u _ _ _)))
  · exact absurd (.of_eq (failed _ _ _ _)) raised
  · exact absurd (host move) raised

/-- Settles O57: each valid flag can rise only in the body of its commands. -/
theorem validFlagsRiseOnlyByTheirCommands : Obligations.ValidFlagsRiseOnlyByTheirCommands := fun _ _ h =>
  ⟨command_of_flag_raised h rfl (fun _ => rfl) (fun _ _ _ _ => rfl) (fun _ => bodyOf_noRise_treeValid)
      fun move => move.noRise.1,
    command_of_flag_raised h rfl (fun _ => rfl) (fun _ _ _ _ => rfl) (fun _ => bodyOf_noRise_codesValid)
      fun move => move.noRise.2⟩

/-! The streams. -/

/-- But for a reset and an attach, a host move leaves the streams as they are. -/
theorem HostMove.streams {s t : State} {a : HostAction} (h : HostMove s a t) (noReset : a ≠ .reset) :
    ((∀ b, a ≠ .attachIn b) → t.inSrc = s.inSrc ∧ t.inPos = s.inPos) ∧ (a ≠ .attachOut → t.out = s.out) := by
  cases h with
  | status off width v idle =>
    obtain ⟨_, _, _, _, _, _, _, h⟩ := statusWrite_frame s v
    rw [h]
    exact ⟨fun _ => ⟨rfl, rfl⟩, fun _ => rfl⟩
  | attachIn b => exact ⟨fun h => absurd rfl (h b), fun _ => rfl⟩
  | attachOut => exact ⟨fun _ => ⟨rfl, rfl⟩, fun h => absurd rfl h⟩
  | reset => exact absurd rfl noReset
  | _ => exact ⟨fun _ => ⟨rfl, rfl⟩, fun _ => rfl⟩

/-- Settles O58: a body only advances the streams, and only the host's attach and reset replace them. -/
theorem streamsOnlyAdvance : Obligations.StreamsOnlyAdvance := by
  intro s t h noReset
  obtain ⟨-, -, rfl⟩ | ⟨w, i, -, -, -, -, done⟩ | ⟨w, -, -, rfl⟩ | ⟨a, ht, move⟩ := step_cases h
  · exact ⟨fun _ => ⟨rfl, le_rfl⟩, fun _ => List.prefix_rfl⟩
  · by_cases clear : i = .clear
    · subst clear
      obtain ⟨src, pos, out⟩ := complete_clear_streams done
      exact ⟨fun _ => ⟨src, pos.ge⟩, fun _ => out ▸ List.prefix_rfl⟩
    · obtain ⟨-, src, pos, out⟩ := complete_frame clear done
      exact ⟨fun _ => ⟨src, pos⟩, fun _ => out⟩
  · exact ⟨fun _ => ⟨rfl, le_rfl⟩, fun _ => List.prefix_rfl⟩
  · rw [ht] at noReset ⊢
    obtain ⟨input, output⟩ := move.streams (by simpa using noReset)
    refine ⟨fun noAttach => ?_, fun noAttach => ?_⟩
    · obtain ⟨src, pos⟩ := input (by simpa using noAttach)
      exact ⟨src, pos.ge⟩
    · rw [output (by simpa using noAttach)]
      exact List.prefix_rfl

/-! The counts. -/

/-- A host move that changes the counts is a write of FREQ while idle, or a reset. -/
theorem HostMove.freq {s t : State} {a : HostAction} (h : HostMove s a t) (changed : t.freq ≠ s.freq) :
    (∃ (off : Offset) (width : Nat) (x : Word), 0x1000 ≤ off.toNat ∧ off.toNat < 0x1400 ∧ s.busy = false
        ∧ a = .regWrite off width x) ∨ a = .reset := by
  cases h with
  | count off width v idle lower upper freq => exact .inl ⟨off, width, v, lower, upper, idle, rfl⟩
  | reset => exact .inr rfl
  | status off width v idle =>
    obtain ⟨_, _, _, _, _, _, _, h⟩ := statusWrite_frame s v
    rw [h] at changed
    exact absurd rfl changed
  | _ => exact absurd rfl changed

/-- A write that is a step is 32 bits wide (20 R81, R84). -/
theorem width_of_step_regWrite {s t : State} {off : Offset} {width : Nat} {v : Word}
    (ht : s.turn = .host (.regWrite off width v)) (h : step s = .next t) : width = 32 := by
  rw [step_of_host ht, hostTurn] at h
  split at h
  · rename_i ok
    simp only [admitted, Bool.and_eq_true, beq_iff_eq] at ok
    exact ok.1
  · cases h

/-- Settles O59: among the bodies only CLEAR's writes the counts, among the host's moves a FREQ write and a reset. -/
theorem onlyTheHostAndClearChangeTheCounts : Obligations.OnlyTheHostAndClearChangeTheCounts := by
  intro s t h changed
  obtain ⟨-, -, rfl⟩ | ⟨w, i, ht, busy, pending, hi, done⟩ | ⟨w, -, -, rfl⟩ | ⟨a, ht, move⟩ := step_cases h
  · exact absurd rfl changed
  · by_cases clear : i = .clear
    · subst clear
      exact .inr (.inr ⟨ht, busy, pending.trans (congrArg some (encode_of_decode hi).symm)⟩)
    · exact absurd (complete_frame clear done).1 changed
  · exact absurd rfl changed
  · obtain ⟨off, width, x, lower, upper, idle, rfl⟩ | rfl := move.freq changed
    · obtain rfl := width_of_step_regWrite ht h
      exact .inl ⟨off, x, lower, upper, idle, ht⟩
    · exact .inr (.inl ht)

end Sys2Proof.Machine
end

section
/-! PROOFS. Trees in the arena (spec/10 R46 to R49): what an entry's tree depends on, its entries and leaves, and its
paths as codes (spec/42 R190, R191). -/

namespace Sys2Proof.Machine

/-! The tree an entry holds. -/

/-- An entry holds its tree in every arena that agrees on the tree's entries. -/
theorem Represents.congr {node node' : Vector Node 513} {i : NodeIdx} {t : HuffTree} {ixs : List NodeIdx}
    (h : Represents node i t ixs) (same : ∀ j ∈ ixs, node'[j.val] = node[j.val]) : Represents node' i t ixs := by
  induction h with
  | leaf i v h => exact .leaf i v ((same i (by simp)).trans h)
  | node i l r tl tr il ir h _ _ ihl ihr =>
    exact .node i l r tl tr il ir ((same i (by simp)).trans h) (ihl fun j hj => same j (by simp [hj]))
      (ihr fun j hj => same j (by simp [hj]))

theorem Represents.length_eq_size {node : Vector Node 513} {i : NodeIdx} {t : HuffTree} {ixs : List NodeIdx}
    (h : Represents node i t ixs) : ixs.length = t.size := by
  induction h with
  | leaf => rfl
  | node i l r tl tr il ir h _ _ ihl ihr => simp [HuffTree.size, ihl, ihr]

@[simp] theorem Node.isLeaf_leaf (v : Symbol) : (Node.leaf v).isLeaf = true := rfl
@[simp] theorem Node.isLeaf_internal (l r : NodeIdx) : (Node.internal l r).isLeaf = false := rfl

/-- The leaves of the tree are counted by its entries. -/
theorem Represents.countP_isLeaf {node : Vector Node 513} {i : NodeIdx} {t : HuffTree} {ixs : List NodeIdx}
    (h : Represents node i t ixs) : ixs.countP (fun j => node[j.val].isLeaf) = t.leaves.length := by
  induction h with
  | leaf i v h => simp [h, HuffTree.leaves]
  | node i l r tl tr il ir h _ _ ihl ihr => simp [h, HuffTree.leaves, ihl, ihr]

theorem HuffTree.leaves_ne_nil (t : HuffTree) : t.leaves ≠ [] := by
  induction t with
  | leaf v => simp [HuffTree.leaves]
  | node l r ihl _ => simp [HuffTree.leaves, ihl]

theorem HuffTree.leaves_pos (t : HuffTree) : 0 < t.leaves.length := List.length_pos_of_ne_nil t.leaves_ne_nil

/-- A tree in the arena has at most 257 leaves, because its entries are distinct (10 R46). -/
theorem State.HoldsTree.leaves_le {s : State} {t : HuffTree} (h : s.HoldsTree t) : t.leaves.length ≤ 257 := by
  obtain ⟨ixs, represents, nodup, -, -⟩ := h
  have entries : ixs.length ≤ 513 := by simpa using nodup.length_le_card
  have size := represents.length_eq_size
  have leaves := t.size_add_one
  omega

/-! Paths and codes. -/

theorem HuffTree.paths_fst (t : HuffTree) (p : Bits) : (t.paths p).map Prod.fst = t.leaves := by
  induction t generalizing p with
  | leaf v => rfl
  | node l r ihl ihr => simp [HuffTree.paths, HuffTree.leaves, ihl, ihr]

theorem HuffTree.codes_fst (t : HuffTree) : t.codes.map Prod.fst = t.leaves := by
  cases t with
  | leaf v => rfl
  | node l r => exact paths_fst _ _

/-- A leaf lies below `p` by fewer steps than the tree has leaves. -/
theorem HuffTree.length_of_mem_paths {t : HuffTree} {p q : Bits} {v : Symbol} (h : (v, q) ∈ t.paths p) :
    p.length ≤ q.length ∧ q.length < p.length + t.leaves.length := by
  induction t generalizing p with
  | leaf w =>
    obtain ⟨-, rfl⟩ : v = w ∧ q = p := by simpa [HuffTree.paths] using h
    simp [HuffTree.leaves]
  | node l r ihl ihr =>
    have left := l.leaves_pos
    have right := r.leaves_pos
    simp only [HuffTree.leaves, List.length_append]
    obtain h | h : _ ∨ _ := by simpa [HuffTree.paths] using h
    · have := ihl h
      simp only [List.length_append, List.length_singleton] at this
      omega
    · have := ihr h
      simp only [List.length_append, List.length_singleton] at this
      omega

/-- Every code of a tree that fits the arena has 1 to 256 bits (10 R50, 42 R195). -/
theorem HuffTree.length_of_mem_codes {t : HuffTree} {q : Bits} {v : Symbol} (fits : t.leaves.length ≤ 257)
    (h : (v, q) ∈ t.codes) : 1 ≤ q.length ∧ q.length ≤ 256 := by
  cases t with
  | leaf w =>
    obtain ⟨-, rfl⟩ : v = w ∧ q = [false] := by simpa [HuffTree.codes] using h
    simp
  | node l r =>
    have upper := (length_of_mem_paths (show (v, q) ∈ (HuffTree.node l r).paths [] from h)).2
    have lower : 1 ≤ q.length := by
      obtain h | h : _ ∨ _ := by simpa [HuffTree.codes, HuffTree.paths] using h
      · exact (length_of_mem_paths h).1
      · exact (length_of_mem_paths h).1
    simp only [List.length_nil] at upper
    omega

/-! GENCODES on a tree: its leaves get their codes in order. -/

/-- Each symbol is given its code in order, until one already has a code (42 R190, R192). -/
def assignAll : List (Symbol × Bits) → State → Ran
  | [], s => .ok s
  | (v, p) :: rest, s =>
    if s.codeLen[v.val] = 0 then assignAll rest (s.setCode v p.length (BitVec.ofNat 256 (valOf p)))
    else .error .dupSymbol (opcodeOf .gencodes) s

theorem assignAll_append (ps qs : List (Symbol × Bits)) (s : State) :
    assignAll (ps ++ qs) s = (assignAll ps s).andThen (assignAll qs) := by
  induction ps generalizing s with
  | nil => rfl
  | cons c ps ih =>
    simp only [List.cons_append, assignAll]
    split
    · exact ih _
    · rfl

theorem assignAll_all (ps : List (Symbol × Bits)) (s : State) : (assignAll ps s).All (CodesOnly s) := by
  induction ps generalizing s with
  | nil => exact .refl s
  | cons c ps ih =>
    have stored : CodesOnly s (s.setCode c.1 c.2.length (BitVec.ofNat 256 (valOf c.2))) := ⟨_, _, rfl⟩
    simp only [assignAll]
    split
    · exact (ih _).mono fun _ h => stored.trans h
    · exact .refl s

theorem assignAll_codeLen_le {ps : List (Symbol × Bits)} {s : State} {n : Nat} (short : ∀ c ∈ ps, c.2.length ≤ n)
    (before : ∀ v : Symbol, s.codeLen[v.val] ≤ n) :
    (assignAll ps s).All fun u => ∀ v : Symbol, u.codeLen[v.val] ≤ n := by
  induction ps generalizing s with
  | nil => exact before
  | cons c ps ih =>
    simp only [assignAll]
    split
    · refine ih (fun d hd => short d (by simp [hd])) fun v => ?_
      rw [State.setCode_codeLen, Vector.getElem_set]
      split
      · exact short c (by simp)
      · exact before v
    · exact before

/-- What follows a body that ends in states of a kind may be exchanged for what agrees on them. -/
theorem Ran.andThen_congr {P : State → Prop} {r : Ran} {k k' : State → Ran} (h : r.All P)
    (same : ∀ s, P s → k s = k' s) : r.andThen k = r.andThen k' := by
  cases r with
  | ok s => exact same s h
  | error c st s => rfl
  | stuck f => rfl

/-- On a tree the walk gives the leaves their paths, left to right (42 R190). -/
theorem walk_eq_assignAll {node : Vector Node 513} {i : NodeIdx} {t : HuffTree} {ixs : List NodeIdx}
    (h : Represents node i t ixs) (k : Nat) (p : Bits) (s : State) (arena : s.node = node)
    (deep : t.leaves.length ≤ k) : walk k i p s = assignAll (t.paths p) s := by
  induction h generalizing k p s with
  | leaf i v h =>
    obtain ⟨k, rfl⟩ : ∃ j, k = j + 1 := ⟨k - 1, by simp [HuffTree.leaves] at deep; omega⟩
    simp [walk, arena, h, HuffTree.paths, assignAll]
  | node i l r tl tr il ir h _ _ ihl ihr =>
    have left := tl.leaves_pos
    have right := tr.leaves_pos
    simp only [HuffTree.leaves, List.length_append] at deep
    obtain ⟨k, rfl⟩ : ∃ j, k = j + 1 := ⟨k - 1, by omega⟩
    have split : walk (k + 1) i p s = (walk k l (p ++ [false]) s).andThen (walk k r (p ++ [true])) := by
      simp [walk, arena, h]
    rw [split, ihl k _ s arena (by omega), HuffTree.paths, assignAll_append]
    refine Ran.andThen_congr (assignAll_all _ s) fun u hu => ihr k _ u ?_ (by omega)
    obtain ⟨_, _, rfl⟩ := hu
    exact arena

/-- What the assignment leaves when no symbol repeats one that has a code: every listed symbol has its code, the others
keep theirs. -/
theorem assignAll_eq_ok {ps : List (Symbol × Bits)} {s u : State} (h : assignAll ps s = .ok u)
    (nonempty : ∀ c ∈ ps, c.2 ≠ []) :
    (ps.map Prod.fst).Nodup ∧ (∀ c ∈ ps, s.codeLen[c.1.val] = 0)
      ∧ (∀ c ∈ ps, u.codeLen[c.1.val] = c.2.length ∧ u.codeVal[c.1.val] = BitVec.ofNat 256 (valOf c.2))
      ∧ ∀ v : Symbol, v ∉ ps.map Prod.fst →
          u.codeLen[v.val] = s.codeLen[v.val] ∧ u.codeVal[v.val] = s.codeVal[v.val] := by
  induction ps generalizing s with
  | nil =>
    cases h
    simp
  | cons c ps ih =>
    simp only [assignAll] at h
    split at h
    · rename_i free
      obtain ⟨nodup, zero, assigned, kept⟩ := ih h fun d hd => nonempty d (by simp [hd])
      have other {v : Symbol} (hv : v ≠ c.1) : c.1.val ≠ v.val := fun e => hv (Fin.ext e.symm)
      have fresh : c.1 ∉ ps.map Prod.fst := by
        intro hm
        obtain ⟨d, hd, same⟩ := List.mem_map.mp hm
        have taken := zero d hd
        simp [same, nonempty c (by simp)] at taken
      have distinct {d : Symbol × Bits} (hd : d ∈ ps) : d.1 ≠ c.1 := fun e => fresh (List.mem_map.mpr ⟨d, hd, e⟩)
      refine ⟨by simpa using ⟨by simpa using fresh, nodup⟩, ?_, ?_, fun v hv => ?_⟩
      · rintro d (_ | ⟨_, hd⟩)
        · exact free
        · simpa [Vector.getElem_set, other (distinct hd)] using zero d hd
      · rintro d (_ | ⟨_, hd⟩)
        · have own := kept c.1 fresh
          simpa using own
        · exact assigned d hd
      · obtain ⟨hc, hps⟩ : v ≠ c.1 ∧ v ∉ ps.map Prod.fst := by simpa using hv
        have same := kept v hps
        simpa [Vector.getElem_set, other hc] using same
    · cases h

/-- With a tree in the arena and every code cleared, GENCODES gives the leaves their codes in order (42 R190, R191). -/
theorem assignCodes_eq_assignAll {s : State} {t : HuffTree} (tree : s.HoldsTree t)
    (cleared : ∀ v : Symbol, s.codeLen[v.val] = 0) : assignCodes s = assignAll t.codes s := by
  have fits := tree.leaves_le
  obtain ⟨ixs, represents, -⟩ := tree
  cases t with
  | leaf v =>
    cases represents with
    | leaf _ _ h => simp [assignCodes, h, HuffTree.codes, assignAll, cleared]
  | node l r =>
    have walked := walk_eq_assignAll represents Config.NODE_MAX [] s rfl (by simp only [Config.NODE_MAX]; omega)
    cases represents with
    | node _ i j _ _ _ _ h => simpa [assignCodes, h, HuffTree.codes] using walked

/-- A code table filled from empty with the codes of a tree holds its codes, and no leaf is repeated. -/
theorem holdsCodes_of_assignAll {s u : State} {t : HuffTree} (fits : t.leaves.length ≤ 257)
    (emptyLen : ∀ v : Symbol, s.codeLen[v.val] = 0) (emptyVal : ∀ v : Symbol, s.codeVal[v.val] = 0#256)
    (h : assignAll t.codes s = .ok u) : u.HoldsCodes t := by
  have nonempty : ∀ c ∈ t.codes, c.2 ≠ [] := fun c hc e => by
    simpa [e] using (HuffTree.length_of_mem_codes fits hc).1
  obtain ⟨nodup, -, assigned, kept⟩ := assignAll_eq_ok h nonempty
  rw [t.codes_fst] at nodup kept
  refine ⟨nodup, fun v p hp => assigned (v, p) hp, fun v hv => ?_⟩
  obtain ⟨len, val⟩ := kept v hv
  exact ⟨len.trans (emptyLen v), val.trans (emptyVal v)⟩

end Sys2Proof.Machine
end

section
/-! PROOFS. HDR_READ (spec/43 R216): the entries a node read fills hold a tree, in preorder. -/

namespace Sys2Proof.Machine

/-! A block of arena entries. -/

/-- The `m` arena indices from `n` on, ascending. -/
def block (n m : Nat) : List NodeIdx := (List.range' n m).map (Fin.ofNat 513)

@[simp] theorem length_block (n m : Nat) : (block n m).length = m := by simp [block]

theorem block_append (n m k : Nat) : block n (m + k) = block n m ++ block (n + m) k := by
  simp [block, ← List.range'_append_1]

theorem block_succ (n m : Nat) (h : n < 513) : block n (m + 1) = ⟨n, h⟩ :: block (n + 1) m := by
  simp [block, List.range'_succ, Fin.ofNat, Nat.mod_eq_of_lt h]

theorem mem_block {n m : Nat} (h : n + m ≤ 513) {i : NodeIdx} : i ∈ block n m ↔ n ≤ i.val ∧ i.val < n + m := by
  simp only [block, List.mem_map, List.mem_range'_1]
  constructor
  · rintro ⟨j, hj, rfl⟩
    simp only [Fin.val_ofNat]
    omega
  · intro hi
    exact ⟨i.val, hi, Fin.ext (Nat.mod_eq_of_lt i.isLt)⟩

theorem nodup_block {n m : Nat} (h : n + m ≤ 513) : (block n m).Nodup := by
  refine List.Nodup.map_on (fun a ha b hb e => ?_) List.nodup_range'
  simp only [List.mem_range'_1] at ha hb
  have := congrArg Fin.val e
  simp only [Fin.val_ofNat] at this
  omega

/-! A node read. -/

/-- What a successful node read has done: read a leaf into the next entry, or both subtrees of an internal node into
the entries after it (43 R216). -/
theorem readNode_got {k n m : Nat} {s u : State} {i : NodeIdx} (h : readNode (k + 1) n s = .got i m u) :
    ∃ (room : n < 513), i = ⟨n, room⟩
      ∧ ((∃ (v : Symbol) (w : State), m = n + 1 ∧ w.node = s.node ∧ u = w.setNode i (.leaf v))
        ∨ ∃ (m' : Nat) (l r : NodeIdx) (w x y : State), w.node = s.node ∧ readNode k (n + 1) w = .got l m' x
            ∧ readNode k m' x = .got r m y ∧ u = y.setNode i (.internal l r)) := by
  have arena {a : Nat} {b b' : State} {c : BitVec a} (h : readBits a b = some (c, b')) : b'.node = b.node := by
    rw [(readBits_eq_some h).1]
  unfold readNode at h
  split at h
  · cases h
  · rename_i f s1 flag
    split at h
    · rename_i room
      have weighed : (s1.setWeight ⟨n, room⟩ 0#32).node = s.node :=
        (State.setWeight_node s1 _ _).trans (arena flag)
      refine ⟨room, ?_⟩
      split at h
      · split at h
        · cases h
        · rename_i v s2 field
          split at h
          · cases h
            exact ⟨rfl, .inl ⟨_, s2, rfl, (arena field).trans weighed, rfl⟩⟩
          · cases h
      · split at h
        · cases h
        · rename_i l m' s2 left
          split at h
          · cases h
          · rename_i r m'' s3 right
            cases h
            exact ⟨rfl, .inr ⟨m', l, r, _, s2, s3, weighed, left, right, rfl⟩⟩
    · cases h

/-- A successful node read fills the entries from the next free one on with a tree in preorder, and leaves the entries
before them. -/
theorem represents_of_readNode {k n m : Nat} {s u : State} {i : NodeIdx} (h : readNode k n s = .got i m u) :
    ∃ t : HuffTree, i.val = n ∧ m = n + t.size ∧ m ≤ 513 ∧ Represents u.node i t (block n t.size)
      ∧ ∀ j : NodeIdx, j.val < n → u.node[j.val] = s.node[j.val] := by
  induction k generalizing n m s u i with
  | zero => cases h
  | succ k ih =>
    obtain ⟨room, rfl, ⟨v, w, rfl, arena, rfl⟩ | ⟨m', l, r, w, x, y, arena, left, right, rfl⟩⟩ := readNode_got h
    · refine ⟨.leaf v, rfl, rfl, room, ?_, fun j hj => ?_⟩
      · rw [HuffTree.size, block_succ n 0 room]
        exact .leaf _ v (by simp)
      · rw [State.setNode_node, Vector.getElem_set_ne _ _ (by simp; omega), arena]
    · obtain ⟨tl, hl, rfl, fitl, repl, keptl⟩ := ih left
      obtain ⟨tr, hr, rfl, fitr, repr, keptr⟩ := ih right
      refine ⟨.node tl tr, rfl, by simp only [HuffTree.size]; omega, fitr, ?_, fun j hj => ?_⟩
      · rw [HuffTree.size, block_succ n _ room, block_append]
        refine .node _ l r tl tr _ _ (by simp) (repl.congr fun j hj => ?_) (repr.congr fun j hj => ?_)
        · rw [mem_block (by omega)] at hj
          rw [State.setNode_node, Vector.getElem_set_ne _ _ (by simp; omega), keptr j hj.2]
        · rw [mem_block (by omega)] at hj
          rw [State.setNode_node, Vector.getElem_set_ne _ _ (by simp; omega)]
      · rw [State.setNode_node, Vector.getElem_set_ne _ _ (by simp; omega), keptr j (by omega), keptl j (by omega),
          arena]

/-! HDR_READ. -/

/-- The leaves among the first entries are counted over their block. -/
theorem leavesBelow_eq_countP {n : Nat} (s : State) (h : n ≤ 513) :
    leavesBelow n s = (block 0 n).countP fun i => s.node[i.val].isLeaf := by
  have entries : s.node.toList.take n = (block 0 n).map fun i => s.node[i.val] := by
    apply List.ext_getElem
    · simp [h]
    · intro i h₁ h₂
      have hi : i < n := by simpa using h₂
      simp [block, Nat.mod_eq_of_lt (show i < 513 by omega)]
  rw [leavesBelow, entries, List.countP_map]
  rfl

/-- What HDR_READ marks valid is a tree (43 R216, 10 R49). -/
theorem holdsTree_of_readNode {k m : Nat} {s u : State} {i : NodeIdx} (h : readNode k 0 s = .got i m u) :
    m ≤ 513 ∧ ∃ t, (u.validTree i m (leavesBelow m u)).HoldsTree t := by
  obtain ⟨t, -, size, fits, represents, -⟩ := represents_of_readNode h
  rw [Nat.zero_add] at size
  subst size
  refine ⟨fits, t, block 0 t.size, represents, nodup_block (by omega), fun i => ?_, ?_⟩
  · rw [mem_block (by omega)]
    simp
  · rw [State.validTree_leafCount, leavesBelow_eq_countP u fits]
    exact represents.countP_isLeaf

end Sys2Proof.Machine
end

section
/-! PROOFS. BUILD (spec/41 R170): the forest it grows, and the tree it leaves. -/

namespace Sys2Proof.Machine

/-! A queue of trees. -/

/-- The entries of a queue hold the trees listed, in the entries listed. -/
inductive Grove (node : Vector Node 513) : List NodeIdx → List HuffTree → List NodeIdx → Prop where
  | nil : Grove node [] [] []
  | cons {i : NodeIdx} {t : HuffTree} {ixs : List NodeIdx} {q : List NodeIdx} {ts : List HuffTree} {jxs : List NodeIdx}
      (h : Represents node i t ixs) (rest : Grove node q ts jxs) : Grove node (i :: q) (t :: ts) (ixs ++ jxs)

theorem Grove.congr {node node' : Vector Node 513} {q : List NodeIdx} {ts : List HuffTree} {ixs : List NodeIdx}
    (h : Grove node q ts ixs) (same : ∀ j ∈ ixs, node'[j.val] = node[j.val]) : Grove node' q ts ixs := by
  induction h with
  | nil => exact .nil
  | cons h _ ih =>
    exact .cons (h.congr fun j hj => same j (List.mem_append_left _ hj))
      (ih fun j hj => same j (List.mem_append_right _ hj))

/-- The order of the queue does not matter. -/
theorem Grove.perm {node : Vector Node 513} {q q' : List NodeIdx} {ts : List HuffTree} {ixs : List NodeIdx}
    (p : q.Perm q') (h : Grove node q ts ixs) :
    ∃ ts' ixs', Grove node q' ts' ixs' ∧ ts.Perm ts' ∧ ixs.Perm ixs' := by
  induction p generalizing ts ixs with
  | nil => exact ⟨ts, ixs, h, .rfl, .rfl⟩
  | cons i _ ih =>
    cases h with
    | cons h rest =>
      obtain ⟨ts', ixs', rest', pt, pi⟩ := ih rest
      exact ⟨_, _, .cons h rest', pt.cons _, pi.append_left _⟩
  | swap i j q =>
    cases h with
    | cons hj rest =>
      cases rest with
      | cons hi rest =>
        refine ⟨_, _, .cons hi (.cons hj rest), .swap _ _ _, ?_⟩
        rw [← List.append_assoc, ← List.append_assoc]
        exact List.perm_append_comm.append_right _
  | trans _ _ ih ih' =>
    obtain ⟨ts', ixs', h', pt, pi⟩ := ih h
    obtain ⟨ts'', ixs'', h'', pt', pi'⟩ := ih' h'
    exact ⟨ts'', ixs'', h'', pt.trans pt', pi.trans pi'⟩

/-! The forest. -/

/-- The queue's trees are disjoint, fill the entries allocated so far, and have the leaves `live`. -/
structure Forest.Grows (f : Forest) (live : List Symbol) (ts : List HuffTree) (ixs : List NodeIdx) : Prop where
  grove : Grove f.node f.pq ts ixs
  nodup : ixs.Nodup
  filled : ∀ i : NodeIdx, i ∈ ixs ↔ i.val < f.n
  leaves : (ts.flatMap HuffTree.leaves).Perm live
  sizes : f.n + f.pq.length = 2 * live.length

/-- An allocated entry that joins the trees in `jxs` to a tree `t` is put beside the trees that stay queued. -/
theorem Forest.grows_alloc {f : Forest} {live : List Symbol} {ts : List HuffTree} {ixs jxs : List NodeIdx}
    {t : HuffTree} {nd : Node} (w : Word) (room : f.n < 513) (grove : Grove f.node f.pq ts ixs)
    (nodup : (jxs ++ ixs).Nodup) (filled : ∀ i : NodeIdx, i ∈ jxs ++ ixs ↔ i.val < f.n)
    (joined : ∀ node : Vector Node 513, (∀ j ∈ jxs, node[j.val] = f.node[j.val]) → node[f.n] = nd →
      Represents node ⟨f.n, room⟩ t (⟨f.n, room⟩ :: jxs))
    (leaves : ((t :: ts).flatMap HuffTree.leaves).Perm live) (sizes : f.n + f.pq.length + 2 = 2 * live.length) :
    ∃ ts' ixs', (f.alloc nd w).Grows live ts' ixs' := by
  have kept {j : NodeIdx} (hj : j ∈ jxs ++ ixs) : (f.node.set f.n nd room)[j.val] = f.node[j.val] :=
    Vector.getElem_set_ne _ _ (Nat.ne_of_gt ((filled j).mp hj))
  have new := joined (f.node.set f.n nd room) (fun j hj => kept (List.mem_append_left _ hj)) (by simp)
  have queued := Grove.cons new (grove.congr fun j hj => kept (List.mem_append_right _ hj))
  obtain ⟨ts', ixs', grove', pt, pi⟩ := queued.perm (List.perm_append_singleton _ _).symm
  have fresh : (⟨f.n, room⟩ : NodeIdx) ∉ jxs ++ ixs := fun h => Nat.lt_irrefl _ ((filled _).mp h)
  rw [Forest.alloc_of_room nd w room]
  refine ⟨ts', ixs', grove', pi.nodup_iff.mp (List.nodup_cons.mpr ⟨fresh, nodup⟩), fun i => ?_,
    (pt.symm.flatMap_right _).trans leaves, ?_⟩
  · rw [← pi.mem_iff, List.cons_append, List.mem_cons, filled, Fin.ext_iff]
    show i.val = f.n ∨ i.val < f.n ↔ i.val < f.n + 1
    omega
  · simp only [List.length_append, List.length_singleton]
    omega

theorem Forest.n_alloc {f : Forest} (room : f.n < 513) (nd : Node) (w : Word) : (f.alloc nd w).n = f.n + 1 := by
  rw [Forest.alloc_of_room nd w room]

theorem Forest.length_pq_alloc {f : Forest} (room : f.n < 513) (nd : Node) (w : Word) :
    (f.alloc nd w).pq.length = f.pq.length + 1 := by
  rw [Forest.alloc_of_room nd w room]
  simp

/-- The leaves are allocated in order, one for each symbol of nonzero count (41 R170, R171). -/
theorem addLeaves_grows {xs : List (Symbol × Nat)} {f : Forest} {live : List Symbol} {ts : List HuffTree}
    {ixs : List NodeIdx} (h : f.Grows live ts ixs) (queued : f.n = f.pq.length) (fits : live.length + xs.length ≤ 257) :
    (∃ ts' ixs', (addLeaves xs f).Grows (live ++ (xs.filter fun x => x.2 != 0).map Prod.fst) ts' ixs')
      ∧ (addLeaves xs f).n = (addLeaves xs f).pq.length := by
  induction xs generalizing f live ts ixs with
  | nil => exact ⟨⟨ts, ixs, by simpa [addLeaves] using h⟩, queued⟩
  | cons x xs ih =>
    obtain ⟨v, c⟩ := x
    simp only [List.length_cons] at fits
    by_cases zero : c = 0
    · simpa [addLeaves, zero] using ih h queued (by omega)
    · have room : f.n < 513 := by
        have := h.sizes
        omega
      obtain ⟨ts', ixs', grown⟩ := Forest.grows_alloc (jxs := []) (t := .leaf v) (nd := .leaf v) (live := live ++ [v])
        (BitVec.ofNat 32 c) room h.grove h.nodup h.filled (fun node _ entry => .leaf _ v entry)
        (by simpa [HuffTree.leaves] using (h.leaves.cons v).trans (List.perm_append_singleton v live).symm)
        (by have := h.sizes; simp only [List.length_append, List.length_singleton]; omega)
      have next := ih grown (by rw [Forest.n_alloc room, Forest.length_pq_alloc room, queued]) (by simp; omega)
      simpa [addLeaves, zero] using next

/-- A merge joins the trees of two queued entries (41 R170, R172). -/
theorem Forest.Grows.merge {f : Forest} {live : List Symbol} {ts : List HuffTree} {ixs q : List NodeIdx} {a b : NodeIdx}
    (h : f.Grows live ts ixs) (room : f.n < 513) (queue : f.pq.Perm (a :: b :: q)) (w : Word) :
    ∃ ts' ixs', ({ f with pq := q }.alloc (.internal a b) w).Grows live ts' ixs' := by
  obtain ⟨ts', ixs', grove, pt, pi⟩ := h.grove.perm queue
  obtain _ | ⟨ha, grove⟩ := grove
  obtain _ | ⟨hb, grove⟩ := grove
  rename_i ta ia tb ib ts' ixs'
  rw [← List.append_assoc] at pi
  have leaves : ((HuffTree.node ta tb :: ts').flatMap HuffTree.leaves).Perm live := by
    simpa [HuffTree.leaves] using (pt.symm.flatMap_right HuffTree.leaves).trans h.leaves
  have sizes : f.n + q.length + 2 = 2 * live.length := by rw [← h.sizes, queue.length_eq]; rfl
  exact Forest.grows_alloc (f := { f with pq := q }) (nd := .internal a b) w room grove (pi.nodup_iff.mp h.nodup)
    (fun i => by rw [← pi.mem_iff, h.filled])
    (fun node same entry => .node _ a b ta tb ia ib entry (ha.congr fun j hj => same j (by simp [hj]))
      (hb.congr fun j hj => same j (by simp [hj]))) leaves sizes

/-- The merges leave one tree with every leaf (41 R170, R174). -/
theorem mergeAll_grows {k : Nat} {f : Forest} {live : List Symbol} {ts : List HuffTree} {ixs : List NodeIdx}
    (h : f.Grows live ts ixs) (fits : live.length ≤ 257) (queued : f.pq ≠ []) (rounds : f.pq.length ≤ k) :
    ∃ ts' ixs' root, (mergeAll k f).Grows live ts' ixs' ∧ (mergeAll k f).pq = [root] := by
  induction k generalizing f ts ixs with
  | zero => exact absurd (List.eq_nil_of_length_eq_zero (Nat.le_zero.mp rounds)) queued
  | succ k ih =>
    unfold mergeAll
    split
    · rename_i exhausted
      exact absurd (extractMin_eq_none.mp exhausted) queued
    · rename_i a rest first
      have pa := extractMin_perm first
      split
      · rename_i exhausted
        rw [extractMin_eq_none.mp exhausted] at pa
        exact ⟨ts, ixs, a, h, List.perm_singleton.mp pa⟩
      · rename_i b q second
        have queue : f.pq.Perm (a :: b :: q) := pa.trans ((extractMin_perm second).cons a)
        have length : f.pq.length = q.length + 2 := queue.length_eq
        have room : f.n < 513 := by
          have := h.sizes
          omega
        obtain ⟨ts', ixs', grown⟩ := h.merge room queue (f.weight[a.val] + f.weight[b.val])
        have shorter := Forest.length_pq_alloc (f := { f with pq := q }) room (.internal a b)
          (f.weight[a.val] + f.weight[b.val])
        dsimp only at shorter
        exact ih grown (List.ne_nil_of_length_pos (by omega)) (by omega)

/-! The tree BUILD leaves. -/

theorem length_live_le (s : State) : s.live.length ≤ 257 :=
  (List.length_filter_le _ _).trans allSymbols_length.le

/-- The end-of-stream symbol is always live (10 R45). -/
theorem eos_mem_live (s : State) : Config.EOS ∈ s.live := by
  have counted : s.count 256 = 1 := dif_neg (by decide)
  have listed : (256 : Symbol) ∈ allSymbols := List.mem_map.mpr ⟨256, by simp, rfl⟩
  simp [State.live, listed, counted]

theorem leafForest_grows (s : State) :
    (∃ ts ixs, (leafForest s).Grows s.live ts ixs) ∧ (leafForest s).n = (leafForest s).pq.length := by
  have start : (emptyForest s).Grows [] [] [] := ⟨.nil, List.nodup_nil, by simp [emptyForest], by simp, rfl⟩
  have grown := addLeaves_grows (xs := allSymbols.zip s.counts) start rfl (by simp [allSymbols_length])
  have live : ((allSymbols.zip s.counts).filter fun x => x.2 != 0).map Prod.fst = s.live := by
    rw [zip_counts, List.filter_map, List.map_map, State.live]
    exact List.map_id _
  rw [live] at grown
  exact grown

/-- The tree BUILD marks valid has the live symbols as its leaves, and its entries fit the arena (41 R170, R174). -/
theorem builtForest_grows (s : State) : (leafForest s).n = s.live.length ∧ (builtForest s).n + 1 = 2 * s.live.length
    ∧ ∃ (t : HuffTree) (ixs : List NodeIdx) (root : NodeIdx), (builtForest s).pq = [root]
      ∧ Represents (builtForest s).node root t ixs ∧ ixs.Nodup ∧ (∀ i : NodeIdx, i ∈ ixs ↔ i.val < (builtForest s).n)
      ∧ t.leaves.Perm s.live := by
  obtain ⟨⟨ts, ixs, grown⟩, queued⟩ := leafForest_grows s
  have sizes := grown.sizes
  have nonempty := List.length_pos_of_mem (eos_mem_live s)
  obtain ⟨ts', ixs', root, built, one⟩ := mergeAll_grows grown (length_live_le s)
    (List.ne_nil_of_length_pos (by omega)) le_rfl
  change (builtForest s).Grows s.live ts' ixs' at built
  change (builtForest s).pq = [root] at one
  have sizes' := built.sizes
  have grove := built.grove
  rw [one] at sizes' grove
  obtain _ | ⟨represents, _ | _⟩ := grove
  refine ⟨by omega, sizes', _, _, root, one, represents, ?_, ?_, ?_⟩
  · simpa using built.nodup
  · simpa using built.filled
  · simpa using built.leaves

theorem holdsTree_of_build (s : State) : (builtForest s).n ≤ 513 ∧ (leafForest s).n ≤ 257
    ∧ ∃ t, ({ s.invalidate with node := (builtForest s).node, weight := (builtForest s).weight }.validTree
        ((builtForest s).pq.headD 0) (builtForest s).n (leafForest s).n).HoldsTree t ∧ t.leaves.Perm s.live := by
  obtain ⟨leaves, sizes, t, ixs, root, one, represents, nodup, filled, live⟩ := builtForest_grows s
  have fits := length_live_le s
  refine ⟨by omega, by omega, t, ⟨ixs, ?_, nodup, filled, ?_⟩, live⟩
  · rw [one]
    exact represents
  · rw [State.validTree_leafCount, leaves, live.length_eq]

end Sys2Proof.Machine
end

section
/-! PROOFS. The invariant (spec/10 R35 to R56): its part about the storage, which the bodies keep, its part about the
flags and the error capture, which the completion keeps, and both through every step. -/

namespace Sys2Proof.Machine

/-! The input position (10 R56). -/

/-- `0 <= in_pos <= |in_src|` (10 R56). -/
def InBounds (s : State) : Prop := s.inPos ≤ s.inSrc.length

theorem inBounds_of_readBits {n : Nat} {s s' : State} {v : BitVec n} (h : readBits n s = some (v, s')) :
    InBounds s' := by
  obtain ⟨rfl, bound, -⟩ := readBits_eq_some h
  exact bound

theorem emitCode_inBounds {v : Symbol} {s : State} (h : InBounds s) : (emitCode v s).All InBounds := by
  unfold emitCode
  split <;> exact h

theorem encodeLoop_inBounds {k : Nat} {s : State} (h : InBounds s) : (encodeLoop k s).All InBounds := by
  induction k generalizing s with
  | zero => exact h
  | succ k ih =>
    unfold encodeLoop
    split
    · exact h
    · rename_i v s1 byte
      exact (emitCode_inBounds (inBounds_of_readBits byte)).andThen (fun t ht => ih (s := t.countSymbol) ht)
        fun _ h => h

theorem runEncode_inBounds {s : State} (h : InBounds s) : (runEncode s).All InBounds := by
  unfold runEncode
  split
  · exact (encodeLoop_inBounds (s := s.resetSymCount) h).andThen (fun t ht => emitCode_inBounds ht) fun _ h => h
  · exact h

theorem decodeLoop_inBounds {k : Nat} {pos : NodeIdx} {s : State} (h : InBounds s) :
    (decodeLoop k pos s).All InBounds := by
  induction k generalizing pos s with
  | zero => exact h
  | succ k ih =>
    unfold decodeLoop
    split
    · exact h
    · rename_i b s1 bit
      have h1 := inBounds_of_readBits bit
      split
      · trivial
      · split
        · exact ih h1
        · split
          · exact h1
          · exact ih (s := (s1.writeBits _ _).countSymbol) h1

theorem runDecode_inBounds {s : State} (h : InBounds s) : (runDecode s).All InBounds := by
  unfold runDecode
  split
  · exact decodeLoop_inBounds (s := s.resetSymCount) h
  · exact h

theorem runMagicRead_inBounds {m : Word} {s : State} (h : InBounds s) : (runMagicRead m s).All InBounds := by
  unfold runMagicRead
  split
  · exact h
  · rename_i v s1 marker
    split <;> exact inBounds_of_readBits marker

theorem readNode_inBounds {k n : Nat} {s : State} (h : InBounds s) : InBounds (readNode k n s).state := by
  induction k generalizing n s with
  | zero => exact h
  | succ k ih =>
    unfold readNode
    split
    · exact h
    · rename_i f s1 flag
      have h1 := inBounds_of_readBits flag
      split
      · split
        · split
          · exact h1
          · rename_i v s2 field
            have h2 := inBounds_of_readBits field
            split <;> exact h2
        · have left (room : n < 513) := ih (n := n + 1) (s := s1.setWeight ⟨n, room⟩ 0#32) h1
          split
          · rename_i c s2 hl
            simpa [hl, NodeRead.state] using left ‹_›
          · rename_i l n2 s2 hl
            have right := ih (n := n2) (s := s2) (by simpa [hl, NodeRead.state] using left ‹_›)
            split
            · rename_i c s3 hr
              simpa [hr, NodeRead.state] using right
            · rename_i r n3 s3 hr
              rw [hr] at right
              exact right
      · exact h1

/-! The storage. -/

/-- The arena, the code table and their valid flags. -/
def State.storage (s : State) :
    Vector Node 513 × Nat × Nat × NodeIdx × Vector Nat 257 × Vector (BitVec 256) 257 × Bool × Bool :=
  (s.node, s.nodeCount, s.leafCount, s.root, s.codeLen, s.codeVal, s.treeValid, s.codesValid)

/-- The part of the invariant about the storage and the input. -/
structure State.DataInv (s : State) : Prop where
  in_pos_le : InBounds s
  node_count_le : s.nodeCount ≤ 513
  leaf_count_le : s.leafCount ≤ 257
  code_len_le : ∀ v : Symbol, s.codeLen[v.val] ≤ 256
  codes_tree : s.codesValid = true → s.treeValid = true
  tree : s.treeValid = true → ∃ t, s.HoldsTree t
  codes : s.codesValid = true → ∃ t, s.HoldsTree t ∧ s.HoldsCodes t

/-- It speaks of the storage and the input position only. -/
theorem State.DataInv.of_storage {s t : State} (h : s.DataInv) (same : t.storage = s.storage) (bounds : InBounds t) :
    t.DataInv := by
  obtain ⟨-, nodes, leaves, len, flags, tree, codes⟩ := h
  cases s
  cases t
  cases same
  exact ⟨bounds, nodes, leaves, len, flags, tree, codes⟩

theorem dataInv_of_outOnly {s t : State} (h : s.DataInv) : OutOnly s t → t.DataInv := by
  rintro ⟨b, rfl⟩
  exact h.of_storage rfl h.in_pos_le

theorem dataInv_of_recodes {s t : State} (h : s.DataInv) (bounds : InBounds t) : Recodes s t → t.DataInv := by
  rintro ⟨n, b, k, rfl⟩
  exact h.of_storage rfl bounds

/-- With both valid flags clear only the ranges are left to show. -/
theorem State.DataInv.of_invalid {s : State} (bounds : InBounds s) (nodes : s.nodeCount ≤ 513)
    (leaves : s.leafCount ≤ 257) (len : ∀ v : Symbol, s.codeLen[v.val] ≤ 256) (noTree : s.treeValid = false)
    (noCodes : s.codesValid = false) : s.DataInv :=
  ⟨bounds, nodes, leaves, len, by simp [noCodes], by simp [noTree], by simp [noCodes]⟩

/-- A new tree without codes. -/
theorem State.DataInv.of_tree {s : State} {t : HuffTree} (bounds : InBounds s) (nodes : s.nodeCount ≤ 513)
    (len : ∀ v : Symbol, s.codeLen[v.val] ≤ 256) (tree : s.HoldsTree t) (noCodes : s.codesValid = false) :
    s.DataInv := by
  have leaves : s.leafCount ≤ 257 := by
    have fits := tree.leaves_le
    obtain ⟨_, -, -, -, count⟩ := tree
    omega
  exact ⟨bounds, nodes, leaves, len, by simp [noCodes], fun _ => ⟨t, tree⟩, by simp [noCodes]⟩

/-- Two properties of every end of a body hold together. -/
theorem Ran.All.and {P Q : State → Prop} {r : Ran} (h : r.All P) (k : r.All Q) : r.All fun s => P s ∧ Q s := by
  cases r with
  | ok s => exact ⟨h, k⟩
  | error c st s => exact ⟨h, k⟩
  | stuck f => trivial

theorem runBuild_dataInv {s : State} (h : s.DataInv) : (runBuild s).All State.DataInv := by
  by_cases overflow : totalWeight s > 2 ^ 32 - 1
  · rw [runBuild_of_overflow overflow]
    exact .of_invalid h.in_pos_le h.node_count_le h.leaf_count_le h.code_len_le rfl rfl
  · rw [runBuild_of_fits overflow]
    obtain ⟨nodes, -, t, tree, -⟩ := holdsTree_of_build s
    exact .of_tree h.in_pos_le nodes h.code_len_le tree rfl

/-- A code table being written is not marked valid. -/
theorem dataInv_of_codesOnly {s t : State} (h : s.DataInv) (invalid : s.codesValid = false) (written : CodesOnly s t)
    (len : ∀ v : Symbol, t.codeLen[v.val] ≤ 256) : t.DataInv := by
  obtain ⟨codeLen, codeVal, rfl⟩ := written
  exact ⟨h.in_pos_le, h.node_count_le, h.leaf_count_le, len, h.codes_tree, h.tree, by simp [invalid]⟩

theorem runGencodes_dataInv {s : State} (h : s.DataInv) : (runGencodes s).All State.DataInv := by
  have cleared : s.invalidateCodes.clearCodes.DataInv :=
    ⟨h.in_pos_le, h.node_count_le, h.leaf_count_le, by simp, by simp, h.tree, by simp⟩
  unfold runGencodes
  split
  · rename_i valid
    obtain ⟨t, tree⟩ := h.tree valid
    have holds : s.invalidateCodes.clearCodes.HoldsTree t := tree
    have fits := tree.leaves_le
    rw [assignCodes_eq_assignAll holds (by simp)]
    have written := (assignAll_all t.codes s.invalidateCodes.clearCodes).and
      (assignAll_codeLen_le (fun c hc => (HuffTree.length_of_mem_codes fits hc).2) (by simp))
    cases assigned : assignAll t.codes s.invalidateCodes.clearCodes with
    | ok u =>
      rw [assigned] at written
      obtain ⟨codes, len⟩ := written
      have table : u.HoldsCodes t := holdsCodes_of_assignAll fits (by simp) (by simp) assigned
      obtain ⟨_, _, rfl⟩ := codes
      exact ⟨h.in_pos_le, h.node_count_le, h.leaf_count_le, len, fun _ => valid, fun _ => ⟨t, tree⟩,
        fun _ => ⟨t, tree, table⟩⟩
    | error c st u =>
      rw [assigned] at written
      exact dataInv_of_codesOnly cleared rfl written.1 written.2
    | stuck f => trivial
  · exact ⟨h.in_pos_le, h.node_count_le, h.leaf_count_le, h.code_len_le, by simp, h.tree, by simp⟩

theorem runHdrRead_dataInv {s : State} (h : s.DataInv) : (runHdrRead s).All State.DataInv := by
  have frame := readNode_state (Config.NODE_MAX + 1) 0 s.invalidate
  have bounds := readNode_inBounds (k := Config.NODE_MAX + 1) (n := 0) (s := s.invalidate) h.in_pos_le
  unfold runHdrRead
  split
  · rename_i c t read
    rw [read] at frame bounds
    obtain ⟨_, _, _, rfl : t = _⟩ := frame
    exact .of_invalid bounds h.node_count_le h.leaf_count_le h.code_len_le rfl rfl
  · rename_i r n t read
    rw [read] at frame bounds
    obtain ⟨fits, tr, tree⟩ := holdsTree_of_readNode read
    obtain ⟨_, _, _, rfl : t = _⟩ := frame
    exact .of_tree bounds fits h.code_len_le tree rfl

theorem runMagicRead_dataInv {m : Word} {s : State} (h : s.DataInv) : (runMagicRead m s).All State.DataInv :=
  ((runMagicRead_all m s).and (runMagicRead_inBounds h.in_pos_le)).mono fun _ ⟨⟨_, read⟩, bounds⟩ =>
    h.of_storage (by rw [read]; rfl) bounds

theorem runEncode_dataInv {s : State} (h : s.DataInv) : (runEncode s).All State.DataInv :=
  ((runEncode_all s).and (runEncode_inBounds h.in_pos_le)).mono fun _ ⟨recoded, bounds⟩ =>
    dataInv_of_recodes h bounds recoded

theorem runDecode_dataInv {s : State} (h : s.DataInv) : (runDecode s).All State.DataInv :=
  ((runDecode_all s).and (runDecode_inBounds h.in_pos_le)).mono fun _ ⟨recoded, bounds⟩ =>
    dataInv_of_recodes h bounds recoded

theorem runFlush_dataInv {s : State} (h : s.DataInv) : (runFlush s).All State.DataInv :=
  (runFlush_all s).mono fun _ => dataInv_of_outOnly h

theorem runMagicWrite_dataInv {m : Word} {s : State} (h : s.DataInv) : (runMagicWrite m s).All State.DataInv :=
  (runMagicWrite_all m s).mono fun _ => dataInv_of_outOnly h

theorem runHdrWrite_dataInv {s : State} (h : s.DataInv) : (runHdrWrite s).All State.DataInv :=
  (runHdrWrite_all s).mono fun _ => dataInv_of_outOnly h

/-- What each of two bodies keeps is kept by both run one after the other. -/
theorem Ran.All.thenKeeps {P : State → Prop} {r : Ran} {k : State → Ran} (h : r.All P) (hk : ∀ {s}, P s → (k s).All P) :
    (r.andThen k).All P :=
  h.andThen (fun _ => hk) fun _ h => h

/-- Every body keeps the storage's part of the invariant. -/
theorem bodyOf_dataInv (i : Instr) {s : State} (h : s.DataInv) : (bodyOf i s).All State.DataInv := by
  cases i with
  | nop => exact h
  | clear => exact .of_invalid h.in_pos_le (Nat.zero_le _) (Nat.zero_le _) h.code_len_le rfl rfl
  | flush => exact runFlush_dataInv h
  | build => exact runBuild_dataInv h
  | gencodes => exact runGencodes_dataInv h
  | magicWrite => exact runMagicWrite_dataInv h
  | hdrWrite => exact runHdrWrite_dataInv h
  | magicRead => exact runMagicRead_dataInv h
  | hdrRead => exact runHdrRead_dataInv h
  | encode => exact runEncode_dataInv h
  | decode => exact runDecode_dataInv h
  | compress =>
    exact (((((runBuild_dataInv h).thenKeeps runGencodes_dataInv).thenKeeps runMagicWrite_dataInv).thenKeeps
      runHdrWrite_dataInv).thenKeeps runEncode_dataInv).thenKeeps runFlush_dataInv
  | decompress =>
    exact (((runMagicRead_dataInv h).thenKeeps runHdrRead_dataInv).thenKeeps runDecode_dataInv).thenKeeps
      runFlush_dataInv

/-! The flags and the error capture. -/

/-- The part of the invariant about the flags, the error capture and the pending command. -/
structure State.ControlInv (s : State) : Prop where
  busy_pending : s.busy = s.pending.isSome
  done_idle : s.done = true → s.busy = false ∧ s.err = false
  err_busy : s.busy = true → s.err = true → s.pending = some 0x00000001#32
  err_capture : s.err = false → s.cause = 0#8 ∧ s.op = 0#8 ∧ s.stepOp = 0#8 ∧ s.errPos = 0#32
  cause_known : s.err = true → ∃ c : Cause, s.cause = c.code

theorem State.inv_iff {s : State} : s.Inv ↔ s.ControlInv ∧ s.DataInv :=
  ⟨fun ⟨a, b, c, d, e, f, g, h, i, j, k, l⟩ => ⟨⟨a, b, c, d, e⟩, ⟨f, g, h, i, j, k, l⟩⟩,
    fun ⟨⟨a, b, c, d, e⟩, ⟨f, g, h, i, j, k, l⟩⟩ => ⟨a, b, c, d, e, f, g, h, i, j, k, l⟩⟩

theorem State.ControlInv.of_control {s t : State} (h : s.ControlInv) (same : t.control = s.control) : t.ControlInv := by
  obtain ⟨pending, done, clear, capture, cause⟩ := h
  cases s
  cases t
  cases same
  exact ⟨pending, done, clear, capture, cause⟩

/-- A completion with an error: DONE, cleared at acceptance, stays clear (40 R153, 60 R310). -/
theorem State.ControlInv.failedWith {s : State} (h : s.ControlInv) (busy : s.busy = true) (c : Cause)
    (op st : BitVec 8) : (s.failedWith c.code op st).ControlInv where
  busy_pending := rfl
  done_idle done := by
    have idle := (h.done_idle done).1
    simp [busy] at idle
  err_busy := by simp
  err_capture := by simp
  cause_known _ := ⟨c, rfl⟩

/-- A completion without error, of a state with no error pending (40 R153). -/
theorem State.ControlInv.succeeded {s : State} (h : s.ControlInv) (noErr : s.err = false) : s.succeeded.ControlInv where
  busy_pending := rfl
  done_idle _ := ⟨rfl, noErr⟩
  err_busy := by simp
  err_capture := h.err_capture
  cause_known := h.cause_known

/-- The command completed beside a pending error is CLEAR (60 R312). -/
theorem State.ControlInv.noErr {s : State} {w : Word} {i : Instr} (h : s.ControlInv) (busy : s.busy = true)
    (pending : s.pending = some w) (decoded : decode w = .ok i) (other : i ≠ .clear) : s.err = false := by
  by_contra err
  have clear := h.err_busy busy (by simpa using err)
  rw [pending] at clear
  cases clear
  cases decoded
  exact other rfl

/-- A completed command leaves the flags and the error capture in order. -/
theorem controlInv_of_complete {s t : State} {w : Word} {i : Instr} (h : s.ControlInv) (busy : s.busy = true)
    (pending : s.pending = some w) (decoded : decode w = .ok i) (done : complete (opcodeOf i) (bodyOf i s) = .next t) :
    t.ControlInv := by
  by_cases clear : i = .clear
  · subst clear
    cases done
    exact ⟨rfl, fun _ => ⟨rfl, rfl⟩, by simp, fun _ => ⟨rfl, rfl, rfl, rfl⟩, nofun⟩
  · obtain ⟨u, frame, ended⟩ := (bodyOf_frame clear s).complete done
    have control := h.of_control frame.control
    have same := frame.control
    simp only [State.control, Prod.mk.injEq] at same
    obtain ⟨sameBusy, -, -, sameErr, -⟩ := same
    obtain rfl | ⟨c, st, rfl⟩ := ended
    · exact control.succeeded (sameErr.trans (h.noErr busy pending decoded clear))
    · exact control.failedWith (sameBusy.trans busy) c _ _

theorem dataInv_of_complete {s t : State} {i : Instr} {o : BitVec 8} (h : s.DataInv)
    (done : complete o (bodyOf i s) = .next t) : t.DataInv := by
  obtain ⟨u, data, rfl | ⟨c, st, rfl⟩⟩ := (bodyOf_dataInv i h).complete done
  all_goals exact data.of_storage rfl data.in_pos_le

/-! The host's moves. -/

theorem State.ControlInv.acknowledge {s : State} (h : s.ControlInv) (idle : s.busy = false) :
    s.acknowledge.ControlInv where
  busy_pending := h.busy_pending
  done_idle _ := ⟨idle, rfl⟩
  err_busy := by simp
  err_capture _ := ⟨rfl, rfl, rfl, rfl⟩
  cause_known := by simp

theorem State.ControlInv.clearDone {s : State} (h : s.ControlInv) : s.clearDone.ControlInv :=
  ⟨h.busy_pending, by simp, h.err_busy, h.err_capture, h.cause_known⟩

/-- A STATUS write while idle clears DONE, the error or DROP, in any combination (40 R158). -/
theorem State.ControlInv.statusWrite {s : State} (h : s.ControlInv) (idle : s.busy = false) (v : Word) :
    (s.statusWrite v).ControlInv := by
  have first : (if v.getLsbD 1 then s.clearDone else s).ControlInv
      ∧ (if v.getLsbD 1 then s.clearDone else s).busy = false := by
    split
    · exact ⟨h.clearDone, idle⟩
    · exact ⟨h, idle⟩
  unfold State.statusWrite
  generalize (if v.getLsbD 1 then s.clearDone else s) = s1 at first
  obtain ⟨control, idle⟩ := first
  have acknowledged := control.acknowledge idle
  dsimp only
  split_ifs
  · exact acknowledged.of_control rfl
  · exact control.of_control rfl
  · exact acknowledged
  · exact control

/-- Acceptance of a command, with an error pending of CLEAR only (40 R152, 60 R312). -/
theorem State.ControlInv.accept {s : State} (h : s.ControlInv) {w : Word} (clear : s.err = true → w = 0x00000001#32) :
    (s.accept w).ControlInv where
  busy_pending := rfl
  done_idle := by simp
  err_busy _ err := congrArg some (clear err)
  err_capture := h.err_capture
  cause_known := h.cause_known

theorem resetMove_inv (s : State) : s.resetMove.Inv :=
  State.inv_iff.mpr ⟨⟨rfl, nofun, nofun, fun _ => ⟨rfl, rfl, rfl, rfl⟩, nofun⟩,
    .of_invalid le_rfl (Nat.zero_le _) (Nat.zero_le _) (by simp [State.resetMove, State.reset]) rfl rfl⟩

/-- Every host move keeps the invariant. -/
theorem HostMove.inv {s t : State} {a : HostAction} (move : HostMove s a t) (h : s.Inv) : t.Inv := by
  obtain ⟨control, data⟩ := State.inv_iff.mp h
  have bounds := data.in_pos_le
  cases move with
  | reset => exact resetMove_inv s
  | accept off width v idle clear =>
    exact State.inv_iff.mpr ⟨control.accept clear, data.of_storage rfl bounds⟩
  | status off width v idle =>
    refine State.inv_iff.mpr ⟨control.statusWrite idle v, ?_⟩
    obtain ⟨_, _, _, _, _, _, _, frame⟩ := statusWrite_frame s v
    rw [frame]
    exact data.of_storage rfl bounds
  | attachIn b => exact State.inv_iff.mpr ⟨control.of_control rfl, data.of_storage rfl (Nat.zero_le _)⟩
  | _ => exact State.inv_iff.mpr ⟨control.of_control rfl, data.of_storage rfl bounds⟩

theorem popTurn_inv {s : State} (h : s.Inv) : s.popTurn.Inv := by
  obtain ⟨control, data⟩ := State.inv_iff.mp h
  exact State.inv_iff.mpr ⟨control.of_control rfl, data.of_storage rfl data.in_pos_le⟩

/-- Settles O54: the bodies keep the storage's part, the completion the flags' part, and every host move both. -/
theorem stepKeepsTheInvariant : Obligations.StepKeepsTheInvariant := by
  intro s t inv h
  have popped := popTurn_inv inv
  obtain ⟨control, data⟩ := State.inv_iff.mp popped
  obtain ⟨-, -, rfl⟩ | ⟨w, i, -, busy, pending, decoded, done⟩ | ⟨w, -, busy, rfl⟩ | ⟨a, -, move⟩ := step_cases h
  · exact popped
  · exact State.inv_iff.mpr ⟨controlInv_of_complete control busy pending decoded done, dataInv_of_complete data done⟩
  · exact State.inv_iff.mpr ⟨control.failedWith busy _ _ _, data.of_storage rfl data.in_pos_le⟩
  · exact move.inv popped

end Sys2Proof.Machine
end

section
/-! PROOFS. The input and the register window from the host's side (spec/20 R83 to R92): what `readBits` answers, which
accesses are refused, which offsets and bits a write leaves alone, and that a read leaves no trace in HTB. -/

namespace Sys2Proof.Machine

/-! Reading the input. -/

theorem readBits_of_fits {n : Nat} {s : State} (fits : s.inPos + n ≤ s.inSrc.length) :
    readBits n s = some (BitVec.ofNat n (valOf ((s.inSrc.drop s.inPos).take n)), { s with inPos := s.inPos + n }) :=
  if_neg (Nat.not_lt.mpr fits)

/-- A field as wide as a bit sequence holds the sequence's whole value, so it is written as that sequence. -/
theorem bitsOf_ofNat_valOf {n : Nat} {c : Bits} (width : c.length = n) :
    bitsOf n (BitVec.ofNat n (valOf c)).toNat = c := by
  subst width
  rw [BitVec.toNat_ofNat, bitsOf_mod_two_pow _ le_rfl, bitsOf_valOf]

/-- Settles O5: past the end `readBits` answers EOI; within the input its field is exactly the bits it takes. -/
theorem readBitsIsAllOrNothing : Obligations.ReadBitsIsAllOrNothing := by
  refine fun n s => ⟨readBits_eq_none.mpr, fun fits => ⟨_, readBits_of_fits fits, bitsOf_ofNat_valOf ?_⟩⟩
  rw [List.length_take, List.length_drop]
  omega

/-! Which accesses are admitted. -/

theorem admitted_iff {off : Offset} {width : Nat} : admitted off width = true ↔ width = 32 ∧ off.toNat % 4 = 0 := by
  simp [admitted]

theorem step_regRead {s : State} {off : Offset} (ht : s.turn = .host (.regRead off 32)) (aligned : off.toNat % 4 = 0) :
    step s = .next (s.popTurn.readReg (regAt off)) := by
  rw [step_of_host ht, hostTurn, if_pos (admitted_iff.mpr ⟨rfl, aligned⟩)]

theorem step_regWrite {s : State} {off : Offset} {x : Word} (ht : s.turn = .host (.regWrite off 32 x))
    (aligned : off.toNat % 4 = 0) : step s = .next (s.popTurn.writeReg (regAt off) x) := by
  rw [step_of_host ht, hostTurn, if_pos (admitted_iff.mpr ⟨rfl, aligned⟩)]

/-- Settles O11: the host's turn admits no access of another width or of an unaligned offset. -/
theorem unadmittedAccessIsRefused : Obligations.UnadmittedAccessIsRefused := by
  intro s off width bad
  have notAdmitted : ¬ admitted off width = true := by
    rw [admitted_iff]
    omega
  exact ⟨fun ht => by rw [step_of_host ht, hostTurn, if_neg notAdmitted],
    fun v ht => by rw [step_of_host ht, hostTurn, if_neg notAdmitted]⟩

/-! Offsets and bits a write leaves alone. -/

/-- CMD and STATUS are the two lowest words of the window (20 R82). -/
theorem toNat_le_of_regAt_cmd_or_status {off : Offset} (h : regAt off = .cmd ∨ regAt off = .status) :
    off.toNat ≤ 0x0004 := by
  rcases h with h | h
  all_goals
    unfold regAt at h
    dsimp only at h
    split_ifs at h
    split at h <;> cases h
    omega

/-- The offsets between and above the register blocks of 20 R82 are reserved. -/
theorem regAt_reserved {off : Offset}
    (gap : 0x0028 < off.toNat ∧ off.toNat < 0x1000 ∨ 0x1400 < off.toNat ∧ off.toNat < 0x2000
      ∨ 0x2800 < off.toNat ∧ off.toNat < 0x3000 ∨ 0x3800 < off.toNat ∧ off.toNat < 0x4000
      ∨ 0x4400 < off.toNat ∧ off.toNat < 0x8000 ∨ 0xA01C < off.toNat) : regAt off = .reserved := by
  simp (disch := omega) only [regAt, dif_neg]

/-- While idle only CMD, STATUS and the counts of bytes take a write (40 R151, R159). -/
theorem writeReg_ignored {s : State} {r : Reg} (x : Word) (idle : s.busy = false) (notCmd : r ≠ .cmd)
    (notStatus : r ≠ .status) (notByte : ∀ v, r = .freq v → 256 ≤ v.val) : s.writeReg r x = s := by
  unfold State.writeReg
  rw [if_neg (by simp [idle])]
  cases r with
  | cmd => exact absurd rfl notCmd
  | status => exact absurd rfl notStatus
  | freq v => exact dif_neg (Nat.not_lt.mpr (notByte v rfl))
  | _ => rfl

/-- A STATUS write looks at bits 1, 2 and 5 only (40 R158). -/
theorem statusWrite_congr {s : State} {v w : Word} (done : v.getLsbD 1 = w.getLsbD 1)
    (err : v.getLsbD 2 = w.getLsbD 2) (drop : v.getLsbD 5 = w.getLsbD 5) : s.statusWrite v = s.statusWrite w := by
  rw [State.statusWrite, State.statusWrite, done, err, drop]

theorem writeReg_status {s : State} (idle : s.busy = false) (v : Word) : s.writeReg .status v = s.statusWrite v := by
  rw [State.writeReg, if_neg (by simp [idle])]

/-- Settles O14: the offsets in question are no register that takes a write, or no register at all, and the mask
`0x26` keeps the three bits of STATUS that a write looks at. -/
theorem reservedAndReadOnlyWritesAreIgnored : Obligations.ReservedAndReadOnlyWritesAreIgnored := by
  refine ⟨fun s off x ht idle aligned low outside => ?_, fun s off ht aligned gap => ?_, fun s v idle => ?_⟩
  · rw [step_regWrite ht aligned, writeReg_ignored x (by exact idle)]
    · exact fun h => absurd (toNat_le_of_regAt_cmd_or_status (.inl h)) (by omega)
    · exact fun h => absurd (toNat_le_of_regAt_cmd_or_status (.inr h)) (by omega)
    · intro v h
      have place := toNat_of_regAt_freq h
      omega
  · have reserved := regAt_reserved gap
    rw [step_read ht aligned (.inr (by rw [reserved]; rfl)), reserved]
    rfl
  · rw [writeReg_status idle, writeReg_status idle]
    apply statusWrite_congr <;> rw [BitVec.getLsbD_and] <;> simp

/-! Reads leave no trace. -/

/-- What a register reads does not depend on the model's own fields (logs 2, 3, 9). -/
theorem regValue_ownFields (s : State) (agenda : List Turn) (seen : List Observation) (draws : Nat) (r : Reg) :
    { s with agenda := agenda, seen := seen, draws := draws }.regValue r = s.regValue r := by
  cases r <;> rfl

/-- The step of an aligned 32-bit read of a volatile register while a command runs: a free value (70 R351). -/
theorem step_read_free {s : State} {off : Offset} (ht : s.turn = .host (.regRead off 32))
    (aligned : off.toNat % 4 = 0) (busy : s.busy = true) (volatile : (regAt off).volatile = true) :
    step s = .next
      { s.popTurn with seen := s.seen ++ [.word (Config.volatileRead s.draws)], draws := s.draws + 1 } := by
  have hidden : (s.popTurn.busy && (regAt off).volatile) = true := by simp [busy, volatile]
  rw [step_regRead ht aligned, State.readReg, if_pos hidden]
  rfl

/-- A read that shows its state, once more at once: the same value again. -/
theorem step_read_again {s : State} {off : Offset} (aligned : off.toNat % 4 = 0)
    (shown : s.busy = false ∨ (regAt off).volatile = false) (seen : List Observation) (rest : List Turn) :
    step { s with seen := seen, agenda := .host (.regRead off 32) :: rest }
      = .next { s with seen := seen ++ [.word (s.regValue (regAt off))], agenda := rest } := by
  rw [step_read rfl aligned (by exact shown), regValue_ownFields s _ _ s.draws]
  rfl

/-- Settles O19: a read appends to the host's record, and draws only from the free values; one that shows its state
shows it again. -/
theorem readsHaveNoSideEffect : Obligations.ReadsHaveNoSideEffect := by
  intro s off ht aligned
  by_cases shown : s.busy = false ∨ (regAt off).volatile = false
  · refine ⟨s.regValue (regAt off), s.draws, step_read ht aligned shown, fun _ => ⟨rfl, fun rest => ?_⟩⟩
    have again := step_read_again aligned shown (s.seen ++ [.word (s.regValue (regAt off))]) rest
    rwa [List.append_assoc] at again
  · have hidden : s.busy = true ∧ (regAt off).volatile = true := by simpa using shown
    exact ⟨_, _, step_read_free ht aligned hidden.1 hidden.2, fun h => absurd h shown⟩

end Sys2Proof.Machine
end

section
/-! PROOFS. The encoding of the commands (spec/30 R111 to R114): a word decodes exactly when its reserved bits are
zero and its opcode is a command's own; any other accepted word completes with ILLEGAL_CMD. -/

namespace Sys2Proof.Machine

/-! The opcode map and the two fields of a word. -/

theorem decodeOpcode_opcodeOf (i : Instr) : decodeOpcode (opcodeOf i) = some i := by
  cases i <;> rfl

theorem decodeOpcode_eq_some_iff {op : BitVec 8} {i : Instr} : decodeOpcode op = some i ↔ opcodeOf i = op :=
  ⟨opcodeOf_of_decodeOpcode, fun h => h ▸ decodeOpcode_opcodeOf i⟩

/-- A word decodes to the command whose opcode it holds, its reserved bits being zero. -/
theorem decode_eq_ok_iff {w : Word} {i : Instr} :
    decode w = .ok i ↔ reservedField w = 0#24 ∧ opcodeOf i = opcodeField w := by
  rw [decode, ← decodeOpcode_eq_some_iff]
  by_cases reserved : reservedField w = 0#24
  · rw [if_pos reserved]
    cases decodeOpcode (opcodeField w) <;> simp [reserved]
  · simp [reserved]

theorem reservedField_encode (i : Instr) : reservedField (encode i) = 0#24 := by
  cases i <;> rfl

theorem opcodeField_encode (i : Instr) : opcodeField (encode i) = opcodeOf i := by
  cases i <;> rfl

theorem decode_encode (i : Instr) : decode (encode i) = .ok i :=
  decode_eq_ok_iff.mpr ⟨reservedField_encode i, (opcodeField_encode i).symm⟩

/-- Settles O1: each word of the map is its command's `encode`, and `decode` and `encode` invert each other. -/
theorem opcodeMapDecodesAndEncodes : Obligations.OpcodeMapDecodesAndEncodes :=
  ⟨decode_encode .nop, decode_encode .clear, decode_encode .flush, decode_encode .build, decode_encode .gencodes,
    decode_encode .magicWrite, decode_encode .hdrWrite, decode_encode .magicRead, decode_encode .hdrRead,
    decode_encode .encode, decode_encode .decode, decode_encode .compress, decode_encode .decompress,
    decode_encode, fun _ _ => encode_of_decode⟩

/-! Illegal words. -/

/-- The commands in the order of the opcode map (30 R112). -/
def commands : List Instr :=
  [.nop, .clear, .flush, .build, .gencodes, .magicWrite, .hdrWrite, .magicRead, .hdrRead, .encode, .decode, .compress,
    .decompress]

theorem mem_commands (i : Instr) : i ∈ commands := by
  cases i <;> decide

/-- The legal words, by their fields (30 R113). -/
theorem exists_decode_eq_ok_iff {w : Word} :
    (∃ i, decode w = .ok i) ↔ reservedField w = 0#24 ∧ opcodeField w ∈ commands.map opcodeOf := by
  simp [decode_eq_ok_iff, mem_commands]

theorem completePending_of_illegal {s : State} {w : Word} (pending : s.pending = some w)
    (illegal : ∀ i, decode w ≠ .ok i) : completePending s = completeIllegal w s := by
  rw [completePending, pending]
  cases h : decode w with
  | ok i => exact absurd h (illegal i)
  | error r => simp only [h]

/-- Settles O2: the listed opcodes are those of `commands` in order, and the engine's turn on any other word is
`completeIllegal`. -/
theorem illegalWordCompletesWithIllegalCmd : Obligations.IllegalWordCompletesWithIllegalCmd := by
  refine ⟨fun w => exists_decode_eq_ok_iff, fun s w ht busy pending illegal => ?_⟩
  calc step s = engineTurn s.popTurn := step_of_engine ht
    _ = completePending s.popTurn := if_pos busy
    _ = completeIllegal w s.popTurn := completePending_of_illegal pending illegal
    _ = .next (s.popTurn.failedWith 0x01#8 (opcodeField w) (opcodeField w)) := complete_error ..

end Sys2Proof.Machine
end

section
/-! PROOFS. The engine's turn and the control commands (spec/40 R153 to R157), and the host's writes of CMD, STATUS and
FREQ (40 R152, R158, R159). -/

namespace Sys2Proof.Machine

/-! The engine's turn. -/

theorem completePending_of_legal {s : State} {w : Word} {i : Instr} (pending : s.pending = some w)
    (legal : decode w = .ok i) : completePending s = exec i s := by
  rw [completePending, pending]
  simp only [legal]

/-- Settles O3: the engine's turn completes the pending word, and a legal one is its command. -/
theorem engineStepRunsTheDecodedCommand : Obligations.EngineStepRunsTheDecodedCommand := by
  intro s w i ht busy pending legal
  calc step s = engineTurn s.popTurn := step_of_engine ht
    _ = completePending s.popTurn := if_pos busy
    _ = exec i s.popTurn := completePending_of_legal pending legal

/-! Writes of CMD. -/

/-- A write of CMD while idle is `CmdWrite` (40 R151, R152). -/
theorem step_cmdWrite {s : State} {w : Word} (ht : s.turn = .host (.regWrite 0x0000#16 32 w)) (idle : s.busy = false) :
    step s = .next (s.popTurn.cmdWrite w) := by
  have atCmd : regAt 0x0000#16 = .cmd := by decide
  rw [step_regWrite ht (by decide), atCmd, State.writeReg, if_neg (by simp [idle])]

theorem cmdWrite_dropped {s : State} {w : Word} (err : s.err = true) (notClear : w ≠ 0x00000001#32) :
    s.cmdWrite w = s.dropped :=
  if_pos (by simp [err, notClear])

theorem cmdWrite_accepted {s : State} {w : Word} (accepted : s.err = false ∨ w = 0x00000001#32) :
    s.cmdWrite w = s.accept w :=
  if_neg (by rcases accepted with h | h <;> simp [h])

/-- Settles O9: the two cases of `CmdWrite`. -/
theorem cmdWriteIsAcceptedOrDropped : Obligations.CmdWriteIsAcceptedOrDropped := by
  intro s w ht idle
  rw [step_cmdWrite ht idle]
  exact ⟨fun err notClear => congrArg _ (cmdWrite_dropped (by exact err) notClear),
    fun accepted => congrArg _ (cmdWrite_accepted (by exact accepted))⟩

/-! The control commands. -/

/-- A command whose body ends well completes from the state its body left (40 R153). -/
theorem exec_of_ok {i : Instr} {s t : State} (body : bodyOf i s = .ok t) : exec i s = .next t.succeeded := by
  rw [exec_eq_complete, body, complete_ok]

/-- Settles O6: NOP's body leaves the state as it is. -/
theorem nopOnlyCompletes : Obligations.NopOnlyCompletes := fun s =>
  exec_of_ok (i := .nop) (t := s) rfl

/-- Any word with a reserved bit set is illegal (30 R114). -/
theorem decode_ne_ok_of_reserved {w : Word} (reserved : reservedField w ≠ 0#24) (i : Instr) : decode w ≠ .ok i :=
  fun legal => reserved (decode_eq_ok_iff.mp legal).1

/-- Settles O7: CLEAR's body keeps the storage and the streams; a pending error lets only its exact word in, and
`0x00000101`, CLEAR's opcode under a reserved bit, is an illegal word. -/
theorem clearReturnsToACleanState : Obligations.ClearReturnsToACleanState := by
  refine ⟨fun s => ⟨s.node, s.weight, s.codeLen, s.codeVal, exec_of_ok (i := .clear) rfl⟩, fun s idle ht => ?_,
    fun s w idle err notClear ht => ?_, fun s ht busy pending => ?_⟩
  · exact (cmdWriteIsAcceptedOrDropped s _ ht idle).2 (.inr rfl)
  · exact (cmdWriteIsAcceptedOrDropped s w ht idle).1 err notClear
  · exact illegalWordCompletesWithIllegalCmd.2 s _ ht busy pending (decode_ne_ok_of_reserved (by decide))

/-- The padding is what an output lacks to whole bytes (20 R95). -/
theorem add_padding_mod_eight (n : Nat) : (n + padding n) % 8 = 0 := by
  unfold padding
  omega

theorem padding_of_aligned {n : Nat} (aligned : n % 8 = 0) : padding n = 0 := by
  unfold padding
  omega

theorem length_finalize_out_mod_eight (s : State) : s.finalize.out.length % 8 = 0 := by
  rw [State.finalize_out, List.length_append, List.length_replicate, add_padding_mod_eight]

theorem finalize_of_aligned {s : State} (aligned : s.out.length % 8 = 0) : s.finalize = s := by
  rw [State.finalize, padding_of_aligned aligned, List.replicate_zero, List.append_nil]

/-- FLUSH is `finalize()` and the completion (40 R157). -/
theorem exec_flush (s : State) : exec .flush s = .next s.finalize.succeeded :=
  exec_of_ok rfl

/-- Settles O8: FLUSH finalizes the output, which leaves whole bytes, and whole bytes as they are. -/
theorem flushPadsToWholeBytes : Obligations.FlushPadsToWholeBytes := by
  refine fun s => ⟨exec_flush s, length_finalize_out_mod_eight s, fun aligned => ?_⟩
  rw [exec_flush, finalize_of_aligned aligned]
  rfl

/-! Writes of STATUS: each of the three bits, set or not, as what it makes of the fields it clears. -/

theorem clearDone_if (s : State) (b : Bool) : (if b then s.clearDone else s) = { s with done := s.done && !b } := by
  cases b <;> simp [State.clearDone]

theorem acknowledge_if (s : State) (b : Bool) :
    (if b then s.acknowledge else s) =
      { s with
        err := s.err && !b
        cause := if b then 0#8 else s.cause
        op := if b then 0#8 else s.op
        stepOp := if b then 0#8 else s.stepOp
        errPos := if b then 0#32 else s.errPos } := by
  cases b <;> simp [State.acknowledge]

theorem clearDrop_if (s : State) (b : Bool) : (if b then s.clearDrop else s) = { s with drop := s.drop && !b } := by
  cases b <;> simp [State.clearDrop]

/-- `StatusWrite(v)` by fields: each of bits 1, 2 and 5 clears its own part of the state (40 R158). -/
theorem statusWrite_eq (s : State) (v : Word) :
    s.statusWrite v =
      { s with
        done := s.done && !v.getLsbD 1
        err := s.err && !v.getLsbD 2
        cause := if v.getLsbD 2 then 0#8 else s.cause
        op := if v.getLsbD 2 then 0#8 else s.op
        stepOp := if v.getLsbD 2 then 0#8 else s.stepOp
        errPos := if v.getLsbD 2 then 0#32 else s.errPos
        drop := s.drop && !v.getLsbD 5 } := by
  rw [State.statusWrite, clearDone_if, acknowledge_if, clearDrop_if]

/-- Settles O12: a write of STATUS while idle is `StatusWrite`. -/
theorem statusWriteClearsByOnes : Obligations.StatusWriteClearsByOnes := by
  intro s v ht idle
  have atStatus : regAt 0x0004#16 = .status := by decide
  rw [step_regWrite ht (by decide), atStatus, writeReg_status (by exact idle), statusWrite_eq]
  rfl

/-! Writes of FREQ. -/

theorem freqWrite_byte {s : State} {v : Symbol} (x : Word) (byte : v.val < 256) :
    s.freqWrite v x = { s with freq := s.freq.set v.val x byte } :=
  dif_pos byte

theorem freqWrite_eos (s : State) (x : Word) : s.freqWrite 256 x = s :=
  dif_neg (by decide)

/-- Every symbol but the end of stream is a byte (00 R6). -/
theorem val_lt_of_ne_eos {v : Symbol} (notEos : v ≠ 256) : v.val < 256 := by
  have : v.val ≠ 256 := fun h => notEos (Fin.ext h)
  omega

/-- A count read back after its write: the written value for a byte, and always 1 for the end of stream. -/
theorem regValue_freqWrite (s : State) (v : Symbol) (x : Word) :
    (s.freqWrite v x).regValue (.freq v) = if v = 256 then 1#32 else x := by
  by_cases eos : v = 256
  · subst eos
    rfl
  · have byte := val_lt_of_ne_eos eos
    rw [if_neg eos, freqWrite_byte x byte]
    simp [State.regValue, State.count, byte]

/-- A write of FREQ while idle is the store of its symbol's count (40 R151, R159). -/
theorem step_freqWrite {s : State} {v : Symbol} {x : Word}
    (ht : s.turn = .host (.regWrite (BitVec.ofNat 16 (0x1000 + 4 * v.val)) 32 x)) (idle : s.busy = false) :
    step s = .next (s.popTurn.freqWrite v x) := by
  rw [step_regWrite ht (aligned_ofNat (by omega)), regAt_freq, State.writeReg, if_neg (by simp [idle])]

/-- Settles O13: the step is the store of the count, whose two cases are a byte and symbol 256. -/
theorem freqWriteStoresTheCount : Obligations.FreqWriteStoresTheCount := by
  intro s v x ht idle
  rw [step_freqWrite ht idle, regAt_freq]
  refine ⟨fun byte => congrArg _ (freqWrite_byte x byte), ?_, ?_⟩
  · rintro rfl
    rw [freqWrite_eos]
  · rintro t ⟨⟩
    exact regValue_freqWrite s.popTurn v x

end Sys2Proof.Machine
end

section
/-! PROOFS. The rounds of BUILD (spec/41 R170 to R172): the queue order, and what every round keeps of the arena. -/

namespace Sys2Proof.Machine

/-! The queue order (41 R171). -/

/-- An entry's key: its weight, then its index. -/
def queueKey (weight : Vector Word 513) (i : NodeIdx) : ℕ ×ₗ ℕ := toLex (weight[i.val].toNat, i.val)

theorem queueKey_lt_iff {weight : Vector Word 513} {a b : NodeIdx} : queueKey weight a < queueKey weight b ↔
    weight[a.val].toNat < weight[b.val].toNat ∨ weight[a.val].toNat = weight[b.val].toNat ∧ a.val < b.val :=
  Prod.Lex.toLex_lt_toLex

theorem weight_le_of_queueKey_le {weight : Vector Word 513} {a b : NodeIdx} (h : queueKey weight a ≤ queueKey weight b) :
    weight[a.val].toNat ≤ weight[b.val].toNat :=
  Prod.Lex.monotone_fst _ _ h

theorem queueKey_injective (weight : Vector Word 513) : Function.Injective (queueKey weight) :=
  fun _ _ h => Fin.ext (congrArg (fun k => (ofLex k).2) h)

theorem keyLt_iff {weight : Vector Word 513} {a b : NodeIdx} :
    keyLt weight a b = true ↔ queueKey weight a < queueKey weight b := by
  simp [keyLt, queueKey_lt_iff]

/-- Extraction takes the element of least key. -/
theorem extractMin_le {weight : Vector Word 513} {q rest : List NodeIdx} {m : NodeIdx}
    (h : extractMin weight q = some (m, rest)) {c : NodeIdx} (hc : c ∈ rest) : queueKey weight m ≤ queueKey weight c := by
  induction q generalizing m rest with
  | nil => cases h
  | cons x xs ih =>
    simp only [extractMin] at h
    split at h
    · cases h
      cases hc
    · rename_i m' rest' extracted
      split at h
      · rename_i less
        cases h
        have less := (keyLt_iff.mp less).le
        obtain rfl | hc := List.mem_cons.mp ((extractMin_perm extracted).mem_iff.mp hc)
        · exact less
        · exact less.trans (ih extracted hc)
      · rename_i notLess
        cases h
        obtain rfl | hc := List.mem_cons.mp hc
        · exact not_lt.mp (notLess ∘ keyLt_iff.mpr)
        · exact ih extracted hc

/-- `a` and `b` have the least and the second least key among the entries in `Q`. -/
structure TwoLeast (weight : Vector Word 513) (Q : NodeIdx → Prop) (a b : NodeIdx) : Prop where
  left : Q a
  right : Q b
  order : queueKey weight a < queueKey weight b
  others : ∀ c, Q c → c ≠ a → c ≠ b → queueKey weight b < queueKey weight c

theorem TwoLeast.le {weight : Vector Word 513} {Q : NodeIdx → Prop} {a b c : NodeIdx} (h : TwoLeast weight Q a b)
    (hc : Q c) : queueKey weight a ≤ queueKey weight c := by
  by_cases left : c = a
  · rw [left]
  by_cases right : c = b
  · exact right ▸ h.order.le
  · exact (h.order.trans (h.others c hc left right)).le

theorem TwoLeast.unique {weight : Vector Word 513} {Q : NodeIdx → Prop} {a b a' b' : NodeIdx}
    (h : TwoLeast weight Q a b) (h' : TwoLeast weight Q a' b') : a = a' ∧ b = b' := by
  obtain rfl : a = a' := queueKey_injective weight (le_antisymm (h.le h'.left) (h'.le h.left))
  have apart {x y : NodeIdx} (less : queueKey weight x < queueKey weight y) : y ≠ x := fun e => less.ne (e ▸ rfl)
  by_contra differ
  have ne : b' ≠ b := fun e => differ ⟨rfl, e.symm⟩
  exact lt_asymm (h.others b' h'.right (apart h'.order) ne) (h'.others b h.right (apart h.order) ne.symm)

theorem TwoLeast.congr {weight weight' : Vector Word 513} {Q Q' : NodeIdx → Prop} {a b : NodeIdx}
    (h : TwoLeast weight Q a b) (queue : ∀ c, Q' c ↔ Q c) (same : ∀ c, Q c → weight'[c.val] = weight[c.val]) :
    TwoLeast weight' Q' a b := by
  have key {c : NodeIdx} (hc : Q c) : queueKey weight' c = queueKey weight c := by rw [queueKey, queueKey, same c hc]
  refine ⟨(queue a).mpr h.left, (queue b).mpr h.right, ?_, fun c hc left right => ?_⟩
  · rw [key h.left, key h.right]
    exact h.order
  · have hc := (queue c).mp hc
    rw [key h.right, key hc]
    exact h.others c hc left right

/-! The queue at an allocation, and a merged entry, read off the arena. -/

/-- No merge allocated before entry `n` took entry `c`. -/
def Forest.Untaken (f : Forest) (leaves n : ℕ) (c : NodeIdx) : Prop :=
  ∀ m x y : NodeIdx, leaves ≤ m.val → m.val < n → f.node[m.val] = .internal x y → c ≠ x ∧ c ≠ y

/-- Entry `c` is queued when entry `n` is allocated: `State.QueuedAt` of a forest. -/
def Forest.Queued (f : Forest) (leaves n : ℕ) (c : NodeIdx) : Prop := c.val < n ∧ f.Untaken leaves n c

theorem Forest.untaken_succ {f : Forest} {leaves n : ℕ} {a b c : NodeIdx} (room : n < 513) (past : leaves ≤ n)
    (entry : f.node[n] = .internal a b) : f.Untaken leaves (n + 1) c ↔ f.Untaken leaves n c ∧ c ≠ a ∧ c ≠ b := by
  constructor
  · exact fun h => ⟨fun m x y past below => h m x y past (below.trans (Nat.lt_succ_self n)),
      h ⟨n, room⟩ a b past (Nat.lt_succ_self n) entry⟩
  · rintro ⟨h, new⟩ m x y past below internal
    obtain earlier | rfl := (Nat.lt_succ_iff.mp below).lt_or_eq
    · exact h m x y past earlier internal
    · cases entry.symm.trans internal
      exact new

/-- Entry `j` joins the two least entries queued at its allocation, and weighs as much as both (41 R171, R172). -/
def Forest.MergedAt (f : Forest) (leaves : ℕ) (j : NodeIdx) : Prop :=
  ∃ a b, f.node[j.val] = .internal a b ∧ f.weight[j.val].toNat = f.weight[a.val].toNat + f.weight[b.val].toNat
    ∧ TwoLeast f.weight (f.Queued leaves j.val) a b

/-- Two arenas agree on the entries below `n`. -/
def Forest.AgreeBelow (n : ℕ) (f g : Forest) : Prop :=
  ∀ i : NodeIdx, i.val < n → g.node[i.val] = f.node[i.val] ∧ g.weight[i.val] = f.weight[i.val]

theorem Forest.AgreeBelow.mono {n m : ℕ} {f g : Forest} (h : AgreeBelow n f g) (le : m ≤ n) : AgreeBelow m f g :=
  fun i below => h i (below.trans_le le)

theorem Forest.AgreeBelow.untaken_iff {n : ℕ} {f g : Forest} (h : AgreeBelow n f g) {leaves : ℕ} {c : NodeIdx} :
    g.Untaken leaves n c ↔ f.Untaken leaves n c := by
  refine forall₃_congr fun m x y => forall₂_congr fun _ below => ?_
  rw [(h m below).1]

theorem Forest.AgreeBelow.twoLeast {n : ℕ} {f g : Forest} (h : AgreeBelow n f g) {leaves : ℕ} {a b : NodeIdx}
    (two : TwoLeast f.weight (f.Queued leaves n) a b) : TwoLeast g.weight (g.Queued leaves n) a b :=
  two.congr (fun _ => and_congr_right fun _ => h.untaken_iff) fun c hc => (h c hc.1).2

theorem Forest.MergedAt.congr {n leaves : ℕ} {f g : Forest} {j : NodeIdx} (h : f.MergedAt leaves j) (below : j.val < n)
    (agree : AgreeBelow n f g) : g.MergedAt leaves j := by
  obtain ⟨a, b, entry, sum, two⟩ := h
  refine ⟨a, b, (agree j below).1.trans entry, ?_, (agree.mono below.le).twoLeast two⟩
  rw [(agree j below).2, (agree a (two.left.1.trans below)).2, (agree b (two.right.1.trans below)).2, sum]

/-! What allocations leave of the arena. -/

/-- `g` has grown from `f` by allocations: only the entries allocated between are written. -/
structure Forest.Extends (f g : Forest) : Prop where
  n_le : f.n ≤ g.n
  below : AgreeBelow f.n f g
  above : ∀ i : NodeIdx, g.n ≤ i.val → g.node[i.val] = f.node[i.val] ∧ g.weight[i.val] = f.weight[i.val]

theorem Forest.Extends.refl (f : Forest) : f.Extends f := ⟨le_rfl, fun _ _ => ⟨rfl, rfl⟩, fun _ _ => ⟨rfl, rfl⟩⟩

theorem Forest.Extends.trans {f g h : Forest} (fg : f.Extends g) (gh : g.Extends h) : f.Extends h where
  n_le := fg.n_le.trans gh.n_le
  below i hi := by
    obtain ⟨node, weight⟩ := gh.below i (hi.trans_le fg.n_le)
    exact ⟨node.trans (fg.below i hi).1, weight.trans (fg.below i hi).2⟩
  above i hi := by
    obtain ⟨node, weight⟩ := fg.above i (gh.n_le.trans hi)
    exact ⟨(gh.above i hi).1.trans node, (gh.above i hi).2.trans weight⟩

theorem Forest.extends_alloc (f : Forest) (q : List NodeIdx) (nd : Node) (w : Word) :
    f.Extends ({ f with pq := q }.alloc nd w) := by
  by_cases room : f.n < 513
  · have kept (i : NodeIdx) (ne : f.n ≠ i.val) : (f.node.set f.n nd room)[i.val] = f.node[i.val]
        ∧ (f.weight.set f.n w room)[i.val] = f.weight[i.val] :=
      ⟨Vector.getElem_set_ne _ _ ne, Vector.getElem_set_ne _ _ ne⟩
    rw [Forest.alloc_of_room (f := { f with pq := q }) nd w room]
    exact ⟨Nat.le_succ _, fun i below => kept i below.ne', fun i above => kept i (Nat.ne_of_lt above)⟩
  · rw [Forest.alloc, dif_neg room]
    exact ⟨le_rfl, fun _ _ => ⟨rfl, rfl⟩, fun _ _ => ⟨rfl, rfl⟩⟩

/-! The rounds. -/

/-- One round of "while |PQ| > 1" (41 R170): two entries of least key leave the queue, and their merge joins it. -/
def Forest.Round (f g : Forest) : Prop :=
  ∃ a b q, f.pq.Perm (a :: b :: q) ∧ (∀ c ∈ b :: q, queueKey f.weight a ≤ queueKey f.weight c)
    ∧ (∀ c ∈ q, queueKey f.weight b ≤ queueKey f.weight c)
    ∧ g = { f with pq := q }.alloc (.internal a b) (f.weight[a.val] + f.weight[b.val])

theorem mergeAll_rounds (k : ℕ) (f : Forest) : Relation.ReflTransGen Forest.Round f (mergeAll k f) := by
  induction k generalizing f with
  | zero => exact .refl
  | succ k ih =>
    unfold mergeAll
    split
    · exact .refl
    · rename_i a rest first
      split
      · exact .refl
      · rename_i b q second
        have rest := extractMin_perm second
        exact .head ⟨a, b, q, (extractMin_perm first).trans (rest.cons a),
          fun c hc => extractMin_le first (rest.mem_iff.mpr hc), fun c hc => extractMin_le second hc, rfl⟩ (ih _)

theorem Forest.Round.extends {f g : Forest} (h : f.Round g) : f.Extends g := by
  obtain ⟨a, b, q, -, -, -, rfl⟩ := h
  exact f.extends_alloc q _ _

theorem mergeAll_extends (k : ℕ) (f : Forest) : f.Extends (mergeAll k f) :=
  (mergeAll_rounds k f).trans_induction_on (fun f => .refl f) Forest.Round.extends fun _ _ => .trans

/-- The weights in the queue. -/
def Forest.weights (f : Forest) : Multiset ℕ := (f.pq : Multiset NodeIdx).map fun i => f.weight[i.val].toNat

/-- What holds between rounds: with `leaves` leaves allocated, the queue is what the arena says is queued, its weights add
up to `total`, and every entry past the leaves is the merge of the two that were least. -/
structure Forest.Merging (f : Forest) (leaves total : ℕ) : Prop where
  leaves_le : leaves ≤ f.n
  sizes : f.n + f.pq.length = 2 * leaves
  nodup : f.pq.Nodup
  mem_pq : ∀ c, c ∈ f.pq ↔ f.Queued leaves f.n c
  total : f.weights.sum = total
  merged : ∀ j : NodeIdx, leaves ≤ j.val → j.val < f.n → f.MergedAt leaves j

section
variable {f g : Forest} {leaves total : ℕ}

theorem Forest.Merging.below (h : f.Merging leaves total) {i : NodeIdx} (hi : i ∈ f.pq) : i.val < f.n :=
  ((h.mem_pq i).mp hi).1

/-- The entry allocated last, and any not yet allocated, is no merge's child. -/
theorem Forest.Merging.untaken (h : f.Merging leaves total) {c : NodeIdx} (new : f.n ≤ c.val + 1) :
    f.Untaken leaves f.n c := by
  intro m x y past below internal
  obtain ⟨a, b, entry, -, two⟩ := h.merged m past below
  cases entry.symm.trans internal
  have left := two.left.1
  have right := two.right.1
  constructor <;> rintro rfl <;> omega

/-- What stays when two entries leave the queue. -/
theorem Forest.Merging.mem_rest (h : f.Merging leaves total) {a b c : NodeIdx} {q : List NodeIdx}
    (queue : f.pq.Perm (a :: b :: q)) : c ∈ q ↔ c ∈ f.pq ∧ c ≠ a ∧ c ≠ b := by
  obtain ⟨ha, nodup⟩ := List.nodup_cons.mp (queue.nodup_iff.mp h.nodup)
  obtain ⟨hb, -⟩ := List.nodup_cons.mp nodup
  rw [queue.mem_iff]
  constructor
  · intro hc
    exact ⟨by simp [hc], fun e => ha (by simp [← e, hc]), fun e => hb (e ▸ hc)⟩
  · rintro ⟨hc, left, right⟩
    simpa [left, right] using hc

/-- A round in full: the merge takes the next free entry and weighs exactly as much as both entries merged. -/
theorem Forest.Merging.round_cases (h : f.Merging leaves total) (fits : leaves ≤ 257) (narrow : total < 2 ^ 32)
    (round : f.Round g) : ∃ (a b : NodeIdx) (q : List NodeIdx) (room : f.n < 513), f.pq.Perm (a :: b :: q)
      ∧ TwoLeast f.weight (· ∈ f.pq) a b ∧ g.n = f.n + 1 ∧ g.pq = q ++ [⟨f.n, room⟩]
      ∧ g.node[f.n] = .internal a b ∧ g.weight[f.n].toNat = f.weight[a.val].toNat + f.weight[b.val].toNat := by
  obtain ⟨a, b, q, queue, first, second, rfl⟩ := round
  have room : f.n < 513 := by
    have sizes := h.sizes
    rw [queue.length_eq, List.length_cons, List.length_cons] at sizes
    omega
  have sum : f.weight[a.val].toNat + f.weight[b.val].toNat ≤ total := by
    rw [← h.total, Forest.weights, Multiset.coe_eq_coe.mpr queue, ← Multiset.cons_coe, ← Multiset.cons_coe]
    simp [← add_assoc]
  have ne : a ≠ b := fun e => (List.nodup_cons.mp (queue.nodup_iff.mp h.nodup)).1 (by simp [e])
  have strict {x c : NodeIdx} (le : queueKey f.weight x ≤ queueKey f.weight c) (ne : x ≠ c) :
      queueKey f.weight x < queueKey f.weight c := le.lt_of_ne ((queueKey_injective _).ne ne)
  refine ⟨a, b, q, room, queue, ⟨?_, ?_, ?_, fun c hc left right => ?_⟩, ?_⟩
  · simp [queue.mem_iff]
  · simp [queue.mem_iff]
  · exact strict (first b (by simp)) ne
  · exact strict (second c ((h.mem_rest queue).mpr ⟨hc, left, right⟩)) right.symm
  · rw [Forest.alloc_of_room (f := { f with pq := q }) _ _ room]
    refine ⟨rfl, rfl, by simp, ?_⟩
    simp only [Vector.getElem_set_self, BitVec.toNat_add]
    exact Nat.mod_eq_of_lt (by omega)

/-- What a round makes of the weights in the queue. -/
theorem Forest.Merging.weights_round (h : f.Merging leaves total) (fits : leaves ≤ 257) (narrow : total < 2 ^ 32)
    (round : f.Round g) : ∃ (x y : ℕ) (W : Multiset ℕ) (room : f.n < 513), f.weights = x ::ₘ y ::ₘ W
      ∧ g.weights = (x + y) ::ₘ W ∧ x ≤ y ∧ (∀ w ∈ W, y ≤ w) ∧ g.n = f.n + 1 ∧ g.weight[f.n].toNat = x + y := by
  obtain ⟨a, b, q, room, queue, two, n, pq, -, sum⟩ := h.round_cases fits narrow round
  refine ⟨f.weight[a.val].toNat, f.weight[b.val].toNat, (q : Multiset NodeIdx).map fun i => f.weight[i.val].toNat, room,
    ?_, ?_, weight_le_of_queueKey_le two.order.le, ?_, n, sum⟩
  · rw [Forest.weights, Multiset.coe_eq_coe.mpr queue, ← Multiset.cons_coe, ← Multiset.cons_coe]
    simp
  · have kept : (q : Multiset NodeIdx).map (fun i => g.weight[i.val].toNat)
        = (q : Multiset NodeIdx).map fun i => f.weight[i.val].toNat :=
      Multiset.map_congr rfl fun i hi => by rw [(round.extends.below i (h.below ((h.mem_rest queue).mp hi).1)).2]
    rw [Forest.weights, pq, ← Multiset.coe_add, Multiset.map_add, kept, Multiset.coe_singleton, Multiset.map_singleton,
      sum, add_comm, Multiset.singleton_add]
  · intro w hw
    obtain ⟨c, hc, rfl⟩ := Multiset.mem_map.mp hw
    obtain ⟨hc, left, right⟩ := (h.mem_rest queue).mp hc
    exact weight_le_of_queueKey_le (two.others c hc left right).le

/-- What a round makes of the queue: the two entries it takes leave it, the new one joins it. -/
theorem Forest.Merging.mem_pq_round (h : f.Merging leaves total) {a b : NodeIdx} {q : List NodeIdx} (room : f.n < 513)
    (queue : f.pq.Perm (a :: b :: q)) (kept : AgreeBelow f.n f g) (entry : g.node[f.n] = .internal a b) (c : NodeIdx) :
    c ∈ q ++ [⟨f.n, room⟩] ↔ g.Queued leaves (f.n + 1) c := by
  have members {i : NodeIdx} (hi : i ∈ a :: b :: q) : i.val < f.n := h.below (queue.mem_iff.mpr hi)
  rw [List.mem_append, List.mem_singleton, h.mem_rest queue, h.mem_pq, Forest.Queued, Forest.Queued,
    Forest.untaken_succ room h.leaves_le entry, kept.untaken_iff]
  constructor
  · rintro (⟨⟨below, untaken⟩, apart⟩ | rfl)
    · exact ⟨below.trans (Nat.lt_succ_self _), untaken, apart⟩
    · exact ⟨Nat.lt_succ_self _, h.untaken (Nat.le_succ _),
        fun e => (members (i := a) (by simp)).ne (congrArg Fin.val e.symm),
        fun e => (members (i := b) (by simp)).ne (congrArg Fin.val e.symm)⟩
  · rintro ⟨below, untaken, apart⟩
    obtain below | new := (Nat.lt_succ_iff.mp below).lt_or_eq
    · exact .inl ⟨⟨below, untaken⟩, apart⟩
    · exact .inr (Fin.ext new)

theorem Forest.Merging.round (h : f.Merging leaves total) (fits : leaves ≤ 257) (narrow : total < 2 ^ 32)
    (round : f.Round g) : g.Merging leaves total := by
  have kept := round.extends.below
  obtain ⟨x, y, W, -, before, after, -⟩ := h.weights_round fits narrow round
  obtain ⟨a, b, q, room, queue, two, n, pq, entry, sum⟩ := h.round_cases fits narrow round
  have two : TwoLeast f.weight (f.Queued leaves f.n) a b := two.congr (fun c => (h.mem_pq c).symm) fun _ _ => rfl
  refine ⟨by rw [n]; exact h.leaves_le.trans (Nat.le_succ _), ?_, ?_, fun c => ?_, ?_, fun j past below => ?_⟩
  · have sizes := h.sizes
    rw [queue.length_eq] at sizes
    simp only [n, pq, List.length_append, List.length_cons, List.length_nil] at sizes ⊢
    omega
  · rw [pq, ← List.concat_eq_append, List.nodup_concat]
    exact ⟨fun hn => (h.below ((h.mem_rest queue).mp hn).1).ne rfl, (queue.nodup_iff.mp h.nodup).of_cons.of_cons⟩
  · rw [pq, n, h.mem_pq_round room queue kept entry]
  · rw [after, ← h.total, before]
    simp [add_assoc]
  · rw [n] at below
    obtain earlier | new := (Nat.lt_succ_iff.mp below).lt_or_eq
    · exact (h.merged j past earlier).congr earlier kept
    · obtain rfl : j = ⟨f.n, room⟩ := Fin.ext new
      refine ⟨a, b, entry, ?_, kept.twoLeast two⟩
      rw [sum, (kept a two.left.1).2, (kept b two.right.1).2]

theorem Forest.Merging.rounds (h : f.Merging leaves total) (fits : leaves ≤ 257) (narrow : total < 2 ^ 32)
    (rounds : Relation.ReflTransGen Forest.Round f g) : g.Merging leaves total := by
  induction rounds with
  | refl => exact h
  | tail _ round ih => exact ih.round fits narrow round

end
end Sys2Proof.Machine
end

section
/-! PROOFS. What BUILD leaves (spec/41 R170 to R178): its leaves, its merged entries, and the whole next state. -/

namespace Sys2Proof.Machine

/-! The leaves. -/

theorem take_toList_set {α : Type} (v : Vector α 513) {n : ℕ} (x : α) (h : n < 513) :
    (v.set n x h).toList.take (n + 1) = v.toList.take n ++ [x] := by
  rw [Vector.toList_set, List.take_add_one, List.take_set_of_le le_rfl]
  simp [h]

theorem map_block_getElem {α : Type} (v : Vector α 513) {m : ℕ} (h : m ≤ 513) :
    (block 0 m).map (fun i => v[i.val]) = v.toList.take m := by
  apply List.ext_getElem
  · simp [h]
  · intro i hi _
    have below : i < 513 := by
      rw [List.length_map, length_block] at hi
      omega
    simp [block, Nat.mod_eq_of_lt below]

/-- The forest holds one leaf for each of the symbols `vs`, in order, with its count in `s` (41 R170, R171). -/
structure Forest.LeavesOf (f : Forest) (s : State) (vs : List Symbol) : Prop where
  n : f.n = vs.length
  pq : f.pq = block 0 vs.length
  node : f.node.toList.take vs.length = vs.map Node.leaf
  weight : f.weight.toList.take vs.length = vs.map fun v => BitVec.ofNat 32 (s.count v)

theorem Forest.LeavesOf.alloc {f : Forest} {s : State} {vs : List Symbol} (h : f.LeavesOf s vs) (room : vs.length < 513)
    (v : Symbol) : (f.alloc (.leaf v) (BitVec.ofNat 32 (s.count v))).LeavesOf s (vs ++ [v]) := by
  obtain ⟨n, pq, node, weight⟩ := h
  have room' : f.n < 513 := n ▸ room
  rw [Forest.alloc_of_room _ _ room']
  constructor
  · simp [n]
  · rw [List.length_append, block_append, Nat.zero_add, List.length_singleton, block_succ _ 0 room, ← pq]
    simp [n, block]
  · rw [List.length_append, List.length_singleton, ← n, take_toList_set, n, node]
    simp
  · rw [List.length_append, List.length_singleton, ← n, take_toList_set, n, weight]
    simp

theorem addLeaves_leavesOf {f : Forest} {s : State} {vs xs : List Symbol} (h : f.LeavesOf s vs)
    (room : vs.length + xs.length ≤ 513) :
    (addLeaves (xs.map fun v => (v, s.count v)) f).LeavesOf s (vs ++ xs.filter fun v => s.count v != 0) := by
  induction xs generalizing f vs with
  | nil => simpa [addLeaves] using h
  | cons v xs ih =>
    rw [List.length_cons] at room
    by_cases zero : s.count v = 0
    · simpa [addLeaves, zero] using ih h (by omega)
    · have next := ih (h.alloc (by omega) v) (by simp; omega)
      simpa [addLeaves, zero] using next

theorem addLeaves_extends (xs : List (Symbol × ℕ)) (f : Forest) : f.Extends (addLeaves xs f) := by
  induction xs generalizing f with
  | nil => exact .refl f
  | cons x xs ih =>
    obtain ⟨v, c⟩ := x
    unfold addLeaves
    split
    · exact ih f
    · exact (f.extends_alloc f.pq _ _).trans (ih _)

theorem leafForest_leavesOf (s : State) : (leafForest s).LeavesOf s s.live := by
  rw [leafForest, zip_counts]
  exact addLeaves_leavesOf (vs := []) ⟨rfl, rfl, rfl, rfl⟩ (by simp [allSymbols_length])

theorem builtForest_extends (s : State) :
    (emptyForest s).Extends (builtForest s) ∧ (leafForest s).Extends (builtForest s) :=
  ⟨(addLeaves_extends _ _).trans (mergeAll_extends _ _), mergeAll_extends _ _⟩

/-! The counts. -/

theorem count_lt (s : State) (v : Symbol) : s.count v < 2 ^ 32 := by
  unfold State.count
  split
  · exact BitVec.isLt _
  · decide

theorem count_eq_of_freq_eq {s s' : State} (freq : s.freq = s'.freq) : s'.count = s.count := by
  funext v
  rw [State.count, State.count, freq]

/-- A leaf's weight is its count (41 R177). -/
theorem toNat_ofNat_count (s : State) (v : Symbol) : (BitVec.ofNat 32 (s.count v)).toNat = s.count v := by
  rw [BitVec.toNat_ofNat, Nat.mod_eq_of_lt (count_lt s v)]

theorem length_live_pos (s : State) : 0 < s.live.length := List.length_pos_of_mem (eos_mem_live s)

/-- The symbols of count 0 add nothing to the total. -/
theorem sum_live (s : State) : (s.live.map s.count).sum = (allSymbols.map s.count).sum := by
  rw [State.live]
  induction allSymbols with
  | nil => rfl
  | cons v vs ih => by_cases zero : s.count v = 0 <;> simp [zero, ih]

theorem leafForest_weights (s : State) : (leafForest s).weights = (s.live.map s.count : Multiset ℕ) := by
  have leaves := leafForest_leavesOf s
  have fits := length_live_le s
  have entries : (leafForest s).pq.map (fun i => (leafForest s).weight[i.val].toNat) = s.live.map s.count := by
    have listed := map_block_getElem (leafForest s).weight (m := s.live.length) (by omega)
    rw [leaves.weight, ← leaves.pq] at listed
    have numbers := congrArg (List.map BitVec.toNat) listed
    simpa only [List.map_map, Function.comp_def, toNat_ofNat_count] using numbers
  rw [Forest.weights, Multiset.map_coe, entries]

theorem leafForest_merging (s : State) :
    (leafForest s).Merging s.live.length (allSymbols.map s.count).sum := by
  obtain ⟨n, pq, -, -⟩ := leafForest_leavesOf s
  have fits := length_live_le s
  refine ⟨n.ge, by simp [n, pq]; omega, pq ▸ nodup_block (by omega), fun c => ?_, ?_, fun j past below => ?_⟩
  · rw [pq, mem_block (by omega), n]
    simp only [Nat.zero_le, true_and, Nat.zero_add]
    exact ⟨fun below => ⟨below, fun m _ _ past below' => absurd below' past.not_gt⟩, And.left⟩
  · rw [leafForest_weights, Multiset.sum_coe, sum_live]
  · omega

/-! The built forest. -/

section
variable {s : State}

theorem builtForest_merging (fits : (allSymbols.map s.count).sum ≤ 2 ^ 32 - 1) :
    (builtForest s).Merging s.live.length (allSymbols.map s.count).sum :=
  (leafForest_merging s).rounds (length_live_le s) (by omega) (mergeAll_rounds _ _)

/-- The merges leave the leaves as they are. -/
theorem builtForest_leavesOf (s : State) :
    (builtForest s).node.toList.take s.live.length = s.live.map Node.leaf
      ∧ (builtForest s).weight.toList.take s.live.length = s.live.map fun v => BitVec.ofNat 32 (s.count v) := by
  obtain ⟨n, -, node, weight⟩ := leafForest_leavesOf s
  have kept := (builtForest_extends s).2.below
  have fits := length_live_le s
  have entry {i : NodeIdx} (hi : i ∈ block 0 s.live.length) : i.val < (leafForest s).n := by
    rw [mem_block (by omega)] at hi
    omega
  rw [← node, ← weight]
  iterate 4 rw [← map_block_getElem _ (by omega)]
  exact ⟨List.map_congr_left fun i hi => (kept i (entry hi)).1, List.map_congr_left fun i hi => (kept i (entry hi)).2⟩

/-- The entries below `L` are the leaves. -/
theorem builtForest_leaf (s : State) {i : NodeIdx} (below : i.val < s.live.length) :
    (builtForest s).node[i.val] = .leaf s.live[i.val]
      ∧ (builtForest s).weight[i.val] = BitVec.ofNat 32 (s.count s.live[i.val]) := by
  obtain ⟨node, weight⟩ := builtForest_leavesOf s
  constructor
  · simpa [below] using congrArg (·[i.val]?) node
  · simpa [below] using congrArg (·[i.val]?) weight

/-- The last entry allocated is the one left in the queue (41 R174). -/
theorem builtForest_pq (fits : (allSymbols.map s.count).sum ≤ 2 ^ 32 - 1) :
    (builtForest s).pq = [Fin.ofNat 513 (2 * s.live.length - 2)] := by
  obtain ⟨-, sizes, -, -, root, one, -⟩ := builtForest_grows s
  have merging := builtForest_merging fits
  have few := length_live_le s
  have nonempty := length_live_pos s
  have last : (Fin.ofNat 513 (2 * s.live.length - 2)).val + 1 = (builtForest s).n := by
    rw [Fin.val_ofNat, Nat.mod_eq_of_lt (by omega)]
    omega
  have queued := (merging.mem_pq _).mpr ⟨last.le, merging.untaken last.ge⟩
  rw [one, List.mem_singleton] at queued
  rw [one, queued]

/-- The state BUILD leaves when the total fits (41 R170, R174). -/
def State.built (s : State) : State :=
  { s with
    node := (builtForest s).node, weight := (builtForest s).weight
    root := Fin.ofNat 513 (2 * s.live.length - 2)
    nodeCount := 2 * s.live.length - 1, leafCount := s.live.length
    treeValid := true, codesValid := false
    pending := none, busy := false, done := true }

theorem builtForest_n (s : State) : (builtForest s).n = 2 * s.live.length - 1 := by
  obtain ⟨-, sizes, -⟩ := builtForest_grows s
  omega

theorem exec_build_of_fits (fits : (allSymbols.map s.count).sum ≤ 2 ^ 32 - 1) : exec .build s = .next s.built := by
  have body := runBuild_of_fits (s := s) (by rw [totalWeight_eq]; omega)
  rw [builtForest_pq fits, builtForest_n, (leafForest_leavesOf s).n] at body
  exact exec_of_ok (i := .build) body

theorem eq_built_of_exec {u : State} (fits : (allSymbols.map s.count).sum ≤ 2 ^ 32 - 1) (h : exec .build s = .next u) :
    u = s.built := by
  rw [exec_build_of_fits fits] at h
  cases h
  rfl

theorem built_holdsTree (fits : (allSymbols.map s.count).sum ≤ 2 ^ 32 - 1) :
    ∃ t, s.built.HoldsTree t ∧ t.leaves.Perm s.live := by
  obtain ⟨-, -, t, ixs, root, one, represents, nodup, filled, live⟩ := builtForest_grows s
  rw [builtForest_pq fits, List.singleton_inj] at one
  subst one
  rw [builtForest_n] at filled
  exact ⟨t, ⟨ixs, represents, nodup, filled, live.length_eq.symm⟩, live⟩

theorem built_mergedAt (fits : (allSymbols.map s.count).sum ≤ 2 ^ 32 - 1) {j : NodeIdx} (past : s.live.length ≤ j.val)
    (below : j.val < 2 * s.live.length - 1) : (builtForest s).MergedAt s.live.length j :=
  (builtForest_merging fits).merged j past (by rwa [builtForest_n])

end

/-! The obligations. -/

/-- Settles O24: the total is checked before the arena is touched. -/
theorem buildRejectsAnOverflowingTotal : Obligations.BuildRejectsAnOverflowingTotal := by
  intro s overflow
  rw [← totalWeight_eq] at overflow
  refine ⟨_, ?_, rfl, rfl, rfl, rfl⟩
  rw [exec_eq_complete, bodyOf, runBuild_of_overflow overflow, complete_error]
  rfl

/-- Settles O25: the next state is `State.built`; its leaves are those of the forest of leaves, and the allocations leave
every entry they do not take. -/
theorem buildCompletesWithItsSizes : Obligations.BuildCompletesWithItsSizes := by
  intro s fits
  obtain ⟨node, weight⟩ := builtForest_leavesOf s
  refine ⟨length_live_pos s, length_live_le s, _, _, exec_build_of_fits fits, node, weight,
    fun i unused => ?_⟩
  exact (builtForest_extends s).1.above i (by rwa [builtForest_n])

/-- Settles O26: between rounds BUILD's queue is the entries queued in the arena, and each round merges its two least. -/
theorem buildMergesTheTwoLeastKeys : Obligations.BuildMergesTheTwoLeastKeys := by
  intro s u fits h j past below
  obtain rfl := eq_built_of_exec fits h
  obtain ⟨a, b, entry, sum, two⟩ := built_mergedAt fits past below
  exact ⟨a, b, entry, two.left, two.right, sum, queueKey_lt_iff.mp two.order,
    fun c hc left right => queueKey_lt_iff.mp (two.others c hc left right)⟩

theorem Represents.self_mem {node : Vector Node 513} {i : NodeIdx} {t : HuffTree} {ixs : List NodeIdx}
    (h : Represents node i t ixs) : i ∈ ixs := by
  cases h <;> simp

/-- A weight is the sum of the counts of the leaves below (41 R177). -/
theorem built_weight {s : State} (fits : (allSymbols.map s.count).sum ≤ 2 ^ 32 - 1) {i : NodeIdx} {t : HuffTree}
    {ixs : List NodeIdx} (h : Represents (builtForest s).node i t ixs) :
    i.val < 2 * s.live.length - 1 → ((builtForest s).weight[i.val]'i.isLt).toNat = (t.leaves.map s.count).sum := by
  induction h with
  | leaf i v entry =>
    intro below
    by_cases leaf : i.val < s.live.length
    · obtain ⟨node, weight⟩ := builtForest_leaf s leaf
      cases entry.symm.trans node
      rw [weight, toNat_ofNat_count, HuffTree.leaves, List.map_singleton, List.sum_singleton]
    · obtain ⟨a, b, internal, -⟩ := built_mergedAt fits (not_lt.mp leaf) below
      cases entry.symm.trans internal
  | node i l r tl tr il ir entry _ _ ihl ihr =>
    intro below
    by_cases leaf : i.val < s.live.length
    · cases entry.symm.trans (builtForest_leaf s leaf).1
    · obtain ⟨a, b, internal, sum, two⟩ := built_mergedAt fits (not_lt.mp leaf) below
      cases entry.symm.trans internal
      rw [HuffTree.leaves, List.map_append, List.sum_append, ← ihl (two.left.1.trans below),
        ← ihr (two.right.1.trans below)]
      exact sum

/-- Settles O27: the tree is that of `builtForest_grows`, and the weights follow its entries. -/
theorem buildLeavesAValidTree : Obligations.BuildLeavesAValidTree := by
  intro s u fits h
  obtain rfl := eq_built_of_exec fits h
  obtain ⟨t, ⟨ixs, represents, nodup, filled, leaves⟩, live⟩ := built_holdsTree fits
  refine ⟨t, ⟨ixs, represents, nodup, filled, leaves⟩, live,
    fun i t' ixs below represents => built_weight fits represents below, ?_⟩
  rw [← sum_live, ← (live.map s.count).sum_eq]
  exact built_weight fits represents ((filled _).mp represents.self_mem)

/-- A merged entry is fixed by the entries below it. -/
theorem Forest.MergedAt.unique {f g : Forest} {leaves : ℕ} {j : NodeIdx} (hf : f.MergedAt leaves j)
    (hg : g.MergedAt leaves j) (agree : AgreeBelow j.val f g) :
    g.node[j.val] = f.node[j.val] ∧ g.weight[j.val] = f.weight[j.val] := by
  obtain ⟨a, b, entry, sum, two⟩ := hf
  obtain ⟨a', b', entry', sum', two'⟩ := hg
  obtain ⟨rfl, rfl⟩ := (agree.twoLeast two).unique two'
  refine ⟨entry'.trans entry.symm, BitVec.eq_of_toNat_eq ?_⟩
  rw [sum', sum, (agree a two.left.1).2, (agree b two.right.1).2]

/-- Two builds of the same counts agree on every entry allocated, one entry after another. -/
theorem builtForest_agree {s s' : State} (freq : s.freq = s'.freq) (fits : (allSymbols.map s.count).sum ≤ 2 ^ 32 - 1)
    (n : ℕ) (le : n ≤ 2 * s.live.length - 1) : Forest.AgreeBelow n (builtForest s) (builtForest s') := by
  have counts := count_eq_of_freq_eq freq
  have live : s'.live = s.live := by rw [State.live, State.live, counts]
  induction n with
  | zero => exact fun _ below => absurd below (Nat.not_lt_zero _)
  | succ n ih =>
    have agree := ih (Nat.le_of_succ_le le)
    intro j below
    obtain below | rfl := (Nat.lt_succ_iff.mp below).lt_or_eq
    · exact agree j below
    by_cases leaf : j.val < s.live.length
    · obtain ⟨node, weight⟩ := builtForest_leaf s leaf
      obtain ⟨node', weight'⟩ := builtForest_leaf s' (live ▸ leaf)
      simp only [live, counts] at node' weight'
      exact ⟨node'.trans node.symm, weight'.trans weight.symm⟩
    · have merged' := built_mergedAt (s := s') (counts ▸ fits) (live ▸ not_lt.mp leaf) (live ▸ le)
      exact (built_mergedAt fits (not_lt.mp leaf) le).unique (live ▸ merged') agree

/-- Settles O28: the sizes come from the counts, and so does each entry, in the order of allocation. -/
theorem buildDependsOnTheCountsAlone : Obligations.BuildDependsOnTheCountsAlone := by
  intro s s' u u' freq fits h h'
  have counts := count_eq_of_freq_eq freq
  have live : s'.live = s.live := by rw [State.live, State.live, counts]
  obtain rfl := eq_built_of_exec fits h
  obtain rfl := eq_built_of_exec (counts ▸ fits) h'
  refine ⟨by simp [State.built, live], by simp [State.built, live], by simp [State.built, live], fun i below => ?_⟩
  obtain ⟨node, weight⟩ := builtForest_agree freq fits _ le_rfl i below
  exact ⟨node.symm, weight.symm⟩

/-! The smallest inputs. -/

theorem nodup_allSymbols : allSymbols.Nodup :=
  List.nodup_iff_injective_get.mpr fun i j same => Fin.ext (by simpa using congrArg Fin.val same)

theorem mem_allSymbols (v : Symbol) : v ∈ allSymbols :=
  List.mem_iff_getElem.mpr ⟨v.val, by simp [allSymbols_length], Fin.ext (by simp)⟩

theorem live_perm {s : State} {vs : List Symbol} (nodup : vs.Nodup) (h : ∀ v, s.count v ≠ 0 ↔ v ∈ vs) :
    s.live.Perm vs :=
  (List.perm_ext_iff_of_nodup (nodup_allSymbols.filter _) nodup).mpr fun v => by
    simp [mem_allSymbols, ← h]

theorem count_eos (s : State) : s.count 256 = 1 := dif_neg (by decide)

/-- With every byte count 0 the one live symbol is 256 (41 R175). -/
theorem live_of_empty {s : State} (empty : ∀ v : Symbol, v.val < 256 → s.count v = 0) :
    (allSymbols.map s.count).sum = 1 ∧ s.live = [256] := by
  have live : s.live.Perm [256] := by
    refine live_perm (by simp) fun v => ?_
    by_cases eos : v = 256
    · simp [eos, count_eos]
    · simp [eos, empty v (val_lt_of_ne_eos eos)]
  exact ⟨by rw [← sum_live, List.perm_singleton.mp live]; simp [count_eos], List.perm_singleton.mp live⟩

/-- With one byte value counted it and 256 are the live symbols (41 R175). -/
theorem live_of_single {s : State} {b : Symbol} (byte : b.val < 256) (counted : 0 < s.count b)
    (others : ∀ v : Symbol, v.val < 256 → v ≠ b → s.count v = 0) :
    (allSymbols.map s.count).sum = s.count b + 1 ∧ s.live.Perm [b, 256] := by
  have ne : b ≠ 256 := by
    rintro rfl
    exact absurd byte (by decide)
  have live : s.live.Perm [b, 256] := by
    refine live_perm (by simp [ne]) fun v => ?_
    by_cases eos : v = 256
    · simp [eos, count_eos]
    by_cases same : v = b
    · simp [same, counted.ne']
    · simp [eos, same, others v (val_lt_of_ne_eos eos) same]
  exact ⟨by rw [← sum_live, (live.map s.count).sum_eq]; simp [count_eos], live⟩

theorem HuffTree.eq_leaf_of_length_leaves {t : HuffTree} (h : t.leaves.length = 1) : ∃ v, t = .leaf v := by
  cases t with
  | leaf v => exact ⟨v, rfl⟩
  | node l r =>
    have left := l.leaves_pos
    have right := r.leaves_pos
    rw [HuffTree.leaves, List.length_append] at h
    omega

/-- A tree of two leaves is their join, in one order or the other. -/
theorem HuffTree.eq_of_leaves_perm_pair {t : HuffTree} {a b : Symbol} (h : t.leaves.Perm [a, b]) :
    t = .node (.leaf a) (.leaf b) ∨ t = .node (.leaf b) (.leaf a) := by
  have two := h.length_eq
  cases t with
  | leaf v => simp [HuffTree.leaves] at two
  | node l r =>
    have left := l.leaves_pos
    have right := r.leaves_pos
    simp only [HuffTree.leaves, List.length_append, List.length_cons, List.length_nil] at two
    obtain ⟨x, rfl⟩ := l.eq_leaf_of_length_leaves (by omega)
    obtain ⟨y, rfl⟩ := r.eq_leaf_of_length_leaves (by omega)
    simpa [HuffTree.leaves, List.perm_pair] using h

/-- Settles O29: the counts leave one live symbol, or two. -/
theorem buildHandlesTheSmallestInputs : Obligations.BuildHandlesTheSmallestInputs := by
  constructor
  · intro s empty
    obtain ⟨total, live⟩ := live_of_empty empty
    have fits : (allSymbols.map s.count).sum ≤ 2 ^ 32 - 1 := by omega
    obtain ⟨node, weight⟩ := builtForest_leaf s (i := 0) (by simp [live])
    simp only [live, Fin.val_zero, List.getElem_cons_zero, count_eos] at node weight
    have root : s.built.root = 0 := by simp [State.built, live]
    have nodes : s.built.nodeCount = 1 := by simp [State.built, live]
    have leaves : s.built.leafCount = 1 := by simp [State.built, live]
    refine ⟨s.built, exec_build_of_fits fits, rfl, rfl, root, nodes, leaves, node, weight, [0], ?_, by simp, ?_, leaves⟩
    · rw [root]
      exact .leaf 0 256 node
    · intro i
      rw [nodes, List.mem_singleton, Nat.lt_one_iff]
      exact Fin.ext_iff
  · intro s b byte counted le others
    obtain ⟨total, live⟩ := live_of_single byte counted others
    have fits : (allSymbols.map s.count).sum ≤ 2 ^ 32 - 1 := by omega
    obtain ⟨t, tree, leaves⟩ := built_holdsTree fits
    exact ⟨s.built, exec_build_of_fits fits, rfl, live.length_eq, t, tree,
      (HuffTree.eq_of_leaves_perm_pair (leaves.trans live)).symm⟩

end Sys2Proof.Machine
end

section
/-! PROOFS. The optimality of the greedy merge (spec/41 R176). A tree's cost is what its leaves' weights and depths give,
paired; the least two weights cost least at the deepest pair of siblings, where a merge takes them. -/

namespace Sys2Proof.Machine

/-! Leaf depths. -/

/-- The depths of the leaves of a strictly binary tree: the root alone, or two siblings in place of a leaf. -/
inductive LeafDepths : Multiset ℕ → Prop where
  | root : LeafDepths {0}
  | split (d : ℕ) (D : Multiset ℕ) (h : LeafDepths (d ::ₘ D)) : LeafDepths ((d + 1) ::ₘ (d + 1) ::ₘ D)

/-- Among the deepest leaves are two siblings. -/
theorem LeafDepths.deepest {E : Multiset ℕ} (h : LeafDepths E) (many : 1 < E.card) :
    ∃ m D, E = (m + 1) ::ₘ (m + 1) ::ₘ D ∧ LeafDepths (m ::ₘ D) ∧ ∀ d ∈ D, d ≤ m + 1 := by
  induction h with
  | root => simp at many
  | split d D h ih =>
    by_cases alone : D = 0
    · subst alone
      exact ⟨d, 0, rfl, h, by simp⟩
    have more : 1 < (d ::ₘ D).card := by simpa [Multiset.card_pos] using alone
    obtain ⟨m, D', eq, shorter, le⟩ := ih more
    have bound {e : ℕ} (he : e ∈ d ::ₘ D) : e ≤ m + 1 := by
      rw [eq, Multiset.mem_cons, Multiset.mem_cons] at he
      obtain rfl | rfl | he := he
      · exact le_rfl
      · exact le_rfl
      · exact le e he
    obtain rfl | less := (bound (Multiset.mem_cons_self d D)).eq_or_lt
    · exact ⟨m + 1, D, rfl, h, fun e he => (bound (Multiset.mem_cons_of_mem he)).trans (Nat.le_succ _)⟩
    · have hd : d ∈ D' := by
        have hd : d ∈ d ::ₘ D := Multiset.mem_cons_self d D
        rw [eq] at hd
        simpa [less.ne] using hd
      obtain ⟨D'', rfl⟩ := Multiset.exists_cons_of_mem hd
      have eq : D = (m + 1) ::ₘ (m + 1) ::ₘ D'' := by
        rwa [Multiset.cons_swap (m + 1) d, Multiset.cons_swap (m + 1) d, Multiset.cons_inj_right] at eq
      refine ⟨m, (d + 1) ::ₘ (d + 1) ::ₘ D'', ?_, ?_, ?_⟩
      · simp only [eq, Multiset.cons_swap (d + 1) (m + 1)]
      · rw [Multiset.cons_swap m, Multiset.cons_swap m]
        exact .split d _ (Multiset.cons_swap m d D'' ▸ shorter)
      · intro e he
        simp only [Multiset.mem_cons] at he
        obtain rfl | rfl | he := he
        · exact less
        · exact less
        · exact le e (Multiset.mem_cons_of_mem he)

/-! Costs. -/

/-- The sum of weight times depth, over pairs of both. -/
def pairsCost (P : Multiset (ℕ × ℕ)) : ℕ := (P.map fun p => p.1 * p.2).sum

/-- Exchange: the least weight costs no more at the greatest depth. -/
theorem pairs_exchange {P : Multiset (ℕ × ℕ)} {x m : ℕ} {W D : Multiset ℕ} (weights : P.map Prod.fst = x ::ₘ W)
    (depths : P.map Prod.snd = m ::ₘ D) (least : ∀ w ∈ W, x ≤ w) (deepest : ∀ d ∈ D, d ≤ m) :
    ∃ Q : Multiset (ℕ × ℕ), Q.map Prod.fst = W ∧ Q.map Prod.snd = D ∧ x * m + pairsCost Q ≤ pairsCost P := by
  obtain ⟨⟨_, d⟩, hx, rfl⟩ := Multiset.mem_map.mp (weights ▸ Multiset.mem_cons_self x W)
  obtain ⟨P', rfl⟩ := Multiset.exists_cons_of_mem hx
  simp only [Multiset.map_cons] at weights depths
  have rest : P'.map Prod.fst = W := by simpa using weights
  by_cases same : d = m
  · subst same
    exact ⟨P', rest, by simpa using depths, by simp [pairsCost]⟩
  · have hm : m ∈ d ::ₘ P'.map Prod.snd := depths ▸ Multiset.mem_cons_self m D
    rw [Multiset.mem_cons, or_iff_right (Ne.symm same), Multiset.mem_map] at hm
    obtain ⟨⟨w, _⟩, hw, rfl⟩ := hm
    obtain ⟨Q, rfl⟩ := Multiset.exists_cons_of_mem hw
    simp only [Multiset.map_cons] at rest depths
    rw [Multiset.cons_swap, Multiset.cons_inj_right] at depths
    refine ⟨(w, d) ::ₘ Q, by simpa using rest, by simpa using depths, ?_⟩
    have swap := mul_add_mul_le_mul_add_mul (least w (by simp [← rest])) (deepest d (by simp [← depths]))
    simp only [pairsCost, Multiset.map_cons, Multiset.sum_cons] at swap ⊢
    omega

/-- Merging the least two weights costs at most what their depths pay. -/
theorem pairs_merge_least {P : Multiset (ℕ × ℕ)} {x y : ℕ} {W : Multiset ℕ} (weights : P.map Prod.fst = x ::ₘ y ::ₘ W)
    (order : x ≤ y) (least : ∀ w ∈ W, y ≤ w) (depths : LeafDepths (P.map Prod.snd)) :
    ∃ Q : Multiset (ℕ × ℕ), Q.map Prod.fst = (x + y) ::ₘ W ∧ LeafDepths (Q.map Prod.snd)
      ∧ x + y + pairsCost Q ≤ pairsCost P := by
  have many : 1 < (P.map Prod.snd).card := by
    rw [Multiset.card_map, ← Multiset.card_map Prod.fst, weights]
    simp
  obtain ⟨m, D, siblings, merged, deepest⟩ := depths.deepest many
  obtain ⟨P', weights', depths', cost'⟩ := pairs_exchange weights siblings
    (by simpa [order] using fun w hw => order.trans (least w hw)) (by simpa using deepest)
  obtain ⟨Q, rfl, rfl, cost⟩ := pairs_exchange weights' depths' least deepest
  refine ⟨(x + y, m) ::ₘ Q, by simp, by simpa using merged, ?_⟩
  calc x + y + pairsCost ((x + y, m) ::ₘ Q) = x * (m + 1) + (y * (m + 1) + pairsCost Q) := by
        simp only [pairsCost, Multiset.map_cons, Multiset.sum_cons]
        ring
    _ ≤ pairsCost P := by omega

/-! The weights merged. -/

/-- The weights of the entries past the leaves, added up. -/
def Forest.spent (f : Forest) (leaves : ℕ) : ℕ :=
  ((block leaves (f.n - leaves)).map fun i => f.weight[i.val].toNat).sum

/-- A round spends the weight of its merge. -/
theorem Forest.Merging.spent_round {f g : Forest} {leaves total : ℕ} (h : f.Merging leaves total)
    (kept : AgreeBelow f.n f g) (room : f.n < 513) (n : g.n = f.n + 1) :
    g.spent leaves = f.spent leaves + g.weight[f.n].toNat := by
  have past := h.leaves_le
  have same : (block leaves (f.n - leaves)).map (fun i => g.weight[i.val].toNat)
      = (block leaves (f.n - leaves)).map fun i => f.weight[i.val].toNat :=
    List.map_congr_left fun i hi => by
      rw [mem_block (by omega)] at hi
      rw [(kept i (by omega)).2]
  rw [Forest.spent, n, Nat.sub_add_comm past, block_append, List.map_append, List.sum_append, same,
    Nat.add_sub_cancel' past, block_succ _ 0 room]
  simp [Forest.spent, block]

/-- The rounds spend at most what any depths of the leaves pay for. -/
theorem Forest.Merging.spent_le {f g : Forest} {leaves total : ℕ} (h : f.Merging leaves total) (fits : leaves ≤ 257)
    (narrow : total < 2 ^ 32) (rounds : Relation.ReflTransGen Forest.Round f g) {P : Multiset (ℕ × ℕ)}
    (weights : P.map Prod.fst = f.weights) (depths : LeafDepths (P.map Prod.snd)) :
    ∃ Q : Multiset (ℕ × ℕ), Q.map Prod.fst = g.weights ∧ LeafDepths (Q.map Prod.snd)
      ∧ g.spent leaves + pairsCost Q ≤ f.spent leaves + pairsCost P := by
  induction rounds with
  | refl => exact ⟨P, weights, depths, le_rfl⟩
  | @tail g g' earlier round ih =>
    obtain ⟨Q, weights', depths', cost⟩ := ih
    have merging := h.rounds fits narrow earlier
    obtain ⟨x, y, W, room, before, after, order, least, n, sum⟩ := merging.weights_round fits narrow round
    obtain ⟨Q', weights'', depths'', cost'⟩ := pairs_merge_least (weights'.trans before) order least depths'
    have spent := merging.spent_round round.extends.below room n
    exact ⟨Q', weights''.trans after.symm, depths'', by omega⟩

/-! A tree's leaves as pairs of weight and depth. -/

/-- The weight and the depth of each leaf of a tree whose root is `d` deep. -/
def HuffTree.pairs (F : Symbol → ℕ) : HuffTree → ℕ → Multiset (ℕ × ℕ)
  | .leaf v, d => {(F v, d)}
  | .node l r, d => l.pairs F (d + 1) + r.pairs F (d + 1)

theorem HuffTree.pairsCost_pairs (F : Symbol → ℕ) (t : HuffTree) (d : ℕ) : pairsCost (t.pairs F d) = t.cost F d := by
  induction t generalizing d with
  | leaf v => simp [pairs, pairsCost, cost]
  | node l r ihl ihr =>
    rw [cost, ← ihl, ← ihr]
    simp [pairs, pairsCost]

theorem HuffTree.fst_pairs (F : Symbol → ℕ) (t : HuffTree) (d : ℕ) :
    (t.pairs F d).map Prod.fst = (t.leaves.map F : Multiset ℕ) := by
  induction t generalizing d with
  | leaf v => rfl
  | node l r ihl ihr => simp [pairs, leaves, ihl, ihr]

/-- A tree in place of a leaf. -/
theorem LeafDepths.graft (F : Symbol → ℕ) (t : HuffTree) {d : ℕ} {D : Multiset ℕ} (h : LeafDepths (d ::ₘ D)) :
    LeafDepths ((t.pairs F d).map Prod.snd + D) := by
  induction t generalizing d D with
  | leaf v => simpa [HuffTree.pairs] using h
  | node l r ihl ihr =>
    have left := ihl (LeafDepths.split d D h)
    rw [Multiset.add_cons] at left
    have right := ihr left
    rwa [← add_assoc, add_comm (Multiset.map _ _) (Multiset.map _ _), ← Multiset.map_add] at right

theorem HuffTree.leafDepths_pairs (F : Symbol → ℕ) (t : HuffTree) : LeafDepths ((t.pairs F 0).map Prod.snd) := by
  simpa using LeafDepths.root.graft F t (D := 0)

/-! The cost of the tree BUILD leaves. -/

/-- An entry holds one tree. -/
theorem Represents.unique {node : Vector Node 513} {i : NodeIdx} {t t' : HuffTree} {ixs ixs' : List NodeIdx}
    (h : Represents node i t ixs) (h' : Represents node i t' ixs') : t = t' := by
  induction h generalizing t' ixs' with
  | leaf i v entry =>
    cases h' with
    | leaf _ _ entry' => cases entry.symm.trans entry'; rfl
    | node _ _ _ _ _ _ _ entry' => cases entry.symm.trans entry'
  | node i l r tl tr il ir entry _ _ ihl ihr =>
    cases h' with
    | leaf _ _ entry' => cases entry.symm.trans entry'
    | node _ _ _ _ _ _ _ entry' hl hr =>
      cases entry.symm.trans entry'
      rw [ihl hl, ihr hr]

/-- What an entry costs: its weight, if it is a merge. -/
def Forest.costAt (f : Forest) (i : NodeIdx) : ℕ := if f.node[i.val].isLeaf then 0 else f.weight[i.val].toNat

/-- A tree's cost is the sum of the weights merged into it. -/
theorem Represents.cost_eq {f : Forest} {F : Symbol → ℕ} {i : NodeIdx} {t : HuffTree} {ixs : List NodeIdx}
    (h : Represents f.node i t ixs)
    (weight : ∀ j ∈ ixs, ∀ t' jxs, Represents f.node j t' jxs → f.weight[j.val].toNat = (t'.leaves.map F).sum) (d : ℕ) :
    t.cost F d = d * (t.leaves.map F).sum + (ixs.map f.costAt).sum := by
  induction h generalizing d with
  | leaf i v entry => simp [HuffTree.cost, HuffTree.leaves, Forest.costAt, entry, mul_comm]
  | node i l r tl tr il ir entry hl hr ihl ihr =>
    have here : f.costAt i = (tl.leaves.map F).sum + (tr.leaves.map F).sum := by
      rw [Forest.costAt, entry, Node.isLeaf_internal, if_neg Bool.false_ne_true,
        weight i (by simp) _ _ (.node i l r tl tr il ir entry hl hr), HuffTree.leaves, List.map_append, List.sum_append]
    rw [HuffTree.cost, ihl (fun j hj => weight j (by simp [hj])), ihr (fun j hj => weight j (by simp [hj]))]
    simp only [HuffTree.leaves, List.map_cons, List.map_append, List.sum_cons, List.sum_append, here]
    ring

theorem built_leaves {s : State} {t : HuffTree} (fits : (allSymbols.map s.count).sum ≤ 2 ^ 32 - 1)
    (tree : s.built.HoldsTree t) : t.leaves.Perm s.live := by
  obtain ⟨ixs, represents, -⟩ := tree
  obtain ⟨t', ⟨ixs', represents', -⟩, live⟩ := built_holdsTree fits
  rwa [represents.unique represents']

/-- Past the leaves every entry is a merge. -/
theorem Forest.Merging.sum_costAt {f : Forest} {leaves total : ℕ} (h : f.Merging leaves total) (room : f.n ≤ 513)
    (leaf : ∀ i : NodeIdx, i.val < leaves → f.node[i.val].isLeaf = true) :
    ((block 0 f.n).map f.costAt).sum = f.spent leaves := by
  have past := h.leaves_le
  have free : ∀ i ∈ block 0 leaves, f.costAt i = 0 := fun i hi => by
    rw [mem_block (by omega)] at hi
    rw [Forest.costAt, if_pos (leaf i (by omega))]
  have merged : ∀ i ∈ block leaves (f.n - leaves), f.costAt i = f.weight[i.val].toNat := fun i hi => by
    rw [mem_block (by omega)] at hi
    obtain ⟨a, b, entry, -⟩ := h.merged i (by omega) (by omega)
    rw [Forest.costAt, entry, Node.isLeaf_internal, if_neg Bool.false_ne_true]
  rw [← Nat.add_sub_cancel' past, block_append, List.map_append, List.sum_append, List.map_congr_left free, Nat.zero_add,
    List.map_congr_left merged]
  simp [Forest.spent]

theorem built_cost {s : State} {t : HuffTree} (fits : (allSymbols.map s.count).sum ≤ 2 ^ 32 - 1)
    (tree : s.built.HoldsTree t) : t.cost s.count 0 = (builtForest s).spent s.live.length := by
  obtain ⟨ixs, represents, nodup, filled, -⟩ := tree
  change ∀ i : NodeIdx, i ∈ ixs ↔ i.val < 2 * s.live.length - 1 at filled
  have n := builtForest_n s
  have few := length_live_le s
  have cost := Represents.cost_eq (f := builtForest s) represents
    (fun j hj t' jxs h => built_weight fits h ((filled j).mp hj)) 0
  have entries : ixs.Perm (block 0 (builtForest s).n) :=
    (List.perm_ext_iff_of_nodup nodup (nodup_block (by omega))).mpr fun i => by
      rw [filled, mem_block (by omega), n]
      omega
  rw [cost, (entries.map _).sum_eq, Nat.zero_mul, Nat.zero_add]
  exact (builtForest_merging fits).sum_costAt (by omega) fun i below => by
    rw [(builtForest_leaf s below).1, Node.isLeaf_leaf]

/-- Settles O30: the tree costs what the rounds spend, and any other tree's depths pay for the rounds. -/
theorem buildTreeIsOptimal : Obligations.BuildTreeIsOptimal := by
  intro s u t t' fits h tree same
  obtain rfl := eq_built_of_exec fits h
  have leaves := leafForest_leavesOf s
  have weights : (t'.pairs s.count 0).map Prod.fst = (leafForest s).weights := by
    rw [HuffTree.fst_pairs, leafForest_weights, Multiset.coe_eq_coe]
    exact (same.trans (built_leaves fits tree)).map _
  obtain ⟨Q, -, -, cost⟩ := (leafForest_merging s).spent_le (length_live_le s) (by omega) (mergeAll_rounds _ _) weights
    (t'.leafDepths_pairs _)
  have start : (leafForest s).spent s.live.length = 0 := by simp [Forest.spent, leaves.n, block]
  calc t.cost s.count 0 = (builtForest s).spent s.live.length := built_cost fits tree
    _ ≤ pairsCost (t'.pairs s.count 0) := by
      change (builtForest s).spent _ + _ ≤ _ at cost
      omega
    _ = t'.cost s.count 0 := t'.pairsCost_pairs s.count 0

end Sys2Proof.Machine
end

section
/-! PROOFS. The Code Table Generator (spec/42 R190 to R195): on a tree GENCODES assigns the codes in order, to the end
where the leaves are distinct and up to the first repeated one where they are not; codes of different leaves are no
prefixes of each other. -/

namespace Sys2Proof.Machine

/-! Commands that find no valid tree or code table (60 R311). -/

/-- A command whose body raises an error completes with it, from the state its body left (40 R153). -/
theorem exec_of_error {i : Instr} {s t : State} {c : Cause} {st : BitVec 8} (body : bodyOf i s = .error c st t) :
    exec i s = .next (t.failedWith c.code (opcodeOf i) st) := by
  rw [exec_eq_complete, body, complete_error]

theorem runGencodes_of_noTree {s : State} (invalid : s.treeValid = false) :
    runGencodes s = .error .noTree (opcodeOf .gencodes) s.invalidateCodes := if_neg (by simp [invalid])

theorem runDecode_of_noTree {s : State} (invalid : s.treeValid = false) :
    runDecode s = .error .noTree (opcodeOf .decode) s.resetSymCount := if_neg (by simp [invalid])

theorem runEncode_of_noCodes {s : State} (invalid : s.codesValid = false) :
    runEncode s = .error .noCodes (opcodeOf .encode) s.resetSymCount := if_neg (by simp [invalid])

/-- Settles O32: each body checks its valid flag before anything else. -/
theorem missingTreeOrCodesIsReported : Obligations.MissingTreeOrCodesIsReported :=
  ⟨fun _ invalid =>
      ⟨exec_of_error (i := .gencodes) (runGencodes_of_noTree invalid),
        exec_of_error (i := .decode) (runDecode_of_noTree invalid)⟩,
    fun _ invalid => exec_of_error (i := .encode) (runEncode_of_noCodes invalid)⟩

/-! The assignment of codes in order: where it ends, and what it stores. -/

/-- A stored code is read back as the bits it was made of, as long as its value fits the entry (10 R51). -/
theorem bitsOf_code {p : Bits} (fits : p.length ≤ 256) : bitsOf p.length (BitVec.ofNat 256 (valOf p)).toNat = p := by
  rw [BitVec.toNat_ofNat, bitsOf_mod_two_pow _ fits, bitsOf_valOf]

/-- Distinct symbols that have no code yet all get one. -/
theorem assignAll_of_nodup {ps : List (Symbol × Bits)} {s : State} (nodup : (ps.map Prod.fst).Nodup)
    (free : ∀ c ∈ ps, s.codeLen[c.1.val] = 0) : ∃ u, assignAll ps s = .ok u := by
  induction ps generalizing s with
  | nil => exact ⟨s, rfl⟩
  | cons c ps ih =>
    obtain ⟨fresh, nodup⟩ : c.1 ∉ ps.map Prod.fst ∧ (ps.map Prod.fst).Nodup := List.nodup_cons.mp nodup
    rw [assignAll, if_pos (free c (by simp))]
    refine ih nodup fun d hd => ?_
    have other : c.1.val ≠ d.1.val := fun same => fresh (List.mem_map.mpr ⟨d, hd, Fin.ext same.symm⟩)
    rw [State.setCode_codeLen, Vector.getElem_set_ne _ _ other]
    exact free d (by simp [hd])

/-- Codes listed for distinct symbols and assigned from an empty table: the table that is left. -/
theorem assignAll_of_empty {ps : List (Symbol × Bits)} {s : State} (nodup : (ps.map Prod.fst).Nodup)
    (nonempty : ∀ c ∈ ps, c.2 ≠ []) (emptyLen : ∀ v : Symbol, s.codeLen[v.val] = 0)
    (emptyVal : ∀ v : Symbol, s.codeVal[v.val] = 0#256) :
    ∃ u, assignAll ps s = .ok u ∧ CodesOnly s u
      ∧ (∀ v p, (v, p) ∈ ps → u.codeLen[v.val] = p.length ∧ u.codeVal[v.val] = BitVec.ofNat 256 (valOf p))
      ∧ ∀ v : Symbol, v ∉ ps.map Prod.fst → u.codeLen[v.val] = 0 ∧ u.codeVal[v.val] = 0#256 := by
  obtain ⟨u, assigned⟩ := assignAll_of_nodup nodup fun c _ => emptyLen c.1
  have written := assignAll_all ps s
  rw [assigned] at written
  obtain ⟨-, -, stored, kept⟩ := assignAll_eq_ok assigned nonempty
  refine ⟨u, assigned, written, fun v p hp => stored (v, p) hp, fun v hv => ?_⟩
  obtain ⟨len, val⟩ := kept v hv
  exact ⟨len.trans (emptyLen v), val.trans (emptyVal v)⟩

/-- A symbol that has a code already ends the assignment (42 R192). -/
theorem assignAll_cons_of_taken {v : Symbol} {p : Bits} {rest : List (Symbol × Bits)} {s : State}
    (taken : s.codeLen[v.val] ≠ 0) :
    assignAll ((v, p) :: rest) s = .error .dupSymbol (opcodeOf .gencodes) s := if_neg taken

/-- A list of pairs that repeats a key splits at the first pair whose key stands before it. -/
theorem exists_first_repeat {α β : Type} {ps : List (α × β)} (h : ¬ (ps.map Prod.fst).Nodup) :
    ∃ before v p after, ps = before ++ (v, p) :: after ∧ (before.map Prod.fst).Nodup ∧ v ∈ before.map Prod.fst := by
  induction ps using List.reverseRecOn with
  | nil => simp at h
  | append_singleton ps c ih =>
    by_cases nodup : (ps.map Prod.fst).Nodup
    · refine ⟨ps, c.1, c.2, [], rfl, nodup, ?_⟩
      by_contra fresh
      exact h (by simpa using nodup.concat fresh)
    · obtain ⟨before, v, p, after, rfl, distinct, repeated⟩ := ih nodup
      exact ⟨before, v, p, after ++ [c], by simp, distinct, repeated⟩

/-! GENCODES with a valid tree. -/

section
variable {s : State} {t : HuffTree}

theorem HuffTree.ne_nil_of_mem_codes (fits : t.leaves.length ≤ 257) {c : Symbol × Bits} (h : c ∈ t.codes) :
    c.2 ≠ [] :=
  List.ne_nil_of_length_pos (length_of_mem_codes fits h).1

theorem runGencodes_of_tree (valid : s.treeValid = true) (tree : s.HoldsTree t) :
    runGencodes s = (assignAll t.codes s.invalidateCodes.clearCodes).andThen fun u => .ok u.validCodes := by
  have holds : s.invalidateCodes.clearCodes.HoldsTree t := tree
  rw [runGencodes, if_pos valid, assignCodes_eq_assignAll holds (by simp)]

/-- On a tree of distinct leaves GENCODES completes with the tree's codes (42 R190). -/
theorem exec_gencodes_of_nodup (valid : s.treeValid = true) (tree : s.HoldsTree t) (distinct : t.leaves.Nodup) :
    ∃ u, CodesOnly s.invalidateCodes u ∧ u.HoldsCodes t ∧ exec .gencodes s = .next u.validCodes.succeeded := by
  obtain ⟨u, assigned, ⟨_, _, rfl⟩, stored, others⟩ := assignAll_of_empty (ps := t.codes)
    (s := s.invalidateCodes.clearCodes) (by rwa [t.codes_fst]) (fun _ => HuffTree.ne_nil_of_mem_codes tree.leaves_le)
    (by simp) (by simp)
  rw [t.codes_fst] at others
  refine ⟨_, ⟨_, _, rfl⟩, ⟨distinct, stored, others⟩, exec_of_ok (i := .gencodes) ?_⟩
  rw [bodyOf, runGencodes_of_tree valid tree, assigned, Ran.andThen_ok]
  rfl

end

/-- Settles O31: the table GENCODES leaves holds the tree's codes, each of which fits its entry. -/
theorem gencodesAssignsEachLeafItsPath : Obligations.GencodesAssignsEachLeafItsPath := by
  intro s t valid tree distinct
  obtain ⟨_, ⟨codeLen, codeVal, rfl⟩, ⟨-, stored, others⟩, done⟩ := exec_gencodes_of_nodup valid tree distinct
  refine ⟨codeLen, codeVal, done, fun v p hp => ?_, others⟩
  obtain ⟨len, val⟩ := stored v p hp
  obtain ⟨lower, upper⟩ := HuffTree.length_of_mem_codes tree.leaves_le hp
  dsimp only at len val
  exact ⟨len, lower, upper, by rw [len, val, bitsOf_code upper]⟩

/-- Settles O33: the codes before the first repeated leaf are assigned, and its symbol has one of them. -/
theorem gencodesReportsARepeatedLeaf : Obligations.GencodesReportsARepeatedLeaf := by
  intro s t valid tree repeats
  rw [← t.codes_fst] at repeats
  obtain ⟨before, v, p, after, split, distinct, repeated⟩ := exists_first_repeat repeats
  have short {c : Symbol × Bits} (hc : c ∈ before) : 1 ≤ c.2.length ∧ c.2.length ≤ 256 :=
    HuffTree.length_of_mem_codes tree.leaves_le (split ▸ List.mem_append_left _ hc)
  obtain ⟨u, assigned, ⟨codeLen, codeVal, rfl⟩, stored, others⟩ := assignAll_of_empty
    (s := s.invalidateCodes.clearCodes) distinct (fun c hc => List.ne_nil_of_length_pos (short hc).1) (by simp) (by simp)
  dsimp only at stored others
  have taken : codeLen[v.val] ≠ 0 := by
    obtain ⟨⟨_, q⟩, hq, rfl⟩ := List.mem_map.mp repeated
    have lower := (short hq).1
    have len := (stored _ _ hq).1
    dsimp only at lower len ⊢
    omega
  refine ⟨codeLen, codeVal, before, v, p, after, exec_of_error (i := .gencodes) (c := .dupSymbol) ?_, split, distinct,
    repeated, fun w q hq => ?_, others⟩
  · rw [bodyOf, runGencodes_of_tree valid tree, split, assignAll_append, assigned, Ran.andThen_ok,
      assignAll_cons_of_taken (by exact taken)]
    rfl
  · obtain ⟨len, val⟩ := stored w q hq
    exact ⟨len, by rw [len, val, bitsOf_code (short hq).2]⟩

/-! Prefix-freeness (42 R193). -/

/-- A path goes on from where it began. -/
theorem HuffTree.prefix_of_mem_paths {t : HuffTree} {p q : Bits} {v : Symbol} (h : (v, q) ∈ t.paths p) : p <+: q := by
  induction t generalizing p with
  | leaf w =>
    obtain ⟨-, rfl⟩ : v = w ∧ q = p := by simpa [HuffTree.paths] using h
    exact List.prefix_rfl
  | node l r ihl ihr =>
    obtain h | h : _ ∨ _ := by simpa [HuffTree.paths] using h
    · exact (List.prefix_append _ _).trans (ihl h)
    · exact (List.prefix_append _ _).trans (ihr h)

/-- Paths that part at a node do not come together again. -/
theorem not_prefix_of_parted {p q q' : Bits} {b : Bool} (h : p ++ [b] <+: q) (h' : p ++ [!b] <+: q') : ¬ q <+: q' := by
  intro below
  have same : p ++ [b] = p ++ [!b] := by
    apply List.IsPrefix.eq_of_length
    · exact List.prefix_of_prefix_length_le (h.trans below) h' (by simp)
    · simp
  cases b <;> simp at same

/-- The paths to leaves of different symbols are no prefixes of each other. -/
theorem HuffTree.not_prefix_of_mem_paths {t : HuffTree} {p q q' : Bits} {v w : Symbol} (other : v ≠ w)
    (hv : (v, q) ∈ t.paths p) (hw : (w, q') ∈ t.paths p) : ¬ q <+: q' := by
  induction t generalizing p with
  | leaf x =>
    obtain ⟨rfl, -⟩ : v = x ∧ q = p := by simpa [HuffTree.paths] using hv
    obtain ⟨rfl, -⟩ : w = v ∧ q' = p := by simpa [HuffTree.paths] using hw
    exact absurd rfl other
  | node l r ihl ihr =>
    obtain hv | hv : _ ∨ _ := by simpa [HuffTree.paths] using hv
    all_goals obtain hw | hw : _ ∨ _ := by simpa [HuffTree.paths] using hw
    · exact ihl hv hw
    · exact not_prefix_of_parted (prefix_of_mem_paths hv) (prefix_of_mem_paths hw)
    · exact not_prefix_of_parted (prefix_of_mem_paths hv) (prefix_of_mem_paths hw)
    · exact ihr hv hw

theorem HuffTree.not_prefix_of_mem_codes {t : HuffTree} {q q' : Bits} {v w : Symbol} (other : v ≠ w)
    (hv : (v, q) ∈ t.codes) (hw : (w, q') ∈ t.codes) : ¬ q <+: q' := by
  cases t with
  | leaf x =>
    obtain ⟨rfl, -⟩ : v = x ∧ q = [false] := by simpa [HuffTree.codes] using hv
    obtain ⟨rfl, -⟩ : w = v ∧ q' = [false] := by simpa [HuffTree.codes] using hw
    exact absurd rfl other
  | node l r => exact not_prefix_of_mem_paths (t := .node l r) other hv hw

section
variable {s : State} {t : HuffTree}

/-- In a table that holds the codes of a tree, a symbol's code is the code of its leaf. -/
theorem State.HoldsCodes.codeBits_eq (codes : s.HoldsCodes t) (fits : t.leaves.length ≤ 257) {v : Symbol} {p : Bits}
    (h : (v, p) ∈ t.codes) : s.codeBits v = p := by
  obtain ⟨-, stored, -⟩ := codes
  obtain ⟨len, val⟩ := stored v p h
  rw [State.codeBits, len, val, bitsOf_code (HuffTree.length_of_mem_codes fits h).2]

/-- In a table that holds the codes of a tree, only leaves have a code. -/
theorem State.HoldsCodes.mem_codes (codes : s.HoldsCodes t) (fits : t.leaves.length ≤ 257) {v : Symbol}
    (entry : s.codeLen[v.val] ≠ 0) : (v, s.codeBits v) ∈ t.codes := by
  have leaf : v ∈ t.leaves := by
    obtain ⟨-, -, others⟩ := codes
    by_contra noLeaf
    exact entry (others v noLeaf).1
  rw [← t.codes_fst] at leaf
  obtain ⟨⟨_, p⟩, hp, rfl⟩ := List.mem_map.mp leaf
  rwa [codes.codeBits_eq fits hp]

theorem State.HoldsCodes.prefixFree (codes : s.HoldsCodes t) (fits : t.leaves.length ≤ 257) {v w : Symbol}
    (other : v ≠ w) (hv : s.codeLen[v.val] ≠ 0) (hw : s.codeLen[w.val] ≠ 0) : ¬ s.codeBits v <+: s.codeBits w :=
  HuffTree.not_prefix_of_mem_codes other (codes.mem_codes fits hv) (codes.mem_codes fits hw)

/-- A GENCODES that leaves a valid code table leaves the codes of its tree. -/
theorem holdsCodes_of_exec_gencodes {u : State} (valid : s.treeValid = true) (tree : s.HoldsTree t)
    (done : exec .gencodes s = .next u) (codesValid : u.codesValid = true) : u.HoldsCodes t := by
  by_cases distinct : t.leaves.Nodup
  · obtain ⟨u', -, codes, done'⟩ := exec_gencodes_of_nodup valid tree distinct
    cases done.symm.trans done'
    exact codes
  · obtain ⟨_, _, _, _, _, _, failed, -⟩ := gencodesReportsARepeatedLeaf s t valid tree distinct
    cases done.symm.trans failed
    simp at codesValid

end

/-- Settles O34: in either case the table holds the codes of a tree in the arena. -/
theorem validCodesArePrefixFree : Obligations.ValidCodesArePrefixFree := by
  refine ⟨fun s u t v w valid tree done codesValid other hv hw => ?_, fun s v w inv codesValid other hv hw => ?_⟩
  · exact (holdsCodes_of_exec_gencodes valid tree done codesValid).prefixFree tree.leaves_le other hv hw
  · obtain ⟨t, tree, codes⟩ := inv.codes codesValid
    exact codes.prefixFree tree.leaves_le other hv hw

end Sys2Proof.Machine
end

section
/-! PROOFS. The Header Codec's writing commands and the marker (spec/43 R210 to R214): the header's length, what
HDR_WRITE appends for a tree in the arena, and reads of bits known to stand next in the input. -/

namespace Sys2Proof.Machine

/-! Reads of the unread bits. -/

/-- `n` input bits consumed (20 R91). -/
def State.advance (s : State) (n : Nat) : State := { s with inPos := s.inPos + n }

@[simp] theorem State.advance_node (s : State) (n : Nat) : (s.advance n).node = s.node := rfl

@[simp] theorem State.advance_weight (s : State) (n : Nat) : (s.advance n).weight = s.weight := rfl

@[simp] theorem State.advance_unread (s : State) (n : Nat) : (s.advance n).unread = s.unread.drop n := by
  simp [State.unread, State.advance]

theorem State.length_unread (s : State) : s.unread.length = s.inSrc.length - s.inPos := List.length_drop

/-- With bits of its width next in the input, a read takes them. -/
theorem readBits_of_unread {n : Nat} {s : State} {field rest : Bits} (next : s.unread = field ++ rest)
    (width : field.length = n) (nonempty : 0 < n) :
    readBits n s = some (BitVec.ofNat n (valOf field), s.advance n) := by
  have length := congrArg List.length next
  rw [s.length_unread, List.length_append] at length
  have taken : (s.inSrc.drop s.inPos).take n = field := by
    rw [← State.unread, next, ← width, List.take_left]
  rw [readBits_of_fits (by omega), taken, State.advance]

theorem readBits_of_short {n : Nat} {s : State} (short : s.unread.length < n) : readBits n s = none := by
  rw [s.length_unread] at short
  exact readBits_eq_none.mpr (by omega)

/-! MAGIC_WRITE and MAGIC_READ. -/

/-- Settles O35: the body of MAGIC_WRITE writes one 32-bit field. -/
theorem magicWriteAppendsTheMarker : Obligations.MagicWriteAppendsTheMarker := fun s =>
  exec_of_ok (i := .magicWrite) (t := s.writeBits 32 Config.MAGIC.toNat) rfl

/-- A field as wide as a number's own width has its value exactly when it is the number's bits. -/
theorem ofNat_valOf_eq_iff {n : Nat} {c : Bits} {v : BitVec n} (width : c.length = n) :
    BitVec.ofNat n (valOf c) = v ↔ c = bitsOf n v.toNat := by
  constructor
  · rintro rfl
    exact (bitsOf_ofNat_valOf width).symm
  · rintro rfl
    rw [valOf_bitsOf, Nat.mod_eq_of_lt v.isLt, BitVec.ofNat_toNat, BitVec.setWidth_eq]

/-- With 32 bits left MAGIC_READ consumes them and compares them with the marker (43 R214). -/
theorem runMagicRead_of_long {m : Word} {s : State} (long : 32 ≤ s.unread.length) :
    runMagicRead m s = if s.unread.take 32 = bitsOf 32 m.toNat then .ok (s.advance 32)
      else .error .badMagic (opcodeOf .magicRead) (s.advance 32) := by
  have width : (s.unread.take 32).length = 32 := List.length_take_of_le long
  rw [runMagicRead, readBits_of_unread (List.take_append_drop 32 s.unread).symm width (by decide)]
  simp only [ofNat_valOf_eq_iff width]

theorem runMagicRead_of_short {m : Word} {s : State} (short : s.unread.length < 32) :
    runMagicRead m s = .error .hdrTrunc (opcodeOf .magicRead) s := by
  rw [runMagicRead, readBits_of_short short]

/-- Settles O37: the read of 32 bits, then their comparison as bits. -/
theorem magicReadChecksTheMarker : Obligations.MagicReadChecksTheMarker := by
  refine fun s => ⟨fun marker => exec_of_ok (i := .magicRead) (t := s.advance 32) ?_,
    fun short => exec_of_error (i := .magicRead) (runMagicRead_of_short short),
    fun long other => exec_of_error (i := .magicRead) (t := s.advance 32) (c := .badMagic) ?_⟩
  · have length := congrArg List.length marker
    rw [List.length_take, length_bitsOf] at length
    rw [bodyOf, runMagicRead_of_long (by omega), if_pos marker]
  · rw [bodyOf, runMagicRead_of_long long, if_neg other]
    rfl

/-! HDR_WRITE. -/

/-- A node takes a flag bit, a leaf 9 bits more (30 R121). -/
theorem length_headerBits (nodes : List (Option Symbol)) :
    (headerBits nodes).length = nodes.length + 9 * nodes.countP Option.isSome := by
  induction nodes with
  | nil => rfl
  | cons nd nodes ih =>
    rw [headerBits_cons, List.length_append, ih]
    cases nd <;> simp [nodeBits] <;> omega

theorem HuffTree.length_leaves (t : HuffTree) : t.leaves.length = t.nodes.countP Option.isSome := by
  rw [t.leaves_eq_filterMap_nodes, List.length_filterMap_eq_countP]
  rfl

/-- A header of `L` leaves has `11 L - 1` bits (43 R212). -/
theorem HuffTree.length_header (t : HuffTree) : t.header.length = 11 * t.leaves.length - 1 := by
  have size := t.size_add_one
  rw [t.header_eq_headerBits, length_headerBits, t.length_nodes, ← t.length_leaves]
  omega

/-- Bits appended to the output (20 R93). -/
def State.append (s : State) (b : Bits) : State := { s with out := s.out ++ b }

theorem State.writeBits_eq_append (s : State) (n v : Nat) : s.writeBits n v = s.append (bitsOf n v) := rfl

@[simp] theorem State.append_append (s : State) (b c : Bits) : (s.append b).append c = s.append (b ++ c) := by
  simp [State.append]

/-- On a tree `WriteNode` appends the tree's header (43 R212). -/
theorem writeNode_of_represents {node : Vector Node 513} {i : NodeIdx} {t : HuffTree} {ixs : List NodeIdx}
    (h : Represents node i t ixs) (k : Nat) (s : State) (arena : s.node = node) (deep : t.leaves.length ≤ k) :
    writeNode k i s = .ok (s.append t.header) := by
  induction h generalizing k s with
  | leaf i v entry =>
    obtain ⟨k, rfl⟩ : ∃ j, k = j + 1 := Nat.exists_eq_add_one.mpr deep
    simp [writeNode, arena, entry, HuffTree.header, State.writeBits_eq_append]
  | node i l r tl tr il ir entry _ _ ihl ihr =>
    have left := tl.leaves_pos
    have right := tr.leaves_pos
    simp only [HuffTree.leaves, List.length_append] at deep
    obtain ⟨k, rfl⟩ : ∃ j, k = j + 1 := Nat.exists_eq_add_one.mpr (by omega)
    have split : writeNode (k + 1) i s = (writeNode k l (s.append [false])).andThen (writeNode k r) := by
      simp [writeNode, arena, entry, State.writeBits_eq_append]
    rw [split, ihl k _ (by exact arena) (by omega), Ran.andThen_ok, ihr k _ (by exact arena) (by omega),
      State.append_append, State.append_append, HuffTree.header]
    rfl

theorem runHdrWrite_of_tree {s : State} {t : HuffTree} (valid : s.treeValid = true) (tree : s.HoldsTree t) :
    runHdrWrite s = .ok (s.append t.header) := by
  have fits := tree.leaves_le
  obtain ⟨ixs, represents, -⟩ := tree
  rw [runHdrWrite, if_pos valid, writeNode_of_represents represents _ s rfl (by simp only [Config.NODE_MAX]; omega)]

theorem runHdrWrite_of_noTree {s : State} (invalid : s.treeValid = false) :
    runHdrWrite s = .error .noTree (opcodeOf .hdrWrite) s := if_neg (by simp [invalid])

/-- Settles O36: the walk over the tree appends its header; the valid flag is checked before it. -/
theorem hdrWriteAppendsTheHeader : Obligations.HdrWriteAppendsTheHeader := by
  refine ⟨fun s t valid tree => ⟨exec_of_ok (i := .hdrWrite) (runHdrWrite_of_tree valid tree), ?_⟩,
    fun s invalid => exec_of_error (i := .hdrWrite) (runHdrWrite_of_noTree invalid)⟩
  obtain ⟨_, -, -, -, count⟩ := tree
  rw [t.length_header, count]

end Sys2Proof.Machine
end

section
/-! PROOFS. HDR_READ (spec/43 R216 to R221): one node read by the bits that stand next; on a header the whole tree is
rebuilt, and a node that cannot be read ends the reads of every tree above it. -/

namespace Sys2Proof.Machine

/-! One node read. -/

/-- What follows a node read runs only when the node was read. -/
def NodeRead.andThen : NodeRead → (NodeIdx → Nat → State → NodeRead) → NodeRead
  | .got i n s, k => k i n s
  | .failed c s, _ => .failed c s

@[simp] theorem NodeRead.andThen_got (i : NodeIdx) (n : Nat) (s : State) (k : NodeIdx → Nat → State → NodeRead) :
    (NodeRead.got i n s).andThen k = k i n s := rfl

@[simp] theorem NodeRead.andThen_failed (c : Cause) (s : State) (k : NodeIdx → Nat → State → NodeRead) :
    (NodeRead.failed c s).andThen k = .failed c s := rfl

/-- The node at entry `i` begun: its flag bit is consumed and its weight 0 (43 R216). -/
def State.begin (s : State) (i : NodeIdx) : State := (s.advance 1).setWeight i 0#32

@[simp] theorem State.begin_node (s : State) (i : NodeIdx) : (s.begin i).node = s.node := rfl

@[simp] theorem State.begin_weight (s : State) (i : NodeIdx) : (s.begin i).weight = s.weight.set i.val 0#32 i.isLt :=
  rfl

@[simp] theorem State.begin_unread (s : State) (i : NodeIdx) : (s.begin i).unread = s.unread.drop 1 :=
  s.advance_unread 1

section
variable {k n : Nat} {s : State} {rest : Bits}

/-- The flag bit of a leaf and of an internal node as `ReadNode` compares them. -/
theorem flag_true : BitVec.ofBool true = 1#1 := rfl

theorem flag_false : BitVec.ofBool false ≠ 1#1 := by decide

/-- The bit that stands next in the input is read. -/
theorem readBits_one {b : Bool} (next : s.unread = b :: rest) :
    readBits 1 s = some (BitVec.ofBool b, s.advance 1) := by
  rw [readBits_of_unread (n := 1) (field := [b]) next rfl (by decide)]
  cases b <;> rfl

/-- No flag bit is left (43 R221). -/
theorem readNode_of_nil (empty : s.unread = []) : readNode (k + 1) n s = .failed .hdrTrunc s := by
  rw [readNode, readBits_of_short (by simp [empty])]

/-- A flag bit is left but no entry (43 R220). -/
theorem readNode_of_full {b : Bool} (next : s.unread = b :: rest) (full : 513 ≤ n) :
    readNode (k + 1) n s = .failed .hdrOverflow (s.advance 1) := by
  simp only [readNode, readBits_one next, dif_neg (Nat.not_lt.mpr full)]

/-- An internal node is read with both its subtrees, left before right (43 R216). -/
theorem readNode_of_false (next : s.unread = false :: rest) (room : n < 513) :
    readNode (k + 1) n s = (readNode k (n + 1) (s.begin ⟨n, room⟩)).andThen fun l m x =>
      (readNode k m x).andThen fun r m' y => .got ⟨n, room⟩ m' (y.setNode ⟨n, room⟩ (.internal l r)) := by
  simp only [readNode, readBits_one next, dif_pos room, if_neg flag_false]
  rw [State.begin]
  cases readNode k (n + 1) ((s.advance 1).setWeight ⟨n, room⟩ 0#32) with
  | failed c x => rfl
  | got l m x =>
    dsimp only [NodeRead.andThen]
    cases readNode k m x <;> rfl

/-- A leaf's field is cut (43 R221, 20 R92). -/
theorem readNode_of_cut (next : s.unread = true :: rest) (room : n < 513) (short : rest.length < 9) :
    readNode (k + 1) n s = .failed .hdrTrunc (s.begin ⟨n, room⟩) := by
  have cut : readBits 9 (s.begin ⟨n, room⟩) = none := readBits_of_short (by simpa [next] using short)
  rw [State.begin] at cut ⊢
  simp only [readNode, readBits_one next, dif_pos room, if_pos flag_true, cut]

/-- A leaf's field is read as its value. -/
theorem readBits_field {field : Bits} {i : NodeIdx} (next : s.unread = true :: (field ++ rest))
    (width : field.length = 9) :
    ∃ v : BitVec 9, readBits 9 (s.begin i) = some (v, (s.begin i).advance 9) ∧ v.toNat = valOf field := by
  refine ⟨_, readBits_of_unread (rest := rest) (by simp [next]) width (by decide), ?_⟩
  have small := valOf_lt field
  rw [width] at small
  rw [BitVec.toNat_ofNat, Nat.mod_eq_of_lt small]

/-- A leaf of a symbol (43 R216). -/
theorem readNode_of_leaf {v : Symbol} (next : s.unread = true :: (bitsOf 9 v.val ++ rest)) (room : n < 513) :
    readNode (k + 1) n s
      = .got ⟨n, room⟩ (n + 1) (((s.begin ⟨n, room⟩).advance 9).setNode ⟨n, room⟩ (.leaf v)) := by
  obtain ⟨f, read, value⟩ := readBits_field (i := ⟨n, room⟩) next (length_bitsOf 9 v.val)
  rw [valOf_bitsOf, Nat.mod_eq_of_lt (by omega)] at value
  rw [State.begin] at read ⊢
  simp only [readNode, readBits_one next, dif_pos room, if_pos flag_true, read, value, v.isLt, dif_pos]

/-- A leaf field that is no symbol (43 R219). -/
theorem readNode_of_badSymbol {field : Bits} (next : s.unread = true :: (field ++ rest)) (width : field.length = 9)
    (room : n < 513) (bad : 257 ≤ valOf field) :
    readNode (k + 1) n s = .failed .hdrSymbol ((s.begin ⟨n, room⟩).advance 9) := by
  obtain ⟨f, read, value⟩ := readBits_field (i := ⟨n, room⟩) next width
  have notSymbol : ¬ f.toNat < 257 := by omega
  rw [State.begin] at read ⊢
  simp only [readNode, readBits_one next, dif_pos room, if_pos flag_true, read, dif_neg notSymbol]

end

/-! What a node read consumes and writes. -/

/-- `d` input bits consumed and arena entries written only. -/
def Consumes (d : Nat) (s t : State) : Prop :=
  ∃ node weight, t = { s with inPos := s.inPos + d, node := node, weight := weight }

theorem Consumes.trans {d e : Nat} {s t u : State} : Consumes d s t → Consumes e t u → Consumes (d + e) s u := by
  rintro ⟨_, _, rfl⟩ ⟨node, weight, rfl⟩
  exact ⟨node, weight, by simp [Nat.add_assoc]⟩

theorem Consumes.unread {d : Nat} {s t : State} : Consumes d s t → t.unread = s.unread.drop d := by
  rintro ⟨_, _, rfl⟩
  exact s.advance_unread d

theorem consumes_refl (s : State) : Consumes 0 s s := ⟨s.node, s.weight, rfl⟩

theorem consumes_advance (s : State) (n : Nat) : Consumes n s (s.advance n) := ⟨s.node, s.weight, rfl⟩

theorem consumes_begin (s : State) (i : NodeIdx) : Consumes 1 s (s.begin i) := ⟨s.node, _, rfl⟩

theorem Consumes.setNode {d : Nat} {s t : State} (h : Consumes d s t) (i : NodeIdx) (nd : Node) :
    Consumes d s (t.setNode i nd) := by
  obtain ⟨_, _, rfl⟩ := h
  exact ⟨_, _, rfl⟩

/-- From `s` the header of `t` has been consumed and `t` rebuilt in the entries from `i` on, in preorder and with
weights 0; the other entries are as they were (43 R216, R217). -/
structure Rebuilds (s : State) (i : NodeIdx) (t : HuffTree) (u : State) : Prop where
  consumes : Consumes t.header.length s u
  represents : Represents u.node i t (block i.val t.size)
  weight : ∀ j : NodeIdx, i.val ≤ j.val → j.val < i.val + t.size → u.weight[j.val] = 0#32
  kept : ∀ j : NodeIdx, j.val < i.val ∨ i.val + t.size ≤ j.val →
    u.node[j.val] = s.node[j.val] ∧ u.weight[j.val] = s.weight[j.val]

theorem rebuilds_leaf (s : State) (i : NodeIdx) (v : Symbol) :
    Rebuilds s i (.leaf v) (((s.begin i).advance 9).setNode i (.leaf v)) where
  consumes := by
    have consumed := (consumes_begin s i).trans (consumes_advance _ 9)
    simpa [HuffTree.header] using consumed.setNode i _
  represents := by
    rw [HuffTree.size, block_succ i.val 0 i.isLt]
    exact .leaf i v (by simp)
  weight j lower upper := by
    have same : i.val = j.val := by rw [HuffTree.size] at upper; omega
    simp [same]
  kept j other := by
    have differ : i.val ≠ j.val := by rw [HuffTree.size] at other; omega
    simp [differ]

theorem HuffTree.size_pos (t : HuffTree) : 0 < t.size := by
  have size := t.size_add_one
  have leaves := t.leaves_pos
  omega

theorem HuffTree.length_header_node (l r : HuffTree) :
    (HuffTree.node l r).header.length = 1 + l.header.length + r.header.length := by
  simp [HuffTree.header]
  omega

/-- Both subtrees rebuilt one after the other in the entries after a node's own rebuild the node's tree. -/
theorem Rebuilds.node {s x y : State} {i j k : NodeIdx} {l r : HuffTree} (left : Rebuilds (s.begin i) j l x)
    (right : Rebuilds x k r y) (first : j.val = i.val + 1) (second : k.val = j.val + l.size)
    (fits : k.val + r.size ≤ 513) : Rebuilds s i (.node l r) (y.setNode i (.internal j k)) where
  consumes := by
    have consumed := ((consumes_begin s i).trans left.consumes).trans right.consumes
    rw [HuffTree.length_header_node]
    exact consumed.setNode i _
  represents := by
    have entries : block i.val (HuffTree.node l r).size = i :: (block j.val l.size ++ block k.val r.size) := by
      rw [HuffTree.size, block_succ i.val _ i.isLt, block_append, second, first]
    rw [entries]
    refine .node i j k l r _ _ (by simp) (left.represents.congr fun m hm => ?_) (right.represents.congr fun m hm => ?_)
    · rw [mem_block (by omega)] at hm
      rw [State.setNode_node, Vector.getElem_set_ne _ _ (by omega), (right.kept m (by omega)).1]
    · rw [mem_block (by omega)] at hm
      rw [State.setNode_node, Vector.getElem_set_ne _ _ (by omega)]
  weight m lower upper := by
    rw [HuffTree.size] at upper
    rw [State.setNode_weight]
    by_cases inRight : k.val ≤ m.val
    · exact right.weight m inRight (by omega)
    · rw [(right.kept m (by omega)).2]
      by_cases inLeft : j.val ≤ m.val
      · exact left.weight m inLeft (by omega)
      · have own : i.val = m.val := by omega
        rw [(left.kept m (by omega)).2]
        simp [own]
  kept m other := by
    rw [HuffTree.size] at other
    obtain ⟨nodeRight, weightRight⟩ := right.kept m (by omega)
    obtain ⟨nodeLeft, weightLeft⟩ := left.kept m (by omega)
    have differ : i.val ≠ m.val := by omega
    simp [nodeRight, weightRight, nodeLeft, weightLeft, differ]

/-- On a header whose tree has room a node read rebuilds the tree (43 R216). -/
theorem readNode_of_header {t : HuffTree} {k : Nat} {i : NodeIdx} {s : State} {rest : Bits}
    (next : s.unread = t.header ++ rest) (fits : i.val + t.size ≤ 513) (deep : 514 ≤ k + i.val) :
    ∃ u, readNode k i.val s = .got i (i.val + t.size) u ∧ Rebuilds s i t u := by
  induction t generalizing k i s rest with
  | leaf v =>
    obtain ⟨k, rfl⟩ : ∃ j, k = j + 1 := Nat.exists_eq_add_one.mpr (by omega)
    exact ⟨_, readNode_of_leaf next i.isLt, rebuilds_leaf s i v⟩
  | node l r ihl ihr =>
    obtain ⟨k, rfl⟩ : ∃ j, k = j + 1 := Nat.exists_eq_add_one.mpr (by omega)
    rw [HuffTree.size] at fits
    have sizel := l.size_pos
    have sizer := r.size_pos
    have next' : s.unread = false :: (l.header ++ (r.header ++ rest)) := by simpa [HuffTree.header] using next
    obtain ⟨x, readl, left⟩ := ihl (k := k) (i := ⟨i.val + 1, by omega⟩) (s := s.begin i) (rest := r.header ++ rest)
      (by simp [next']) (by dsimp only; omega) (by dsimp only; omega)
    obtain ⟨y, readr, right⟩ := ihr (k := k) (i := ⟨i.val + 1 + l.size, by omega⟩) (s := x) (rest := rest)
      (by simp [left.consumes.unread, next']) (by dsimp only; omega) (by dsimp only; omega)
    refine ⟨_, ?_, left.node right rfl rfl (by dsimp only; omega)⟩
    dsimp only at readl readr
    rw [readNode_of_false next' i.isLt, readl, NodeRead.andThen_got, readr, NodeRead.andThen_got, HuffTree.size,
      show i.val + 1 + l.size + r.size = i.val + (l.size + r.size + 1) by omega]

/-! Node reads that fail. -/

/-- The node read fails with cause `c` after `d` bits. -/
def Fails (c : Cause) (d k n : Nat) (s : State) : Prop := ∃ u, readNode k n s = .failed c u ∧ Consumes d s u

section
variable {c : Cause} {d k n : Nat} {s : State} {rest : Bits}

theorem fails_of_nil (empty : s.unread = []) (deep : 0 < k) : Fails .hdrTrunc 0 k n s := by
  obtain ⟨k, rfl⟩ := Nat.exists_eq_add_one.mpr deep
  exact ⟨s, readNode_of_nil empty, consumes_refl s⟩

theorem fails_of_full {b : Bool} (next : s.unread = b :: rest) (full : 513 ≤ n) (deep : 0 < k) :
    Fails .hdrOverflow 1 k n s := by
  obtain ⟨k, rfl⟩ := Nat.exists_eq_add_one.mpr deep
  exact ⟨_, readNode_of_full next full, consumes_advance s 1⟩

theorem fails_of_cut (next : s.unread = true :: rest) (room : n < 513) (short : rest.length < 9) (deep : 0 < k) :
    Fails .hdrTrunc 1 k n s := by
  obtain ⟨k, rfl⟩ := Nat.exists_eq_add_one.mpr deep
  exact ⟨_, readNode_of_cut next room short, consumes_begin s _⟩

theorem fails_of_badSymbol {field : Bits} (next : s.unread = true :: (field ++ rest)) (width : field.length = 9)
    (room : n < 513) (bad : 257 ≤ valOf field) (deep : 0 < k) : Fails .hdrSymbol 10 k n s := by
  obtain ⟨k, rfl⟩ := Nat.exists_eq_add_one.mpr deep
  exact ⟨_, readNode_of_badSymbol next width room bad, (consumes_begin s _).trans (consumes_advance _ 9)⟩

/-- A failure in the left subtree is the node's. -/
theorem fails_of_left (next : s.unread = false :: rest) (room : n < 513)
    (left : Fails c d k (n + 1) (s.begin ⟨n, room⟩)) : Fails c (1 + d) (k + 1) n s := by
  obtain ⟨u, failed, consumed⟩ := left
  refine ⟨u, ?_, (consumes_begin s _).trans consumed⟩
  rw [readNode_of_false next room, failed, NodeRead.andThen_failed]

/-- After the left subtree has been read, a failure in the right one is the node's. -/
theorem exists_left_read {t : HuffTree} (next : s.unread = false :: (t.header ++ rest)) (fits : n + 1 + t.size ≤ 513)
    (deep : 514 ≤ k + 1 + n) : ∃ x : State, x.unread = rest
      ∧ ∀ {c : Cause} {d : Nat}, Fails c d k (n + 1 + t.size) x → Fails c (1 + t.header.length + d) (k + 1) n s := by
  have room : n + 1 < 513 := by
    have size := t.size_pos
    omega
  obtain ⟨x, read, left⟩ := readNode_of_header (t := t) (k := k) (i := ⟨n + 1, room⟩) (s := s.begin ⟨n, by omega⟩)
    (rest := rest) (by simp [next]) fits (by dsimp only; omega)
  refine ⟨x, by simp [left.consumes.unread, next], fun ⟨u, failed, consumed⟩ =>
    ⟨u, ?_, ((consumes_begin s _).trans left.consumes).trans consumed⟩⟩
  dsimp only at read
  rw [readNode_of_false next (by omega), read, NodeRead.andThen_got, failed, NodeRead.andThen_failed]

end

/-- An element of two lists put together stands in the first or in the second. -/
theorem append_cons_cases {α : Type} {as bs cs ds : List α} {x : α} (h : as ++ bs = cs ++ x :: ds) :
    (∃ ds', as = cs ++ x :: ds') ∨ ∃ cs', cs = as ++ cs' ∧ bs = cs' ++ x :: ds := by
  obtain ⟨cs', below, rest⟩ | ⟨es, below, rest⟩ := List.append_eq_append_iff.mp h
  · exact .inr ⟨cs', below, rest⟩
  · cases es with
    | nil => exact .inr ⟨[], by simpa using below.symm, by simpa using rest.symm⟩
    | cons y es =>
      obtain ⟨rfl, -⟩ : x = y ∧ _ := by simpa using rest
      exact .inl ⟨es, below⟩

/-- A node that cannot be read ends the read of the whole tree, after the nodes before it in preorder (43 R216). -/
theorem fails_at_node {t : HuffTree} {pre post : List (Option Symbol)} {nd : Option Symbol} {c : Cause} {d k n : Nat}
    {s : State} {tail : Bits} (nodes : t.nodes = pre ++ nd :: post) (next : s.unread = headerBits pre ++ tail)
    (room : n + pre.length ≤ 513) (deep : 514 ≤ k + n)
    (fails : ∀ (k : Nat) (x : State), 0 < k → x.unread = tail → Fails c d k (n + pre.length) x) :
    Fails c ((headerBits pre).length + d) k n s := by
  induction t generalizing pre post k n s with
  | leaf v =>
    obtain ⟨rfl, -⟩ : pre = [] ∧ _ := by simpa [HuffTree.nodes, List.cons_eq_append_iff] using nodes
    simpa using fails k s (by omega) next
  | node l r ihl ihr =>
    cases pre with
    | nil => simpa using fails k s (by simp only [List.length_nil] at room; omega) next
    | cons first pre =>
      obtain ⟨rfl, split⟩ : none = first ∧ l.nodes ++ r.nodes = pre ++ nd :: post := by
        simpa [HuffTree.nodes] using nodes
      simp only [List.length_cons] at room fails
      obtain ⟨k, rfl⟩ : ∃ j, k = j + 1 := Nat.exists_eq_add_one.mpr (by omega)
      have next' : s.unread = false :: (headerBits pre ++ tail) := by simpa [nodeBits] using next
      rw [show (headerBits (none :: pre)).length + d = 1 + ((headerBits pre).length + d) by simp [nodeBits]; omega]
      obtain ⟨post, inLeft⟩ | ⟨pre, rfl, inRight⟩ := append_cons_cases split
      · refine fails_of_left next' (by omega) (ihl inLeft (by simp [next']) (by omega) (by omega) ?_)
        rwa [Nat.add_right_comm, Nat.add_assoc]
      · rw [headerBits_append, ← l.header_eq_headerBits] at next' ⊢
        rw [List.length_append, l.length_nodes] at room fails
        rw [List.length_append, Nat.add_assoc, ← Nat.add_assoc 1]
        rw [List.append_assoc] at next'
        obtain ⟨x, rest, failsRight⟩ := exists_left_read (n := n) next' (by omega) (by omega)
        refine failsRight (ihr inRight rest (by omega) (by omega) ?_)
        rwa [show n + 1 + l.size + pre.length = n + (l.size + pre.length + 1) by omega]

/-- In any input there stands either the header of a tree that has room, or something a node read fails on. -/
theorem header_or_fails (k n : Nat) (s : State) (deep : 514 ≤ k + n) :
    (∃ (t : HuffTree) (rest : Bits), s.unread = t.header ++ rest ∧ n + t.size ≤ 513)
      ∨ ∃ c ∈ [Cause.hdrTrunc, .hdrSymbol, .hdrOverflow], ∃ d, Fails c d k n s := by
  induction k generalizing n s with
  | zero => exact .inr ⟨.hdrOverflow, by simp, 0, s, rfl, consumes_refl s⟩
  | succ k ih =>
    cases next : s.unread with
    | nil => exact .inr ⟨_, by simp, _, fails_of_nil next k.succ_pos⟩
    | cons b bits =>
      by_cases full : 513 ≤ n
      · exact .inr ⟨_, by simp, _, fails_of_full next full k.succ_pos⟩
      have room : n < 513 := by omega
      cases b with
      | true =>
        by_cases short : bits.length < 9
        · exact .inr ⟨_, by simp, _, fails_of_cut next room short k.succ_pos⟩
        have width : (bits.take 9).length = 9 := List.length_take_of_le (by omega)
        have field := List.take_append_drop 9 bits
        rw [← field] at next
        by_cases bad : 257 ≤ valOf (bits.take 9)
        · exact .inr ⟨_, by simp, _, fails_of_badSymbol next width room bad k.succ_pos⟩
        · have symbol := bitsOf_valOf (bits.take 9)
          rw [width] at symbol
          refine .inl ⟨.leaf ⟨valOf (bits.take 9), by omega⟩, bits.drop 9, ?_, room⟩
          rw [HuffTree.header, symbol, List.cons_append, field]
      | false =>
        obtain ⟨l, rest, left, fits⟩ | ⟨c, mem, d, left⟩ := ih (n + 1) (s.begin ⟨n, room⟩) (by omega)
        · obtain rfl : bits = l.header ++ rest := by simpa [next] using left
          obtain ⟨x, unread, failsRight⟩ := exists_left_read next fits deep
          obtain ⟨r, rest', right, fits'⟩ | ⟨c, mem, d, right⟩ := ih (n + 1 + l.size) x (by omega)
          · obtain rfl : rest = r.header ++ rest' := unread.symm.trans right
            exact .inl ⟨.node l r, rest', by simp [HuffTree.header], by rw [HuffTree.size]; omega⟩
          · exact .inr ⟨c, mem, _, failsRight right⟩
        · exact .inr ⟨c, mem, _, fails_of_left next room left⟩

/-! HDR_READ. -/

theorem runHdrRead_of_got {s u : State} {i : NodeIdx} {m : Nat} (read : readNode 514 0 s.invalidate = .got i m u) :
    runHdrRead s = .ok (u.validTree i m (leavesBelow m u)) := by
  rw [runHdrRead, read]

theorem runHdrRead_of_failed {s u : State} {c : Cause} (read : readNode 514 0 s.invalidate = .failed c u) :
    runHdrRead s = .error c (opcodeOf .hdrRead) u := by
  rw [runHdrRead, read]

/-- The entries from 0 on are a block. -/
theorem range_map_eq_block (n : Nat) : (List.range n).map (Fin.ofNat 513) = block 0 n := by
  rw [block, List.range_eq_range']

/-- A tree in the entries from 0 on is a tree the arena holds (10 R49). -/
theorem holdsTree_of_block {s : State} {t : HuffTree}
    (represents : Represents s.node s.root t ((List.range t.size).map (Fin.ofNat 513))) (nodes : s.nodeCount = t.size)
    (fits : t.size ≤ 513) (leaves : s.leafCount = t.leaves.length) : s.HoldsTree t := by
  rw [range_map_eq_block] at represents
  refine ⟨_, represents, nodup_block (by omega), fun i => ?_, leaves⟩
  rw [mem_block (by omega), nodes]
  omega

/-- A node read at entry 0 that fails ends HDR_READ, with no valid tree (43 R216, 60 R314). -/
theorem exec_hdrRead_of_fails {s : State} {c : Cause} {d : Nat} (h : Fails c d 514 0 s.invalidate) :
    ∃ node weight, exec .hdrRead s = .next
      (({ s with
          inPos := s.inPos + d, node := node, weight := weight
          treeValid := false, codesValid := false } : State).failedWith c.code 0x39#8 0x39#8) := by
  obtain ⟨_, failed, node, weight, rfl⟩ := h
  exact ⟨node, weight, exec_of_error (i := .hdrRead) (runHdrRead_of_failed failed)⟩

/-- A node of a header that cannot be read ends HDR_READ, after the nodes before it. -/
theorem exec_hdrRead_of_node_fails {t : HuffTree} {pre post : List (Option Symbol)} {nd : Option Symbol} {s : State}
    {tail : Bits} (c : Cause) (d : Nat) (nodes : t.nodes = pre ++ nd :: post) (next : s.unread = headerBits pre ++ tail)
    (room : pre.length ≤ 513)
    (fails : ∀ (k : Nat) (x : State), 0 < k → x.unread = tail → Fails c d k pre.length x) :
    ∃ node weight, exec .hdrRead s = .next
      (({ s with
          inPos := s.inPos + ((headerBits pre).length + d), node := node, weight := weight
          treeValid := false, codesValid := false } : State).failedWith c.code 0x39#8 0x39#8) :=
  exec_hdrRead_of_fails (fails_at_node nodes next (by rwa [Nat.zero_add]) le_rfl (by rwa [Nat.zero_add]))

/-- Settles O38: the node read at entry 0 rebuilds the tree, whose leaves are then counted. -/
theorem hdrReadRebuildsTheTree : Obligations.HdrReadRebuildsTheTree := by
  intro s t rest next fits
  obtain ⟨u, read, ⟨node, weight, rfl⟩, represents, zero, kept⟩ := readNode_of_header (t := t) (k := 514) (i := 0)
    (s := s.invalidate) next (by simpa using fits) le_rfl
  simp only [Fin.val_zero, Nat.zero_add] at read represents zero kept
  have body := runHdrRead_of_got read
  rw [leavesBelow_eq_countP _ fits, represents.countP_isLeaf] at body
  refine ⟨node, weight, exec_of_ok (i := .hdrRead) body, ?_, fun i => zero i i.val.zero_le,
    fun i unused => kept i (.inr unused)⟩
  rwa [range_map_eq_block]

/-- Settles O39: at the node in question the input ends, its field is cut, or its field is no symbol. -/
theorem hdrReadReportsATruncatedOrBadHeader : Obligations.HdrReadReportsATruncatedOrBadHeader := by
  refine ⟨fun s t pre post nd nodes room next => ?_, fun s t pre post v part nodes room short next => ?_,
    fun s t pre post v field rest nodes room lower upper next => ?_⟩
  · exact exec_hdrRead_of_node_fails .hdrTrunc 0 nodes (next.trans (List.append_nil _).symm) room
      fun k x deep empty => fails_of_nil empty deep
  · exact exec_hdrRead_of_node_fails .hdrTrunc 1 nodes next room.le
      fun k x deep unread => fails_of_cut unread room short deep
  · have bad : 257 ≤ valOf (bitsOf 9 field) := by rwa [valOf_bitsOf, Nat.mod_eq_of_lt (by omega)]
    rw [List.append_assoc] at next
    exact exec_hdrRead_of_node_fails .hdrSymbol 10 nodes next room.le
      fun k x deep unread => fails_of_badSymbol unread (length_bitsOf 9 field) room bad deep

/-- The header up to a node's flag bit. -/
theorem HuffTree.take_header {t : HuffTree} {pre post : List (Option Symbol)} {nd : Option Symbol}
    (nodes : t.nodes = pre ++ nd :: post) :
    t.header.take ((headerBits pre).length + 1) = headerBits pre ++ [nd.isSome] := by
  rw [t.header_eq_headerBits, nodes, headerBits_append, List.take_length_add_append, headerBits_cons]
  cases nd <;> simp [nodeBits]

/-- The number of header bits up to a node's flag bit. -/
theorem HuffTree.length_headerBits_add_one {t : HuffTree} {pre post : List (Option Symbol)} {nd : Option Symbol}
    (nodes : t.nodes = pre ++ nd :: post) :
    (headerBits pre).length + 1 = pre.length + 1 + 9 * (t.preorder.take pre.length).countP id := by
  rw [length_headerBits, t.preorder_eq_map_nodes, nodes, List.map_append, ← pre.length_map Option.isSome,
    List.take_left, List.countP_map, List.length_map, Function.id_comp]
  omega

/-- Settles O40: the first 513 nodes fill the arena, and one flag bit more finds no entry. -/
theorem hdrReadReportsAnOversizedHeader : Obligations.HdrReadReportsAnOversizedHeader := by
  intro s t large next
  rw [← t.length_nodes] at large
  have nodes : t.nodes = t.nodes.take 513 ++ t.nodes[513] :: t.nodes.drop 514 := by
    rw [← List.drop_eq_getElem_cons, List.take_append_drop]
  have filled : (t.nodes.take 513).length = 513 := List.length_take_of_le large.le
  generalize t.nodes.take 513 = pre at nodes filled
  have bits := HuffTree.length_headerBits_add_one nodes
  rw [filled] at bits
  rw [← bits, HuffTree.take_header nodes] at next
  rw [← bits]
  obtain ⟨rest, unread⟩ := next
  exact exec_hdrRead_of_node_fails .hdrOverflow 1 nodes (unread.symm.trans (List.append_assoc _ _ _)) filled.le
    fun k x deep unread => fails_of_full unread filled.ge deep

/-- Settles O41: either there stands a header that HDR_READ rebuilds, or the node read at entry 0 fails. -/
theorem hdrReadSucceedsExactlyOnHeaders : Obligations.HdrReadSucceedsExactlyOnHeaders := by
  intro s noErr
  by_cases header : ∃ (t : HuffTree) (rest : Bits), t.size ≤ 513 ∧ s.unread = t.header ++ rest
  · obtain ⟨t, rest, fits, next⟩ := header
    obtain ⟨node, weight, done, represents, -⟩ := hdrReadRebuildsTheTree s t rest next fits
    exact ⟨_, done, rfl, .inl ⟨noErr, rfl, rfl, t, rest, fits, next, holdsTree_of_block represents rfl fits rfl⟩⟩
  · obtain ⟨t, rest, next, fits⟩ | ⟨c, mem, d, fails⟩ := header_or_fails 514 0 s.invalidate le_rfl
    · exact absurd ⟨t, rest, by simpa using fits, next⟩ header
    · obtain ⟨node, weight, failed⟩ := exec_hdrRead_of_fails fails
      refine ⟨_, failed, rfl, .inr ⟨rfl, rfl, ?_, rfl, header⟩⟩
      obtain rfl | rfl | rfl : c = .hdrTrunc ∨ c = .hdrSymbol ∨ c = .hdrOverflow := by simpa using mem
      · exact .inl rfl
      · exact .inr (.inl rfl)
      · exact .inr (.inr rfl)

/-! The header round trip. -/

/-- Two code tables that hold the codes of a tree are the same. -/
theorem State.HoldsCodes.unique {s u : State} {t : HuffTree} (hs : s.HoldsCodes t) (hu : u.HoldsCodes t) :
    s.codeLen = u.codeLen ∧ s.codeVal = u.codeVal := by
  obtain ⟨-, storeds, otherss⟩ := hs
  obtain ⟨-, storedu, othersu⟩ := hu
  have same (v : Symbol) : s.codeLen[v.val] = u.codeLen[v.val] ∧ s.codeVal[v.val] = u.codeVal[v.val] := by
    by_cases leaf : v ∈ t.leaves
    · rw [← t.codes_fst] at leaf
      obtain ⟨⟨_, p⟩, hp, rfl⟩ := List.mem_map.mp leaf
      obtain ⟨lens, vals⟩ := storeds _ p hp
      obtain ⟨lenu, valu⟩ := storedu _ p hp
      exact ⟨lens.trans lenu.symm, vals.trans valu.symm⟩
    · obtain ⟨lens, vals⟩ := otherss v leaf
      obtain ⟨lenu, valu⟩ := othersu v leaf
      exact ⟨lens.trans lenu.symm, vals.trans valu.symm⟩
  exact ⟨Vector.ext fun v hv => (same ⟨v, hv⟩).1, Vector.ext fun v hv => (same ⟨v, hv⟩).2⟩

/-- GENCODES gives the same codes to states that hold the same tree (43 R222). -/
theorem exists_gencodes_eq {s u : State} {t : HuffTree} (valid : s.treeValid = true) (tree : s.HoldsTree t)
    (valid' : u.treeValid = true) (tree' : u.HoldsTree t) (distinct : t.leaves.Nodup) :
    ∃ c c' : State, exec .gencodes s = .next c ∧ exec .gencodes u = .next c'
      ∧ c.codesValid = true ∧ c'.codesValid = true ∧ c.codeLen = c'.codeLen ∧ c.codeVal = c'.codeVal := by
  obtain ⟨c, -, codes, done⟩ := exec_gencodes_of_nodup valid tree distinct
  obtain ⟨c', -, codes', done'⟩ := exec_gencodes_of_nodup valid' tree' distinct
  exact ⟨_, _, done, done', rfl, rfl, codes.unique codes'⟩

/-- Settles O42: HDR_READ rebuilds the tree from the header HDR_WRITE appends, and the codes depend on the tree only. -/
theorem headerRoundTripKeepsTheTree : Obligations.HeaderRoundTripKeepsTheTree := by
  intro s t valid tree
  have fits : t.size ≤ 513 := by
    have size := t.size_add_one
    have leaves := tree.leaves_le
    omega
  obtain ⟨written, -⟩ := hdrWriteAppendsTheHeader.1 s t valid tree
  refine ⟨_, written, fun u rest next => ?_⟩
  dsimp only at next
  rw [List.drop_left] at next
  obtain ⟨node, weight, done, represents, zero, -⟩ := hdrReadRebuildsTheTree u t rest next fits
  exact ⟨_, done, rfl, rfl, holdsTree_of_block represents rfl fits rfl, represents, zero,
    exists_gencodes_eq valid tree rfl (holdsTree_of_block represents rfl fits rfl)⟩

end Sys2Proof.Machine
end

section
/-! PROOFS. The Bitstream Encoder (spec/44 R240 to R245): the lookup of one code, the loop over the whole bytes that
stand next in the input, and the ends of ENCODE that follow from them. -/

namespace Sys2Proof.Machine

/-! One lookup and write. -/

theorem emitCode_of_code {v : Symbol} {s : State} (entry : s.codeLen[v.val] ≠ 0) :
    emitCode v s = .ok (s.append (s.codeBits v)) := if_neg entry

theorem emitCode_of_noCode {v : Symbol} {s : State} (noEntry : s.codeLen[v.val] = 0) :
    emitCode v s = .error .noCode (opcodeOf .encode) s := if_pos noEntry

/-! The loop over the bytes of the input. -/

theorem length_bytesToBits (bs : List Byte) : (bytesToBits bs).length = 8 * bs.length := by
  induction bs with
  | nil => rfl
  | cons b bs ih =>
    rw [bytesToBits_cons, List.length_append, length_bitsOf, ih, List.length_cons]
    omega

/-- The bits of a byte that stand next in the input are read as that byte (20 R96). -/
theorem readBits_byte {s : State} {b : Byte} {rest : Bits} (next : s.unread = bitsOf 8 b.toNat ++ rest) :
    readBits 8 s = some (b, s.advance 8) := by
  rw [readBits_of_unread next (length_bitsOf 8 b.toNat) (by decide),
    (ofNat_valOf_eq_iff (length_bitsOf 8 b.toNat)).mpr rfl]

/-- The bytes `bs` consumed and counted, and their codes written (44 R240). -/
def State.encoded (s : State) (bs : List Byte) : State :=
  { s with
    inPos := s.inPos + 8 * bs.length
    out := s.out ++ s.codesOf bs
    symCount := s.symCount + bs.length }

theorem State.encoded_nil (s : State) : s.encoded [] = s := by simp [State.encoded, State.codesOf]

/-- One round of the loop, then the bytes after it. -/
theorem State.encoded_cons (s : State) (b : Byte) (bs : List Byte) :
    ((s.advance 8).append (s.codeBits (byteSymbol b))).countSymbol.encoded bs = s.encoded (b :: bs) := by
  simp only [State.encoded, State.countSymbol, State.append, State.advance, State.codesOf, State.codeBits,
    List.map_cons, List.flatten_cons, List.append_assoc, List.length_cons, State.mk.injEq, true_and, and_true]
  omega

theorem State.encoded_unread {s : State} {bs : List Byte} {rest : Bits} (next : s.unread = bytesToBits bs ++ rest) :
    (s.encoded bs).unread = rest := by
  have consumed : (s.encoded bs).unread = s.unread.drop (8 * bs.length) := s.advance_unread (8 * bs.length)
  rw [consumed, next, ← length_bytesToBits, List.drop_left]

theorem encodeLoop_of_byte {s : State} {b : Byte} {rest : Bits} (next : s.unread = bitsOf 8 b.toNat ++ rest) (k : Nat) :
    encodeLoop (k + 1) s
      = (emitCode (byteSymbol b) (s.advance 8)).andThen (fun t => encodeLoop k t.countSymbol) := by
  rw [encodeLoop, readBits_byte next]

theorem encodeLoop_of_short {s : State} (short : s.unread.length < 8) (k : Nat) : encodeLoop k s = .ok s := by
  cases k with
  | zero => rfl
  | succ k => rw [encodeLoop, readBits_of_short short]

/-- Bytes that all have a code take one round each. -/
theorem encodeLoop_of_bytes {s : State} {bs : List Byte} {rest : Bits} (next : s.unread = bytesToBits bs ++ rest)
    (codes : ∀ b ∈ bs, s.codeLen[(byteSymbol b).val] ≠ 0) (k : Nat) :
    encodeLoop (k + bs.length) s = encodeLoop k (s.encoded bs) := by
  induction bs generalizing s with
  | nil => rw [s.encoded_nil, List.length_nil, Nat.add_zero]
  | cons b bs ih =>
    obtain ⟨code, codes⟩ := List.forall_mem_cons.mp codes
    rw [bytesToBits_cons, List.append_assoc] at next
    have next' : ((s.advance 8).append (s.codeBits (byteSymbol b))).countSymbol.unread = bytesToBits bs ++ rest := by
      change (s.advance 8).unread = _
      rw [s.advance_unread, next, List.drop_left' (length_bitsOf 8 b.toNat)]
    calc encodeLoop (k + bs.length + 1) s
      _ = (emitCode (byteSymbol b) (s.advance 8)).andThen (fun t => encodeLoop (k + bs.length) t.countSymbol) :=
          encodeLoop_of_byte next _
      _ = encodeLoop (k + bs.length) ((s.advance 8).append (s.codeBits (byteSymbol b))).countSymbol := by
          rw [emitCode_of_code (by exact code)]
          rfl
      _ = encodeLoop k (s.encoded (b :: bs)) := by rw [ih next' codes, s.encoded_cons]

/-! ENCODE on bytes that all have a code. -/

section
variable {s : State} {bs : List Byte} (valid : s.codesValid = true)
  (codes : ∀ b ∈ bs, s.codeLen[(byteSymbol b).val] ≠ 0)
include valid codes

/-- The bytes are encoded, and as many rounds are left as the loop may need for the bits after them. -/
theorem runEncode_of_bytes {rest : Bits} (next : s.unread = bytesToBits bs ++ rest) :
    runEncode s = (encodeLoop (7 * bs.length + rest.length) (s.resetSymCount.encoded bs)).andThen
      (emitCode Config.EOS) := by
  have rounds : s.unread.length = 7 * bs.length + rest.length + bs.length := by
    rw [next, List.length_append, length_bytesToBits]
    omega
  rw [runEncode, if_pos valid, rounds, encodeLoop_of_bytes (s := s.resetSymCount) next codes]

/-- After the whole bytes only the end marker is left to write (44 R242). -/
theorem runEncode_of_tail {tail : Bits} (next : s.unread = bytesToBits bs ++ tail) (short : tail.length < 8) :
    runEncode s = emitCode Config.EOS (s.resetSymCount.encoded bs) := by
  have left : (s.resetSymCount.encoded bs).unread = tail := State.encoded_unread (s := s.resetSymCount) next
  rw [runEncode_of_bytes valid codes next, encodeLoop_of_short (by rwa [left]), Ran.andThen_ok]

/-- A byte without a code is consumed, and ENCODE ends there (44 R241). -/
theorem runEncode_of_byte_noCode {b : Byte} {rest : Bits} (next : s.unread = bytesToBits (bs ++ [b]) ++ rest)
    (noCode : s.codeLen[(byteSymbol b).val] = 0) :
    runEncode s = .error .noCode (opcodeOf .encode) ((s.resetSymCount.encoded bs).advance 8) := by
  have next' : s.unread = bytesToBits bs ++ (bitsOf 8 b.toNat ++ rest) := by
    rw [next, bytesToBits_append, bytesToBits_cons, bytesToBits_nil, List.append_nil, List.append_assoc]
  have left : (s.resetSymCount.encoded bs).unread = bitsOf 8 b.toNat ++ rest :=
    State.encoded_unread (s := s.resetSymCount) next'
  have rounds : 7 * bs.length + (bitsOf 8 b.toNat ++ rest).length = 7 * bs.length + (7 + rest.length) + 1 := by
    rw [List.length_append, length_bitsOf]
    omega
  rw [runEncode_of_bytes valid codes next', rounds, encodeLoop_of_byte left, emitCode_of_noCode (by exact noCode),
    Ran.andThen_error, Ran.andThen_error]

end

/-- The count of ENCODE starts at 0 (44 R240). -/
theorem resetSymCount_encoded (s : State) (bs : List Byte) :
    s.resetSymCount.encoded bs
      = { s with inPos := s.inPos + 8 * bs.length, out := s.out ++ s.codesOf bs, symCount := bs.length } := by
  simp [State.encoded, State.resetSymCount, State.codesOf, State.codeBits]

/-- Settles O43: the loop encodes the whole bytes, and the end marker's code follows. -/
theorem encodeWritesThePayload : Obligations.EncodeWritesThePayload := by
  intro s bs tail valid next short codes eos
  have body : runEncode s = .ok ((s.resetSymCount.encoded bs).append (s.codeBits Config.EOS)) := by
    rw [runEncode_of_tail valid codes next short, emitCode_of_code (by exact eos)]
    rfl
  rw [resetSymCount_encoded] at body
  exact exec_of_ok (i := .encode) body

/-- Settles O44: the lookup that finds no code is the loop's, with its byte consumed, or the end marker's. -/
theorem encodeReportsASymbolWithoutACode : Obligations.EncodeReportsASymbolWithoutACode := by
  refine ⟨fun s bs b tail valid next codes noCode => ?_, fun s bs tail valid next short codes noEos => ?_⟩
  · have body := runEncode_of_byte_noCode valid codes next noCode
    rw [resetSymCount_encoded] at body
    exact exec_of_error (i := .encode) body
  · have body : runEncode s = .error .noCode (opcodeOf .encode) (s.resetSymCount.encoded bs) :=
      (runEncode_of_tail valid codes next short).trans (emitCode_of_noCode (by exact noEos))
    rw [resetSymCount_encoded] at body
    exact exec_of_error (i := .encode) body

end Sys2Proof.Machine
end

section
/-! PROOFS. The Bitstream Decoder (spec/45 R260 to R264): the way of the bits of a code down the arena to its leaf, the
loop over the codes that stand next in the input, and the ends of DECODE that follow from them. -/

namespace Sys2Proof.Machine

/-! The way of bits down the arena. -/

/-- From entry `i` the bits `q`, left for 0 and right for 1, lead to a leaf of symbol `v`. -/
inductive LeadsTo (node : Vector Node 513) : NodeIdx → Bits → Symbol → Prop where
  | leaf {i : NodeIdx} {v : Symbol} (entry : node[i.val] = .leaf v) : LeadsTo node i [] v
  | step {i l r : NodeIdx} {q : Bits} {v : Symbol} (b : Bool) (entry : node[i.val] = .internal l r)
      (rest : LeadsTo node (if b then r else l) q v) : LeadsTo node i (b :: q) v

/-- The path of a leaf leads to it (42 R190). -/
theorem Represents.leadsTo {node : Vector Node 513} {i : NodeIdx} {t : HuffTree} {ixs : List NodeIdx} {p q : Bits}
    {v : Symbol} (h : Represents node i t ixs) (path : (v, p ++ q) ∈ t.paths p) : LeadsTo node i q v := by
  induction h generalizing p q with
  | leaf i w entry =>
    obtain ⟨rfl, rfl⟩ : v = w ∧ q = [] := by simpa [HuffTree.paths] using path
    exact .leaf entry
  | node i l r tl tr il ir entry _ _ ihl ihr =>
    obtain side | side : _ ∨ _ := by simpa only [HuffTree.paths, List.mem_append] using path
    all_goals
      obtain ⟨below, whole⟩ := HuffTree.prefix_of_mem_paths side
      rw [← whole] at side
      obtain rfl := List.append_cancel_left ((List.append_assoc ..).symm.trans whole)
    · exact .step false entry (ihl side)
    · exact .step true entry (ihr side)

theorem LeadsTo.of_cons {node : Vector Node 513} {i : NodeIdx} {b : Bool} {q : Bits} {v : Symbol}
    (h : LeadsTo node i (b :: q) v) :
    ∃ l r, node[i.val] = .internal l r ∧ LeadsTo node (if b then r else l) q v := by
  cases h with
  | step _ entry rest => exact ⟨_, _, entry, rest⟩

/-- Where a way goes on there is no leaf. -/
theorem LeadsTo.internal {node : Vector Node 513} {i : NodeIdx} {q : Bits} {v : Symbol} (h : LeadsTo node i q v)
    (nonempty : q ≠ []) : ∃ l r, node[i.val] = .internal l r := by
  cases h with
  | leaf _ => exact absurd rfl nonempty
  | step _ entry _ => exact ⟨_, _, entry⟩

/-! One round of the loop. -/

/-- What follows a round that ends at a leaf: the end at 256, else the byte written and counted and the next round
from the root (45 R260). -/
def atLeaf (k : Nat) (v : Symbol) (s : State) : Ran :=
  if v = Config.EOS then .ok s else decodeLoop k s.root (s.append (bitsOf 8 v.val)).countSymbol

theorem atLeaf_eos (k : Nat) (s : State) : atLeaf k 256 s = .ok s := if_pos rfl

theorem byteSymbol_ne_eos (b : Byte) : byteSymbol b ≠ 256 := by
  intro same
  have value : b.toNat = 256 := congrArg Fin.val same
  omega

theorem atLeaf_byte (k : Nat) (b : Byte) (s : State) :
    atLeaf k (byteSymbol b) s = decodeLoop k s.root (s.append (bitsOf 8 b.toNat)).countSymbol :=
  if_neg (byteSymbol_ne_eos b)

section
variable {s : State} {pos : NodeIdx} {b : Bool} {rest : Bits}

/-- With no bit left the loop ends, whatever rounds are left (45 R262, R263). -/
theorem decodeLoop_of_nil (empty : s.unread = []) (k : Nat) :
    decodeLoop k pos s = .error .truncatedPayload (opcodeOf .decode) s := by
  cases k with
  | zero => rfl
  | succ k => rw [decodeLoop, readBits_of_short (by simp [empty])]

/-- A bit moves left or right below a root that is no leaf (45 R260). -/
theorem descend_of_internal {x y l r : NodeIdx} (root : s.node[s.root.val] = .internal x y)
    (entry : s.node[pos.val] = .internal l r) (b : Bool) :
    descend s pos (BitVec.ofBool b) = some (if b then r else l) := by
  simp only [descend, root, entry]
  cases b <;> rfl

/-- A round that moves to an internal node goes on from there. -/
theorem decodeLoop_of_internal {j l r : NodeIdx} (next : s.unread = b :: rest)
    (move : descend s pos (BitVec.ofBool b) = some j) (entry : s.node[j.val] = .internal l r) (k : Nat) :
    decodeLoop (k + 1) pos s = decodeLoop k j (s.advance 1) := by
  have move' : descend (s.advance 1) pos (BitVec.ofBool b) = some j := move
  simp only [decodeLoop, readBits_one next, move', State.advance_node, entry]

/-- A round that moves to a leaf ends there. -/
theorem decodeLoop_of_leaf {j : NodeIdx} {v : Symbol} (next : s.unread = b :: rest)
    (move : descend s pos (BitVec.ofBool b) = some j) (entry : s.node[j.val] = .leaf v) (k : Nat) :
    decodeLoop (k + 1) pos s = atLeaf k v (s.advance 1) := by
  have move' : descend (s.advance 1) pos (BitVec.ofBool b) = some j := move
  simp only [decodeLoop, readBits_one next, move', State.advance_node, entry]
  rfl

/-- Every bit moves to a root that is a leaf (45 R261). -/
theorem decodeLoop_of_rootLeaf {v : Symbol} (root : s.node[s.root.val] = .leaf v) (next : s.unread = b :: rest)
    (k : Nat) : decodeLoop (k + 1) pos s = atLeaf k v (s.advance 1) := by
  have move : descend s pos (BitVec.ofBool b) = some s.root := by simp only [descend, root]
  exact decodeLoop_of_leaf next move root k

end

/-! The rounds of one code. -/

theorem State.advance_advance (s : State) (m n : Nat) : (s.advance m).advance n = s.advance (m + n) := by
  simp [State.advance, Nat.add_assoc]

theorem State.advance_unread_cons {s : State} {b : Bool} {rest : Bits} (next : s.unread = b :: rest) :
    (s.advance 1).unread = rest := by
  rw [s.advance_unread, next, List.drop_one, List.tail_cons]

/-- Below a root that is no leaf, bits that lead to a leaf take one round each and end there. -/
theorem decodeLoop_of_leadsTo {s : State} {pos x y : NodeIdx} {q rest : Bits} {v : Symbol}
    (root : s.node[s.root.val] = .internal x y) (path : LeadsTo s.node pos q v) (nonempty : q ≠ [])
    (next : s.unread = q ++ rest) (k : Nat) : decodeLoop (k + q.length) pos s = atLeaf k v (s.advance q.length) := by
  induction q generalizing s pos with
  | nil => exact absurd rfl nonempty
  | cons b q ih =>
    obtain ⟨l, r, entry, path⟩ := path.of_cons
    have move := descend_of_internal root entry b
    by_cases last : q = []
    · subst last
      cases path with
      | leaf entry => exact decodeLoop_of_leaf next move entry k
    · obtain ⟨_, _, inner⟩ := path.internal last
      rw [List.length_cons, ← Nat.add_assoc, decodeLoop_of_internal next move inner,
        ih (s := s.advance 1) root path last (State.advance_unread_cons next), s.advance_advance, Nat.add_comm 1]

/-- Bits that stop short of the leaf they would lead to end the loop where the input ends. -/
theorem decodeLoop_of_cut {s : State} {pos x y : NodeIdx} {part more : Bits} {v : Symbol}
    (root : s.node[s.root.val] = .internal x y) (path : LeadsTo s.node pos (part ++ more) v) (cut : more ≠ [])
    (next : s.unread = part) :
    decodeLoop part.length pos s = .error .truncatedPayload (opcodeOf .decode) (s.advance part.length) := by
  induction part generalizing s pos with
  | nil => rw [decodeLoop_of_nil next]; rfl
  | cons b part ih =>
    obtain ⟨l, r, entry, path⟩ := path.of_cons
    have move := descend_of_internal root entry b
    obtain ⟨_, _, inner⟩ := path.internal (List.append_ne_nil_of_right_ne_nil part cut)
    rw [List.length_cons, decodeLoop_of_internal next move inner,
      ih (s := s.advance 1) root path (State.advance_unread_cons next), s.advance_advance, Nat.add_comm 1]

section
variable {s : State} {t : HuffTree} (tree : s.HoldsTree t)
include tree

/-- From the root a code takes one round for each bit and ends at its leaf. -/
theorem decodeLoop_of_code {v : Symbol} {p rest : Bits} (code : (v, p) ∈ t.codes) (next : s.unread = p ++ rest)
    (k : Nat) : decodeLoop (k + p.length) s.root s = atLeaf k v (s.advance p.length) := by
  have nonempty := HuffTree.ne_nil_of_mem_codes tree.leaves_le code
  obtain ⟨ixs, represents, -⟩ := tree
  cases t with
  | leaf w =>
    obtain ⟨rfl, rfl⟩ : v = w ∧ p = [false] := by simpa [HuffTree.codes] using code
    obtain ⟨_, _, root⟩ := represents
    exact decodeLoop_of_rootLeaf root next k
  | node l r =>
    have path := represents.leadsTo (p := []) code
    obtain _ | ⟨_, _, _, _, _, _, _, root⟩ := represents
    exact decodeLoop_of_leadsTo root path nonempty next k

/-- A code cut short by the end of the input ends the loop (45 R263). -/
theorem decodeLoop_of_partial_code {v : Symbol} {part more : Bits} (code : (v, part ++ more) ∈ t.codes)
    (cut : more ≠ []) (next : s.unread = part) :
    decodeLoop part.length s.root s = .error .truncatedPayload (opcodeOf .decode) (s.advance part.length) := by
  obtain ⟨ixs, represents, -⟩ := tree
  cases t with
  | leaf w =>
    obtain ⟨-, whole⟩ : v = w ∧ part ++ more = [false] := by simpa [HuffTree.codes] using code
    obtain rfl : part = [] := by
      obtain ⟨rfl, -⟩ | ⟨-, rfl⟩ := List.append_eq_singleton_iff.mp whole
      · rfl
      · exact absurd rfl cut
    rw [decodeLoop_of_nil next]
    rfl
  | node l r =>
    have path := represents.leadsTo (p := []) code
    obtain _ | ⟨_, _, _, _, _, _, _, root⟩ := represents
    exact decodeLoop_of_cut root path cut next

end

/-! The loop over codes of bytes. -/

/-- `n` bits consumed, and the bytes `bs` written and counted (45 R260). -/
def State.decoded (s : State) (n : Nat) (bs : List Byte) : State :=
  { s with inPos := s.inPos + n, out := s.out ++ bytesToBits bs, symCount := s.symCount + bs.length }

theorem State.decoded_nil (s : State) : s.decoded 0 [] = s := by simp [State.decoded]

/-- One code decoded, then the bits after it. -/
theorem State.decoded_cons (s : State) (m n : Nat) (b : Byte) (bs : List Byte) :
    ((s.advance m).append (bitsOf 8 b.toNat)).countSymbol.decoded n bs = s.decoded (m + n) (b :: bs) := by
  simp only [State.decoded, State.countSymbol, State.append, State.advance, bytesToBits_cons, List.append_assoc,
    List.length_cons, Nat.add_assoc, Nat.add_comm 1]

theorem State.decoded_advance (s : State) (m n : Nat) (bs : List Byte) :
    (s.decoded m bs).advance n = s.decoded (m + n) bs := by
  simp [State.decoded, State.advance, Nat.add_assoc]

theorem State.decoded_unread {s : State} {bits rest : Bits} (next : s.unread = bits ++ rest) (bs : List Byte) :
    (s.decoded bits.length bs).unread = rest := by
  have consumed : (s.decoded bits.length bs).unread = s.unread.drop bits.length := s.advance_unread bits.length
  rw [consumed, next, List.drop_left]

/-- Codes of bytes take one round for each bit, and write their bytes. -/
theorem decodeLoop_of_codes {s : State} {t : HuffTree} {cs : List (Byte × Bits)} {rest : Bits} (tree : s.HoldsTree t)
    (codes : ∀ c ∈ cs, (byteSymbol c.1, c.2) ∈ t.codes) (next : s.unread = (cs.map Prod.snd).flatten ++ rest)
    (k : Nat) :
    decodeLoop (k + (cs.map Prod.snd).flatten.length) s.root s
      = decodeLoop k s.root (s.decoded (cs.map Prod.snd).flatten.length (cs.map Prod.fst)) := by
  induction cs generalizing s with
  | nil => rw [List.map_nil, List.map_nil, List.flatten_nil, List.length_nil, s.decoded_nil, Nat.add_zero]
  | cons c cs ih =>
    obtain ⟨code, codes⟩ := List.forall_mem_cons.mp codes
    rw [List.map_cons, List.flatten_cons, List.append_assoc] at next
    have next' : ((s.advance c.2.length).append (bitsOf 8 c.1.toNat)).countSymbol.unread
        = (cs.map Prod.snd).flatten ++ rest := by
      change (s.advance c.2.length).unread = _
      rw [s.advance_unread, next, List.drop_left]
    simp only [List.map_cons, List.flatten_cons, List.length_append]
    calc decodeLoop (k + (c.2.length + (cs.map Prod.snd).flatten.length)) s.root s
      _ = atLeaf (k + (cs.map Prod.snd).flatten.length) (byteSymbol c.1) (s.advance c.2.length) := by
          rw [Nat.add_comm c.2.length, ← Nat.add_assoc, decodeLoop_of_code tree code next]
      _ = decodeLoop (k + (cs.map Prod.snd).flatten.length) s.root
            ((s.advance c.2.length).append (bitsOf 8 c.1.toNat)).countSymbol := atLeaf_byte ..
      _ = decodeLoop k s.root (((s.advance c.2.length).append (bitsOf 8 c.1.toNat)).countSymbol.decoded
            (cs.map Prod.snd).flatten.length (cs.map Prod.fst)) :=
          ih (s := State.countSymbol _) (by exact tree) codes next'
      _ = _ := by rw [s.decoded_cons]

/-! DECODE. -/

theorem runDecode_of_tree {s : State} (valid : s.treeValid = true) :
    runDecode s = decodeLoop s.unread.length s.root s.resetSymCount := if_pos valid

/-- The count of DECODE starts at 0 (45 R260). -/
theorem resetSymCount_decoded (s : State) (n : Nat) (bs : List Byte) :
    s.resetSymCount.decoded n bs
      = { s with inPos := s.inPos + n, out := s.out ++ bytesToBits bs, symCount := bs.length } := by
  simp [State.decoded, State.resetSymCount]

section
variable {s : State} {t : HuffTree} {cs : List (Byte × Bits)} (tree : s.HoldsTree t)
  (codes : ∀ c ∈ cs, (byteSymbol c.1, c.2) ∈ t.codes)
include tree codes

/-- The code of 256 ends the loop, and the bits after it stay unread (45 R264). -/
theorem decodeLoop_of_payload {e rest : Bits} (eos : (256, e) ∈ t.codes)
    (next : s.unread = (cs.map Prod.snd).flatten ++ e ++ rest) :
    decodeLoop s.unread.length s.root s = .ok
      (s.decoded ((cs.map Prod.snd).flatten.length + e.length) (cs.map Prod.fst)) := by
  rw [List.append_assoc] at next
  have left := State.decoded_unread next (cs.map Prod.fst)
  rw [next, List.length_append, Nat.add_comm, decodeLoop_of_codes tree codes next, List.length_append, Nat.add_comm]
  have last := decodeLoop_of_code (s := s.decoded _ _) tree eos left rest.length
  rwa [State.decoded_advance, atLeaf_eos] at last

/-- A code cut short by the end of the input is dropped (45 R263). -/
theorem decodeLoop_of_truncated {v : Symbol} {part more : Bits} (code : (v, part ++ more) ∈ t.codes)
    (cut : more ≠ []) (next : s.unread = (cs.map Prod.snd).flatten ++ part) :
    decodeLoop s.unread.length s.root s = .error .truncatedPayload (opcodeOf .decode)
      (s.decoded s.unread.length (cs.map Prod.fst)) := by
  have left := State.decoded_unread next (cs.map Prod.fst)
  rw [next, List.length_append, Nat.add_comm, decodeLoop_of_codes tree codes next, Nat.add_comm,
    ← State.decoded_advance]
  exact decodeLoop_of_partial_code (s := s.decoded _ _) tree code cut left

end

/-- Settles O45: the loop decodes the codes of the bytes and ends at the leaf of 256. -/
theorem decodeEmitsTheBytes : Obligations.DecodeEmitsTheBytes := by
  intro s t cs e rest valid tree codes eos next
  have body := decodeLoop_of_payload (s := s.resetSymCount) tree codes eos next
  rw [resetSymCount_decoded, List.length_map] at body
  exact exec_of_ok (i := .decode) ((runDecode_of_tree valid).trans body)

/-- Settles O47: the codes of the bytes are decoded, and the partial code only consumed. -/
theorem decodeReportsATruncatedPayload : Obligations.DecodeReportsATruncatedPayload := by
  intro s t cs v part more valid tree codes code cut next
  have body := decodeLoop_of_truncated (s := s.resetSymCount) tree codes code cut next
  rw [resetSymCount_decoded, List.length_map] at body
  exact exec_of_error (i := .decode) ((runDecode_of_tree valid).trans body)

/-- With a byte's leaf as root every bit writes the byte, until no bit is left (45 R261). -/
theorem decodeLoop_of_byteRoot {s : State} {b : Byte} {bits : Bits}
    (root : s.node[s.root.val] = .leaf (byteSymbol b)) (next : s.unread = bits) :
    decodeLoop bits.length s.root s = .error .truncatedPayload (opcodeOf .decode)
      (s.decoded bits.length (List.replicate bits.length b)) := by
  induction bits generalizing s with
  | nil => rw [decodeLoop_of_nil next, List.length_nil, List.replicate_zero, s.decoded_nil]
  | cons x bits ih =>
    have round := ih (s := ((s.advance 1).append (bitsOf 8 b.toNat)).countSymbol) root
      (State.advance_unread_cons next)
    rw [State.decoded_cons, ← List.replicate_succ, Nat.add_comm 1] at round
    rw [List.length_cons, decodeLoop_of_rootLeaf root next, atLeaf_byte]
    exact round

/-- Settles O46: with a leaf as root each round ends at it, whatever its bit. -/
theorem decodeOfAOneLeafTree : Obligations.DecodeOfAOneLeafTree := by
  refine ⟨fun s b rest valid root next => exec_of_ok (i := .decode) (t := s.resetSymCount.advance 1) ?_,
    fun s b valid root => ?_⟩
  · rw [bodyOf, runDecode_of_tree valid, next, List.length_cons,
      decodeLoop_of_rootLeaf (s := s.resetSymCount) root next, atLeaf_eos]
  · have body := decodeLoop_of_byteRoot (s := s.resetSymCount) root rfl
    rw [resetSymCount_decoded, List.length_replicate] at body
    exact exec_of_error (i := .decode) ((runDecode_of_tree valid).trans body)

end Sys2Proof.Machine
end

section
/-! PROOFS. The round trip (spec/45 R265): the counts of a byte sequence, what COMPRESS writes for it (spec/46 R280),
and what DECOMPRESS makes of such a stream (spec/46 R282). -/

namespace Sys2Proof.Machine

/-! The counts of a byte sequence. -/

theorem allSymbols_eq_finRange : allSymbols = List.finRange 257 := by
  refine List.ext_getElem (by simp [allSymbols_length]) fun i hi _ => Fin.ext ?_
  rw [allSymbols_getElem, List.getElem_finRange]
  rfl

/-- The symbols of a list are counted by all symbols together. -/
theorem sum_count_allSymbols (l : List Symbol) : (allSymbols.map fun v => l.count v).sum = l.length := by
  have counted := Multiset.sum_count_eq_card (s := Finset.univ) (m := (l : Multiset Symbol)) (by simp)
  simpa [allSymbols_eq_finRange, Fin.sum_univ_def] using counted

section
variable {s : State} {S : List Byte} (counts : s.CountsOf S)
include counts

/-- With the counts of a sequence loaded, a symbol counts as often as it stands in the sequence's symbols and the end
marker (60 R330, 10 R45). -/
theorem State.CountsOf.count_eq (v : Symbol) : s.count v = (S.map byteSymbol ++ [256]).count v := by
  rw [List.count_append]
  by_cases eos : v = 256
  · subst eos
    have marker : s.count 256 = 1 := dif_neg (by decide)
    have noByte : (256 : Symbol) ∉ S.map byteSymbol := by simpa using fun b _ => byteSymbol_ne_eos b
    rw [marker, List.count_eq_zero.mpr noByte, List.count_singleton_self]
  · have byte := val_lt_of_ne_eos eos
    have noMarker : [(256 : Symbol)].count v = 0 := List.count_eq_zero.mpr (by simpa using eos)
    rw [counts v byte, noMarker, Nat.add_zero, List.count_eq_countP, List.countP_map]
    exact List.countP_congr fun b _ => by simp [Fin.ext_iff, byteSymbol]

theorem State.CountsOf.sum_counts : (allSymbols.map s.count).sum = S.length + 1 := by
  have total := sum_count_allSymbols (S.map byteSymbol ++ [256])
  rw [← List.map_congr_left fun v _ => counts.count_eq v] at total
  simpa using total

theorem State.CountsOf.count_ne_zero {b : Byte} (hb : b ∈ S) : s.count (byteSymbol b) ≠ 0 := by
  rw [counts.count_eq]
  have listed : byteSymbol b ∈ S.map byteSymbol ++ [256] := List.mem_append_left _ (List.mem_map_of_mem hb)
  exact (List.count_pos_iff.mpr listed).ne'

end

/-! COMPRESS. -/

theorem nodup_live (s : State) : s.live.Nodup := by
  rw [State.live, allSymbols_eq_finRange]
  exact (List.nodup_finRange 257).filter _

theorem mem_live_iff {s : State} {v : Symbol} : v ∈ s.live ↔ s.count v ≠ 0 := by
  simp [State.live, allSymbols_eq_finRange]

/-- BUILD's body leaves a tree of the live symbols (41 R170). -/
theorem exists_runBuild {s : State} (fits : (allSymbols.map s.count).sum ≤ 2 ^ 32 - 1) :
    ∃ node weight root n l t,
      let b : State :=
        { s with
          node := node, weight := weight, root := root, nodeCount := n, leafCount := l
          treeValid := true, codesValid := false }
      runBuild s = .ok b ∧ b.HoldsTree t ∧ t.leaves.Perm s.live := by
  obtain ⟨-, -, t, tree, live⟩ := holdsTree_of_build s
  exact ⟨_, _, _, _, _, t, runBuild_of_fits (by rw [totalWeight_eq]; omega), tree, live⟩

/-- On a tree of distinct leaves GENCODES's body leaves the tree's codes (42 R190). -/
theorem exists_runGencodes {s : State} {t : HuffTree} (valid : s.treeValid = true) (tree : s.HoldsTree t)
    (distinct : t.leaves.Nodup) :
    ∃ codeLen codeVal,
      let c : State := { s with codeLen := codeLen, codeVal := codeVal, codesValid := true }
      runGencodes s = .ok c ∧ c.HoldsCodes t := by
  obtain ⟨u, assigned⟩ := assignAll_of_nodup (ps := t.codes) (s := s.invalidateCodes.clearCodes)
    (by rwa [t.codes_fst]) (by simp)
  have codes : u.HoldsCodes t := holdsCodes_of_assignAll tree.leaves_le (by simp) (by simp) assigned
  have written := assignAll_all t.codes s.invalidateCodes.clearCodes
  rw [assigned] at written
  obtain ⟨codeLen, codeVal, rfl⟩ := written
  refine ⟨codeLen, codeVal, ?_, codes⟩
  rw [runGencodes_of_tree valid tree, assigned]
  rfl

/-- A new tree and its code table, both valid; everything else as it was. -/
def Tabulates (s c : State) : Prop := ∃ node weight root n l codeLen codeVal, c =
  { s with
    node := node, weight := weight, root := root, nodeCount := n, leafCount := l, treeValid := true
    codeLen := codeLen, codeVal := codeVal, codesValid := true }

theorem Tabulates.valid {s c : State} : Tabulates s c → c.treeValid = true ∧ c.codesValid = true := by
  rintro ⟨_, _, _, _, _, _, _, rfl⟩
  exact ⟨rfl, rfl⟩

theorem Tabulates.streams {s c : State} : Tabulates s c → c.unread = s.unread ∧ c.out = s.out := by
  rintro ⟨_, _, _, _, _, _, _, rfl⟩
  exact ⟨rfl, rfl⟩

/-- BUILD and GENCODES leave a tree of the live symbols and its codes. -/
theorem exists_tables {s : State} (fits : (allSymbols.map s.count).sum ≤ 2 ^ 32 - 1) :
    ∃ (c : State) (t : HuffTree), (runBuild s).andThen runGencodes = .ok c ∧ Tabulates s c
      ∧ c.HoldsTree t ∧ c.HoldsCodes t ∧ t.leaves.Perm s.live := by
  obtain ⟨node, weight, root, n, l, t, built, tree, live⟩ := exists_runBuild fits
  obtain ⟨codeLen, codeVal, coded, codes⟩ := exists_runGencodes rfl tree (live.nodup_iff.mpr (nodup_live s))
  refine ⟨_, t, ?_, ⟨node, weight, root, n, l, codeLen, codeVal, rfl⟩, tree, codes, live⟩
  rw [built, Ran.andThen_ok, coded]

/-- The bits of a compressed stream before its padding: marker, header and payload (30 R120). -/
def State.stream (c : State) (m : Word) (t : HuffTree) (bs : List Byte) : Bits :=
  bitsOf 32 m.toNat ++ t.header ++ c.payload bs

/-- The bytes `bs` consumed and counted, and their whole compressed stream written (46 R280). -/
def State.compressed (c : State) (m : Word) (t : HuffTree) (bs : List Byte) : State :=
  State.finalize
    { c with
      inPos := c.inPos + 8 * bs.length
      out := c.out ++ c.stream m t bs
      symCount := bs.length }

/-- With the codes of the arena's tree, the end marker among its leaves, COMPRESS's later steps write the stream. -/
theorem runCompress_of_tables {s c : State} {t : HuffTree} {bs : List Byte} {tail : Bits} (m : Word)
    (tables : (runBuild s).andThen runGencodes = .ok c) (valid : c.treeValid = true) (validCodes : c.codesValid = true)
    (tree : c.HoldsTree t) (entries : ∀ b ∈ bs, c.codeLen[(byteSymbol b).val] ≠ 0) (eos : c.codeLen[256] ≠ 0)
    (next : c.unread = bytesToBits bs ++ tail) (short : tail.length < 8) :
    runCompress m s = .ok (c.compressed m t bs) := by
  have marker : runMagicWrite m c = .ok (c.append (bitsOf 32 m.toNat)) := rfl
  have header := runHdrWrite_of_tree (s := c.append (bitsOf 32 m.toNat)) valid tree
  have payload (b : Bits) : runEncode (c.append b)
      = .ok (((c.append b).resetSymCount.encoded bs).append (c.codeBits Config.EOS)) := by
    rw [runEncode_of_tail (s := c.append b) validCodes entries next short]
    exact emitCode_of_code eos
  rw [State.append_append] at header
  rw [runCompress, tables, Ran.andThen_ok, marker, Ran.andThen_ok, header, Ran.andThen_ok, payload, Ran.andThen_ok,
    runFlush, resetSymCount_encoded]
  simp [State.compressed, State.stream, State.payload, State.append, State.codesOf, State.codeBits]

/-- A leaf of the tree has a code in a table that holds the tree's codes. -/
theorem State.HoldsCodes.codeLen_ne_zero {c : State} {t : HuffTree} (codes : c.HoldsCodes t)
    (fits : t.leaves.length ≤ 257) {v : Symbol} (leaf : v ∈ t.leaves) : c.codeLen[v.val] ≠ 0 := by
  obtain ⟨-, stored, -⟩ := codes
  rw [← t.codes_fst] at leaf
  obtain ⟨⟨_, p⟩, hp, rfl⟩ := List.mem_map.mp leaf
  have lower := (HuffTree.length_of_mem_codes fits hp).1
  rw [(stored _ p hp).1]
  omega

/-- COMPRESS of bytes that all have a count (46 R280). -/
theorem exists_runCompress {s : State} {bs : List Byte} {tail : Bits} (m : Word)
    (fits : (allSymbols.map s.count).sum ≤ 2 ^ 32 - 1) (next : s.unread = bytesToBits bs ++ tail)
    (short : tail.length < 8) (counted : ∀ b ∈ bs, s.count (byteSymbol b) ≠ 0) :
    ∃ (c : State) (t : HuffTree), runCompress m s = .ok (c.compressed m t bs) ∧ Tabulates s c
      ∧ c.HoldsTree t ∧ c.HoldsCodes t ∧ t.leaves.Perm s.live := by
  obtain ⟨c, t, tables, frame, tree, codes, live⟩ := exists_tables fits
  have entry {v : Symbol} (hv : v ∈ s.live) := codes.codeLen_ne_zero tree.leaves_le (live.mem_iff.mpr hv)
  obtain ⟨valid, validCodes⟩ := frame.valid
  refine ⟨c, t, ?_, frame, tree, codes, live⟩
  exact runCompress_of_tables m tables valid validCodes tree (fun b hb => entry (mem_live_iff.mpr (counted b hb)))
    (entry (eos_mem_live s)) (frame.streams.1.trans next) short

/-! DECOMPRESS. -/

/-- A header consumed, its tree in the arena and no code table valid; everything else as it was (43 R216). -/
def Rereads (t : HuffTree) (s u : State) : Prop := ∃ node weight, u =
  { s with
    inPos := s.inPos + t.header.length
    node := node, weight := weight, root := 0, nodeCount := t.size, leafCount := t.leaves.length
    treeValid := true, codesValid := false }

theorem Rereads.valid {t : HuffTree} {s u : State} : Rereads t s u → u.treeValid = true := by
  rintro ⟨_, _, rfl⟩
  rfl

theorem Rereads.unread {t : HuffTree} {s u : State} : Rereads t s u → u.unread = s.unread.drop t.header.length := by
  rintro ⟨_, _, rfl⟩
  exact s.advance_unread t.header.length

/-- On a header HDR_READ's body rebuilds the header's tree (43 R216). -/
theorem runHdrRead_of_header {s : State} {t : HuffTree} {rest : Bits} (next : s.unread = t.header ++ rest)
    (fits : t.size ≤ 513) : ∃ u, runHdrRead s = .ok u ∧ Rereads t s u ∧ u.HoldsTree t := by
  obtain ⟨_, read, ⟨node, weight, rfl⟩, represents, -⟩ := readNode_of_header (t := t) (k := 514) (i := 0)
    (s := s.invalidate) next (by simpa using fits) le_rfl
  simp only [Fin.val_zero, Nat.zero_add] at read represents
  have body := runHdrRead_of_got read
  rw [leavesBelow_eq_countP _ fits, represents.countP_isLeaf] at body
  refine ⟨_, body, ⟨node, weight, rfl⟩, holdsTree_of_block ?_ rfl fits rfl⟩
  rwa [range_map_eq_block]

/-- DECOMPRESS of marker, header, codes of bytes and the code of 256 (46 R282). -/
theorem exists_runDecompress {s : State} {t : HuffTree} {cs : List (Byte × Bits)} {e rest : Bits} (m : Word)
    (fits : t.size ≤ 513) (codes : ∀ c ∈ cs, (byteSymbol c.1, c.2) ∈ t.codes) (eos : (256, e) ∈ t.codes)
    (next : s.unread = bitsOf 32 m.toNat ++ t.header ++ (cs.map Prod.snd).flatten ++ e ++ rest) :
    ∃ u : State, Rereads t (s.advance 32) u ∧ u.HoldsTree t ∧ runDecompress m s = .ok
      (u.resetSymCount.decoded ((cs.map Prod.snd).flatten.length + e.length) (cs.map Prod.fst)).finalize := by
  have width := length_bitsOf 32 m.toNat
  simp only [List.append_assoc] at next
  have marker : runMagicRead m s = .ok (s.advance 32) := by
    rw [runMagicRead_of_long (by rw [next, List.length_append]; omega), if_pos (by rw [next, List.take_left' width])]
  have afterMarker : (s.advance 32).unread = t.header ++ ((cs.map Prod.snd).flatten ++ (e ++ rest)) := by
    rw [s.advance_unread, next, List.drop_left' width]
  obtain ⟨u, header, frame, tree⟩ := runHdrRead_of_header afterMarker fits
  refine ⟨u, frame, tree, ?_⟩
  have afterHeader : u.unread = (cs.map Prod.snd).flatten ++ e ++ rest := by
    rw [frame.unread, afterMarker, List.drop_left, List.append_assoc]
  have payload := (runDecode_of_tree frame.valid).trans
    (decodeLoop_of_payload (s := u.resetSymCount) tree codes eos afterHeader)
  rw [runDecompress, marker, Ran.andThen_ok, header, Ran.andThen_ok, payload, Ran.andThen_ok, runFlush]

/-! The round trip. -/

/-- The stream of bytes under the codes of a tree is decompressed to those bytes, whatever follows it (45 R265). -/
theorem runDecompress_of_stream {c u : State} {t : HuffTree} {bs : List Byte} {rest : Bits} (m : Word)
    (tree : c.HoldsTree t) (codes : c.HoldsCodes t) (leaves : ∀ b ∈ bs, byteSymbol b ∈ t.leaves)
    (eos : 256 ∈ t.leaves) (next : u.unread = c.stream m t bs ++ rest) (empty : u.out = []) :
    ∃ d : State, runDecompress m u = .ok d ∧ d.out = bytesToBits bs ∧ d.symCount = bs.length := by
  have fits := tree.leaves_le
  have code {v : Symbol} (hv : v ∈ t.leaves) : (v, c.codeBits v) ∈ t.codes :=
    codes.mem_codes fits (codes.codeLen_ne_zero fits hv)
  obtain ⟨x, ⟨_, _, rfl⟩, -, body⟩ := exists_runDecompress (s := u) (t := t)
    (cs := bs.map fun b => (b, c.codeBits (byteSymbol b))) (rest := rest) m
    (by have size := t.size_add_one; omega) (by simpa using fun b hb => code (leaves b hb)) (code eos)
    (by simpa [State.stream, State.payload, State.codesOf, Function.comp_def] using next)
  have bytes : (bs.map fun b => (b, c.codeBits (byteSymbol b))).map Prod.fst = bs := by simp [Function.comp_def]
  rw [bytes, resetSymCount_decoded] at body
  refine ⟨_, body, ?_, rfl⟩
  have whole : (bytesToBits bs).length % 8 = 0 := by rw [length_bytesToBits]; omega
  rw [finalize_of_aligned (by simpa [State.advance, empty] using whole)]
  simp [State.advance, empty]

/-- Settles O52: COMPRESS writes the stream of the tree and codes it leaves, and its padding stays unread. -/
theorem decompressInvertsCompress : Obligations.DecompressInvertsCompress := by
  intro S s small counts input start empty
  have next : s.unread = bytesToBits S ++ [] := by rw [State.unread, start, input, List.drop_zero, List.append_nil]
  obtain ⟨c, t, body, frame, tree, codes, live⟩ := exists_runCompress Config.MAGIC
    (by rw [counts.sum_counts]; omega) next (by simp) fun b hb => counts.count_ne_zero hb
  refine ⟨_, exec_of_ok (i := .compress) body, rfl, fun u input' start' empty' => ?_⟩
  have written : u.unread = c.stream Config.MAGIC t S
      ++ List.replicate (padding (c.stream Config.MAGIC t S).length) false := by
    rw [State.unread, start', input', List.drop_zero]
    simp [State.compressed, frame.streams.2, empty]
  obtain ⟨d, body', out, count⟩ := runDecompress_of_stream Config.MAGIC tree codes
    (fun b hb => live.mem_iff.mpr (mem_live_iff.mpr (counts.count_ne_zero hb))) (live.mem_iff.mpr (eos_mem_live s))
    written empty'
  exact ⟨_, exec_of_ok (i := .decompress) body', rfl, out, count⟩

end Sys2Proof.Machine
end

section
/-! PROOFS. The steps of a composite (spec/46 R284, R285): no body reads BUSY, DONE or the pending word, so the end of one
command is as good a start for the next as the state in which the composite's own body goes on. -/

namespace Sys2Proof.Machine

/-! What a body reads. -/

/-- BUSY, the pending word and DONE, set anew. -/
def State.withRun (s : State) (x : Bool × Option Word × Bool) : State :=
  { s with busy := x.1, pending := x.2.1, done := x.2.2 }

/-- The same end of a body, its state changed by `f`. -/
def Ran.map (f : State → State) : Ran → Ran
  | .ok s => .ok (f s)
  | .error c st s => .error c st (f s)
  | .stuck r => .stuck r

/-- The same result of a node read, its state changed by `f`. -/
def NodeRead.map (f : State → State) : NodeRead → NodeRead
  | .got i n s => .got i n (f s)
  | .failed c s => .failed c (f s)

/-- The body neither reads nor writes BUSY, the pending word and DONE. -/
def Blind (k : State → Ran) : Prop := ∀ s x, k (s.withRun x) = (k s).map (·.withRun x)

theorem Ran.map_andThen {r r' : Ran} {k : State → Ran} {x : Bool × Option Word × Bool}
    (first : r' = r.map (·.withRun x)) (next : Blind k) : r'.andThen k = (r.andThen k).map (·.withRun x) := by
  subst first
  cases r with
  | ok s => exact next s x
  | error c st s => rfl
  | stuck f => rfl

theorem Ran.map_ite {a b a' b' : Ran} {f : State → State} {p : Prop} [Decidable p] (yes : a' = a.map f)
    (no : b' = b.map f) : (if p then a' else b') = (if p then a else b).map f := by
  rw [yes, no, apply_ite (Ran.map f)]

theorem readBits_withRun (n : Nat) (s : State) (x : Bool × Option Word × Bool) :
    readBits n (s.withRun x) = (readBits n s).map fun r => (r.1, r.2.withRun x) := by
  rw [readBits, readBits, apply_ite (Option.map _)]
  rfl

theorem Blind.andThen {k m : State → Ran} (first : Blind k) (next : Blind m) : Blind fun s => (k s).andThen m :=
  fun s x => Ran.map_andThen (first s x) next

theorem runBuild_blind : Blind runBuild := fun _ _ => Ran.map_ite rfl rfl

theorem walk_blind (k : Nat) (i : NodeIdx) (p : Bits) : Blind (walk k i p) := by
  induction k generalizing i p with
  | zero => exact fun _ _ => rfl
  | succ k ih =>
    intro s x
    have arena : (s.withRun x).node = s.node := rfl
    rw [walk, walk, arena]
    cases s.node[i.val] with
    | leaf v => exact Ran.map_ite rfl rfl
    | internal l r => exact (ih l _).andThen (ih r _) s x

theorem assignCodes_blind : Blind assignCodes := by
  intro s x
  have root : (s.withRun x).node[(s.withRun x).root.val] = s.node[s.root.val] := rfl
  rw [assignCodes, assignCodes, root]
  cases s.node[s.root.val] with
  | leaf v => rfl
  | internal l r => exact walk_blind _ s.root [] s x

theorem runGencodes_blind : Blind runGencodes := fun s x =>
  Ran.map_ite (Ran.map_andThen (assignCodes_blind s.invalidateCodes.clearCodes x) fun _ _ => rfl) rfl

theorem runMagicWrite_blind (m : Word) : Blind (runMagicWrite m) := fun _ _ => rfl

theorem writeNode_blind (k : Nat) (i : NodeIdx) : Blind (writeNode k i) := by
  induction k generalizing i with
  | zero => exact fun _ _ => rfl
  | succ k ih =>
    intro s x
    have arena : (s.withRun x).node = s.node := rfl
    rw [writeNode, writeNode, arena]
    cases s.node[i.val] with
    | leaf v => rfl
    | internal l r => exact (ih l).andThen (ih r) (s.writeBits 1 0) x

theorem runHdrWrite_blind : Blind runHdrWrite := fun s x => Ran.map_ite (writeNode_blind _ s.root s x) rfl

theorem emitCode_blind (v : Symbol) : Blind (emitCode v) := fun _ _ => Ran.map_ite rfl rfl

theorem encodeLoop_blind (k : Nat) : Blind (encodeLoop k) := by
  induction k with
  | zero => exact fun _ _ => rfl
  | succ k ih =>
    intro s x
    rw [encodeLoop, encodeLoop, readBits_withRun]
    cases readBits Config.BYTE_BITS s with
    | none => rfl
    | some r => exact (emitCode_blind _).andThen (fun t x => ih t.countSymbol x) r.2 x

theorem runEncode_blind : Blind runEncode := fun s x =>
  Ran.map_ite (Ran.map_andThen (encodeLoop_blind s.unread.length s.resetSymCount x) (emitCode_blind _)) rfl

theorem runFlush_blind : Blind runFlush := fun _ _ => rfl

theorem runMagicRead_blind (m : Word) : Blind (runMagicRead m) := by
  intro s x
  rw [runMagicRead, runMagicRead, readBits_withRun]
  cases readBits Config.MAGIC_BITS s with
  | none => rfl
  | some r => exact Ran.map_ite rfl rfl

theorem readNode_withRun (k n : Nat) (s : State) (x : Bool × Option Word × Bool) :
    readNode k n (s.withRun x) = (readNode k n s).map (·.withRun x) := by
  induction k generalizing n s with
  | zero => rfl
  | succ k ih =>
    rw [readNode, readNode, readBits_withRun]
    cases readBits 1 s with
    | none => rfl
    | some r =>
      obtain ⟨f, t⟩ := r
      have weigh (i : NodeIdx) (w : Word) : (t.withRun x).setWeight i w = (t.setWeight i w).withRun x := rfl
      simp only [Option.map_some, weigh, ih, readBits_withRun]
      split_ifs with room leaf
      · cases readBits Config.LEAF_BITS (t.setWeight ⟨n, room⟩ 0#32) with
        | none => rfl
        | some q =>
          simp only [Option.map_some]
          split_ifs <;> rfl
      · cases readNode k (n + 1) (t.setWeight ⟨n, room⟩ 0#32) with
        | failed c y => rfl
        | got l m y =>
          simp only [NodeRead.map, ih]
          cases readNode k m y <;> rfl
      · rfl

theorem runHdrRead_blind : Blind runHdrRead := by
  intro s x
  have same : (s.withRun x).invalidate = s.invalidate.withRun x := rfl
  rw [runHdrRead, runHdrRead, same, readNode_withRun]
  cases readNode (Config.NODE_MAX + 1) 0 s.invalidate <;> rfl

theorem decodeLoop_blind (k : Nat) (pos : NodeIdx) : Blind (decodeLoop k pos) := by
  induction k generalizing pos with
  | zero => exact fun _ _ => rfl
  | succ k ih =>
    intro s x
    rw [decodeLoop, decodeLoop, readBits_withRun]
    cases readBits 1 s with
    | none => rfl
    | some r =>
      obtain ⟨b, t⟩ := r
      have move : descend (t.withRun x) pos b = descend t pos b := rfl
      have arena : (t.withRun x).node = t.node := rfl
      simp only [Option.map_some, move, arena]
      cases descend t pos b with
      | none => rfl
      | some j =>
        dsimp only
        cases t.node[j.val] with
        | internal _ _ => exact ih j t x
        | leaf v => exact Ran.map_ite rfl (ih t.root (t.writeBits Config.BYTE_BITS v.val).countSymbol x)

theorem runDecode_blind : Blind runDecode := fun s x =>
  Ran.map_ite (decodeLoop_blind s.unread.length s.root s.resetSymCount x) rfl

theorem runCompress_blind (m : Word) : Blind (runCompress m) :=
  ((((runBuild_blind.andThen runGencodes_blind).andThen (runMagicWrite_blind m)).andThen runHdrWrite_blind).andThen
    runEncode_blind).andThen runFlush_blind

theorem runDecompress_blind (m : Word) : Blind (runDecompress m) :=
  (((runMagicRead_blind m).andThen runHdrRead_blind).andThen runDecode_blind).andThen runFlush_blind

/-- BUSY, DONE and the pending word are the acceptance's and the completion's alone (40 R152, R153). -/
theorem bodyOf_blind (i : Instr) : Blind (bodyOf i) := by
  cases i with
  | nop | clear => exact fun _ _ => rfl
  | flush => exact runFlush_blind
  | build => exact runBuild_blind
  | gencodes => exact runGencodes_blind
  | magicWrite => exact runMagicWrite_blind _
  | hdrWrite => exact runHdrWrite_blind
  | magicRead => exact runMagicRead_blind _
  | hdrRead => exact runHdrRead_blind
  | encode => exact runEncode_blind
  | decode => exact runDecode_blind
  | compress => exact runCompress_blind _
  | decompress => exact runDecompress_blind _

/-! The steps in order. -/

/-- The bodies of some commands one after another. -/
def bodiesOf : List Instr → State → Ran
  | [], s => .ok s
  | i :: is, s => (bodyOf i s).andThen (bodiesOf is)

theorem runCompress_eq_bodiesOf (s : State) : runCompress Config.MAGIC s =
    bodiesOf [.build, .gencodes, .magicWrite, .hdrWrite, .encode, .flush] s := by
  simp only [runCompress, Ran.andThen_assoc]
  rfl

theorem runDecompress_eq_bodiesOf (s : State) : runDecompress Config.MAGIC s =
    bodiesOf [.magicRead, .hdrRead, .decode, .flush] s := by
  simp only [runDecompress, Ran.andThen_assoc]
  rfl

/-- The end `t` of a composite's steps as the composite's own, its opcode `o` and DONE `done` before it (46 R285). -/
def State.ofSteps (t : State) (o : BitVec 8) (done : Bool) : State :=
  if t.err then { t with op := o, done := done } else t

theorem State.ofSteps_of_noErr {t : State} (noErr : t.err = false) (o : BitVec 8) (done : Bool) :
    t.ofSteps o done = t := if_neg (by simp [noErr])

theorem BodyFrame.done_err {s t : State} (frame : BodyFrame s t) : t.done = s.done ∧ t.err = s.err :=
  ⟨congrArg (·.2.2.1) frame.control, congrArg (·.2.2.2.1) frame.control⟩

section
variable {is : List Instr} {s t : State} {o : BitVec 8}

/-- One step, whatever BUSY, DONE and the pending word are before it, and then the others. -/
theorem complete_bodiesOf_cons {i : Instr} (x : Bool × Option Word × Bool) (step : i ≠ .clear) (noErr : s.err = false)
    (rest : ∀ u : State, u.err = false → runInOrder is u.succeeded = .next t →
      complete o (bodiesOf is u) = .next (t.ofSteps o u.done))
    (run : runInOrder (i :: is) (s.withRun x) = .next t) :
    complete o (bodiesOf (i :: is) s) = .next (t.ofSteps o s.done) := by
  have frame := bodyOf_frame step s
  rw [runInOrder, exec_eq_complete, bodyOf_blind i s x] at run
  rw [bodiesOf]
  cases body : bodyOf i s with
  | ok u =>
    rw [body] at run frame
    obtain ⟨done, err⟩ := BodyFrame.done_err frame
    have clean : ¬ u.succeeded.err = true := by simp [err, noErr]
    have goesOn : runInOrder is u.succeeded = .next t := (if_neg clean).symm.trans run
    rw [Ran.andThen_ok, rest u (err.trans noErr) goesOn, done]
  | error c st u =>
    rw [body] at run frame
    cases run
    rw [← (BodyFrame.done_err frame).1]
    rfl
  | stuck f =>
    rw [body] at run
    cases run

theorem complete_bodiesOf_of_succeeded (steps : ∀ i ∈ is, i ≠ .clear) (noErr : s.err = false)
    (run : runInOrder is s.succeeded = .next t) : complete o (bodiesOf is s) = .next (t.ofSteps o s.done) := by
  induction is generalizing s with
  | nil =>
    cases run
    rw [bodiesOf, complete_ok, State.ofSteps_of_noErr (by exact noErr)]
  | cons i is ih =>
    obtain ⟨step, steps⟩ := List.forall_mem_cons.mp steps
    exact complete_bodiesOf_cons (false, none, true) step noErr (fun u => ih steps) run

/-- The first step keeps BUSY, DONE and the pending word of the state it starts from, the others those of a completion. -/
theorem complete_bodiesOf {i : Instr} (steps : ∀ j ∈ i :: is, j ≠ .clear) (noErr : s.err = false)
    (run : runInOrder (i :: is) s = .next t) :
    complete o (bodiesOf (i :: is) s) = .next (t.ofSteps o s.done) := by
  obtain ⟨step, steps⟩ := List.forall_mem_cons.mp steps
  exact complete_bodiesOf_cons (s.busy, s.pending, s.done) step noErr
    (fun u => complete_bodiesOf_of_succeeded steps) run

end

/-- Settles O48: the steps' bodies run one after another, whatever flags the completions between them set. -/
theorem compositesRunTheirStepsInOrder : Obligations.CompositesRunTheirStepsInOrder := by
  refine fun s t noErr => ⟨fun run => ?_, fun run => ?_⟩
  · rw [exec_eq_complete, bodyOf, runCompress_eq_bodiesOf]
    exact complete_bodiesOf (by decide) noErr run
  · rw [exec_eq_complete, bodyOf, runDecompress_eq_bodiesOf]
    exact complete_bodiesOf (by decide) noErr run

end Sys2Proof.Machine
end

section
/-! PROOFS. The composites on what they are for (spec/46 R280, R282): the whole next state from the end of the body. -/

namespace Sys2Proof.Machine

/-- Settles O49: COMPRESS's body writes the stream of the tree and codes it leaves, and pads it. -/
theorem compressWritesTheWholeStream : Obligations.CompressWritesTheWholeStream := by
  intro s bs tail fits next short counted
  obtain ⟨c, t, body, ⟨_, _, _, _, _, _, _, rfl⟩, tree, codes, live⟩ :=
    exists_runCompress Config.MAGIC fits next short counted
  refine ⟨_, t, exec_of_ok (i := .compress) body, tree, codes, live, ?_⟩
  rw [List.append_assoc, List.append_assoc, ← List.append_assoc (bitsOf _ _)]
  rfl

/-- Settles O51: DECOMPRESS's body consumes the marker, the header and the codes up to the code of 256, and pads. -/
theorem decompressReadsTheWholeStream : Obligations.DecompressReadsTheWholeStream := by
  intro s t cs e rest fits codes eos next
  obtain ⟨_, ⟨_, _, rfl⟩, tree, body⟩ := exists_runDecompress Config.MAGIC fits codes eos next
  rw [resetSymCount_decoded] at body
  refine ⟨_, exec_of_ok (i := .decompress) body, tree, ?_⟩
  simp [State.advance, State.finalize, State.succeeded, padding, Nat.add_assoc]

end Sys2Proof.Machine
end

section
/-! PROOFS. The ends of the composites (spec/46 R280 to R286): which errors each step can raise where the steps before it
ended well, and that none of them is stuck. -/

namespace Sys2Proof.Machine

/-! The ends of a body. -/

/-- The body is not stuck: it ends well in a state with the property, or with one of the errors listed, each beside the
opcode of the step that raises it. -/
def Ran.Ends (P : State → Prop) (errors : List (Cause × BitVec 8)) : Ran → Prop
  | .ok s => P s
  | .error c st _ => (c, st) ∈ errors
  | .stuck _ => False

theorem Ran.Ends.mono {P : State → Prop} {es fs : List (Cause × BitVec 8)} {r : Ran} (ends : r.Ends P es)
    (more : es ⊆ fs) : r.Ends P fs := by
  cases r with
  | ok s => exact ends
  | error c st s => exact more ends
  | stuck f => exact ends

theorem Ran.Ends.andThen {P Q : State → Prop} {errors : List (Cause × BitVec 8)} {r : Ran} {k : State → Ran}
    (first : r.Ends P errors) (next : ∀ s, P s → (k s).Ends Q errors) : (r.andThen k).Ends Q errors := by
  cases r with
  | ok s => exact next s first
  | error c st s => exact first
  | stuck f => exact first

/-- FLUSH leaves whole bytes (20 R95). -/
theorem runFlush_ends (s : State) : (runFlush s).Ends (fun t => t.out.length % 8 = 0) [] :=
  length_finalize_out_mod_eight s

/-! COMPRESS. -/

theorem emitCode_ends (v : Symbol) (s : State) : (emitCode v s).Ends (fun _ => True) [(.noCode, opcodeOf .encode)] := by
  unfold emitCode
  split
  · exact List.mem_singleton_self _
  · trivial

theorem encodeLoop_ends (k : Nat) (s : State) :
    (encodeLoop k s).Ends (fun _ => True) [(.noCode, opcodeOf .encode)] := by
  induction k generalizing s with
  | zero => trivial
  | succ k ih =>
    unfold encodeLoop
    split
    · trivial
    · exact (emitCode_ends _ _).andThen fun t _ => ih t.countSymbol

theorem runEncode_ends {s : State} (valid : s.codesValid = true) :
    (runEncode s).Ends (fun _ => True) [(.noCode, opcodeOf .encode)] := by
  rw [runEncode, if_pos valid]
  exact (encodeLoop_ends _ _).andThen fun t _ => emitCode_ends _ t

/-- Where the total fits, GENCODES has the tree BUILD left, whose leaves are distinct. -/
theorem runBuild_runGencodes_ends (s : State) : ((runBuild s).andThen runGencodes).Ends
    (fun c => c.treeValid = true ∧ c.codesValid = true ∧ ∃ t, c.HoldsTree t) [(.weightOverflow, opcodeOf .build)] := by
  by_cases fits : (allSymbols.map s.count).sum ≤ 2 ^ 32 - 1
  · obtain ⟨c, t, tables, frame, tree, -⟩ := exists_tables fits
    obtain ⟨valid, validCodes⟩ := frame.valid
    rw [tables]
    exact ⟨valid, validCodes, t, tree⟩
  · rw [runBuild_of_overflow (by rw [totalWeight_eq]; omega)]
    exact List.mem_singleton_self _

theorem runHdrWrite_ends {s : State} {t : HuffTree} (valid : s.treeValid = true) (tree : s.HoldsTree t) :
    (runHdrWrite s).Ends (fun u => u.codesValid = s.codesValid) [] := by
  rw [runHdrWrite_of_tree valid tree]
  rfl

/-- The errors of COMPRESS's steps (46 R280, R284). -/
def compressErrors : List (Cause × BitVec 8) := [(.weightOverflow, opcodeOf .build), (.noCode, opcodeOf .encode)]

theorem runCompress_ends (m : Word) (s : State) :
    (runCompress m s).Ends (fun t => t.out.length % 8 = 0) compressErrors := by
  have tables := (runBuild_runGencodes_ends s).mono (fs := compressErrors) (by decide)
  have header := (tables.andThen (k := fun c => (runMagicWrite m c).andThen runHdrWrite)
    (Q := fun u => u.codesValid = true) fun c ⟨valid, validCodes, t, tree⟩ => validCodes ▸
      (runHdrWrite_ends (s := c.append (bitsOf 32 m.toNat)) valid tree).mono (by decide))
  rw [← Ran.andThen_assoc] at header
  exact (header.andThen fun u valid => (runEncode_ends valid).mono (by decide)).andThen
    fun u _ => (runFlush_ends u).mono (by decide)

/-! DECOMPRESS. -/

theorem runMagicRead_ends (m : Word) (s : State) : (runMagicRead m s).Ends (fun _ => True)
    [(.badMagic, opcodeOf .magicRead), (.hdrTrunc, opcodeOf .magicRead)] := by
  unfold runMagicRead
  split
  · exact List.mem_of_mem_tail (List.mem_singleton_self _)
  · split
    · trivial
    · exact List.mem_cons_self

/-- Either a header stands next, which HDR_READ rebuilds, or it raises one of its causes (43 R216). -/
theorem runHdrRead_ends (s : State) : (runHdrRead s).Ends (fun u => u.treeValid = true ∧ ∃ t, u.HoldsTree t)
    ([.hdrTrunc, .hdrSymbol, .hdrOverflow].map (·, opcodeOf .hdrRead)) := by
  obtain ⟨t, rest, next, fits⟩ | ⟨c, mem, d, u, read, -⟩ := header_or_fails 514 0 s.invalidate le_rfl
  · obtain ⟨u, header, frame, tree⟩ := runHdrRead_of_header (s := s) next (by simpa using fits)
    rw [header]
    exact ⟨frame.valid, t, tree⟩
  · rw [runHdrRead_of_failed read]
    exact List.mem_map_of_mem mem

/-- From the root, or an internal entry of the tree, a bit leads to an entry of the tree (45 R260). -/
theorem exists_descend {s : State} {pos : NodeIdx} {t x : HuffTree} {ixs jxs : List NodeIdx} (b : BitVec 1)
    (root : Represents s.node s.root t ixs) (here : Represents s.node pos x jxs)
    (inner : pos = s.root ∨ ∃ l r, s.node[pos.val] = .internal l r) :
    ∃ j, descend s pos b = some j ∧ ∃ y kxs, Represents s.node j y kxs := by
  cases h : s.node[s.root.val] with
  | leaf v => exact ⟨s.root, by simp [descend, h], t, ixs, root⟩
  | internal l r =>
    obtain ⟨l, r, entry⟩ : ∃ l r, s.node[pos.val] = .internal l r := by
      obtain rfl | entry := inner
      · exact ⟨l, r, h⟩
      · exact entry
    have move : descend s pos b = some (if b = 0#1 then l else r) := by simp [descend, h, entry]
    obtain ⟨_, v, leaf⟩ | ⟨_, _, _, tl, tr, il, ir, node, left, right⟩ := here
    · cases leaf.symm.trans entry
    · cases node.symm.trans entry
      refine ⟨_, move, ?_⟩
      split
      · exact ⟨tl, il, left⟩
      · exact ⟨tr, ir, right⟩

theorem decodeLoop_ends (k : Nat) {s : State} {pos : NodeIdx} {t x : HuffTree} {ixs jxs : List NodeIdx}
    (root : Represents s.node s.root t ixs) (here : Represents s.node pos x jxs)
    (inner : pos = s.root ∨ ∃ l r, s.node[pos.val] = .internal l r) :
    (decodeLoop k pos s).Ends (fun _ => True) [(.truncatedPayload, opcodeOf .decode)] := by
  induction k generalizing s pos x jxs with
  | zero => exact List.mem_singleton_self _
  | succ k ih =>
    rw [decodeLoop]
    cases read : readBits 1 s with
    | none => exact List.mem_singleton_self _
    | some r =>
      obtain ⟨b, u⟩ := r
      obtain ⟨rfl, -⟩ := readBits_eq_some read
      obtain ⟨j, (move : descend { s with inPos := s.inPos + 1 } pos b = some j), y, kxs, there⟩ :=
        exists_descend (s := s.advance 1) b root here inner
      simp only [move]
      split
      · rename_i l r entry
        exact ih (s := s.advance 1) root there (.inr ⟨l, r, entry⟩)
      · split
        · trivial
        · exact ih (s := ((s.advance 1).writeBits _ _).countSymbol) root root (.inl rfl)

theorem runDecode_ends {s : State} {t : HuffTree} (valid : s.treeValid = true) (tree : s.HoldsTree t) :
    (runDecode s).Ends (fun _ => True) [(.truncatedPayload, opcodeOf .decode)] := by
  obtain ⟨ixs, root, -⟩ := tree
  rw [runDecode_of_tree valid]
  exact decodeLoop_ends _ (s := s.resetSymCount) root root (.inl rfl)

/-- The errors of DECOMPRESS's steps (46 R282, R284). -/
def decompressErrors : List (Cause × BitVec 8) :=
  [(.badMagic, opcodeOf .magicRead), (.hdrTrunc, opcodeOf .magicRead), (.hdrTrunc, opcodeOf .hdrRead),
    (.hdrSymbol, opcodeOf .hdrRead), (.hdrOverflow, opcodeOf .hdrRead), (.truncatedPayload, opcodeOf .decode)]

theorem runDecompress_ends (m : Word) (s : State) :
    (runDecompress m s).Ends (fun t => t.out.length % 8 = 0) decompressErrors :=
  ((((runMagicRead_ends m s).mono (by decide)).andThen fun t _ => (runHdrRead_ends t).mono (by decide)).andThen
    fun _ ⟨valid, _, tree⟩ => (runDecode_ends valid tree).mono (by decide)).andThen
      fun t _ => (runFlush_ends t).mono (by decide)

/-! The completion. -/

/-- How a command completes whose body keeps the flags and has the ends given, `e` the error it takes. -/
theorem complete_of_ends {P : State → Prop} {errors : List (Cause × BitVec 8)} {s : State} {r : Ran} (o : BitVec 8)
    (noErr : s.err = false) (frame : r.All (BodyFrame s)) (ends : r.Ends P errors) :
    ∃ u : State, complete o r = .next u
      ∧ ((u.err = false ∧ ∃ t, P t ∧ u = t.succeeded)
        ∨ (u.err = true ∧ u.op = o ∧ ∃ e ∈ errors, u.cause = e.1.code ∧ u.stepOp = e.2)) := by
  cases r with
  | ok t =>
    exact ⟨_, rfl, .inl ⟨(BodyFrame.done_err frame).2.trans noErr, t, ends, rfl⟩⟩
  | error c st t => exact ⟨_, rfl, .inr ⟨rfl, rfl, _, ends, rfl, rfl⟩⟩
  | stuck f => exact ends.elim

/-- Settles O50: each step's own errors, where the steps before it ended well. -/
theorem compositesFailOnlyAsTheirStepsDo : Obligations.CompositesFailOnlyAsTheirStepsDo := by
  refine fun s noErr => ⟨?_, ?_⟩
  · obtain ⟨u, done, ⟨err, t, aligned, rfl⟩ | ⟨err, op, e, mem, cause, step⟩⟩ := complete_of_ends
      (opcodeOf .compress) noErr (runCompress_frame Config.MAGIC s) (runCompress_ends Config.MAGIC s)
    · exact ⟨_, done, .inl ⟨err, rfl, aligned⟩⟩
    · refine ⟨u, done, .inr ⟨err, op, ?_⟩⟩
      rw [cause, step]
      clear cause step
      revert e
      decide
  · obtain ⟨u, done, ⟨err, t, aligned, rfl⟩ | ⟨err, op, e, mem, cause, step⟩⟩ := complete_of_ends
      (opcodeOf .decompress) noErr (runDecompress_frame Config.MAGIC s) (runDecompress_ends Config.MAGIC s)
    · exact ⟨_, done, .inl ⟨err, rfl, aligned⟩⟩
    · refine ⟨u, done, .inr ⟨err, op, ?_⟩⟩
      rw [cause, step]
      clear cause step
      revert e
      decide

end Sys2Proof.Machine
end

section
/-! PROOFS. The error capture (spec/60 R310, R312), and the host's accesses while a command runs and after a reset
(spec/70 R340, R350, R351). -/

namespace Sys2Proof.Machine

/-! The error capture. -/

/-- Settles O22: a completion with an error is `failedWith` of its code, and the codes are those of R300. -/
theorem captureRecordsTheError : Obligations.CaptureRecordsTheError :=
  ⟨fun c opbyte st s => complete_error opbyte c st s, rfl⟩

/-- CAUSE, OP, STEP and ERR_POS are the same in both states (60 R312). -/
def SameCapture (s t : State) : Prop :=
  t.cause = s.cause ∧ t.op = s.op ∧ t.stepOp = s.stepOp ∧ t.errPos = s.errPos

/-- A host move that leaves the error pending leaves its capture. -/
theorem HostMove.sameCapture {s t : State} {a : HostAction} (h : HostMove s a t) (pending : t.err = true) :
    SameCapture s t := by
  cases h with
  | status off width v idle =>
    rw [statusWrite_eq] at pending ⊢
    obtain ⟨-, unset⟩ : s.err = true ∧ ¬ v.getLsbD 2 = true := by simpa using pending
    exact ⟨if_neg unset, if_neg unset, if_neg unset, if_neg unset⟩
  | reset => cases pending
  | _ => exact ⟨rfl, rfl, rfl, rfl⟩

/-- The command that runs beside a pending error is CLEAR, which ends it (40 R156, 60 R312). -/
theorem err_of_engine_step {s t : State} (inv : s.Inv) (err : s.err = true) (ht : s.turn = .engine)
    (busy : s.busy = true) (h : step s = .next t) : t.err = false := by
  rw [engineStepRunsTheDecodedCommand s _ .clear ht busy (inv.err_busy busy err) rfl] at h
  cases h
  rfl

/-- Settles O23: the host's moves keep the capture until they acknowledge it, and the engine can only run CLEAR. -/
theorem pendingErrorIsSticky : Obligations.PendingErrorIsSticky := by
  refine ⟨fun s w err idle notClear ht => (cmdWriteIsAcceptedOrDropped s w ht idle).1 err notClear,
    fun s t inv err h err' => ?_⟩
  have cleared (ht : s.turn = .engine) (busy : s.busy = true) : SameCapture s t := by
    cases (err_of_engine_step inv err ht busy h).symm.trans err'
  obtain ⟨-, -, rfl⟩ | ⟨w, i, ht, busy, -⟩ | ⟨w, ht, busy, -⟩ | ⟨a, -, move⟩ := step_cases h
  · exact ⟨rfl, rfl, rfl, rfl⟩
  · exact cleared ht busy
  · exact cleared ht busy
  · exact move.sameCapture err'

/-! The host's accesses while a command runs. -/

/-- Settles O10: the busy branch of `RegWrite`. -/
theorem writesWhileBusyOnlySetDrop : Obligations.WritesWhileBusyOnlySetDrop := by
  intro s off v ht aligned busy
  rw [step_regWrite ht aligned, State.writeReg.eq_def, if_pos (by exact busy)]
  rfl

/-- The offsets of the volatile registers (20 R82, 40 R150). -/
theorem volatile_regAt {off : Offset} (aligned : off.toNat % 4 = 0)
    (range : 0x0014 ≤ off.toNat ∧ off.toNat ≤ 0x0028 ∨ 0x2000 ≤ off.toNat ∧ off.toNat ≤ 0x2800
      ∨ 0x3000 ≤ off.toNat ∧ off.toNat ≤ 0x3800 ∨ 0x4000 ≤ off.toNat ∧ off.toNat ≤ 0x4400
      ∨ 0x8000 ≤ off.toNat ∧ off.toNat ≤ 0xA01C) : (regAt off).volatile = true := by
  obtain low | range | range | range | range := range
  · obtain rfl | rfl | rfl | rfl | rfl | rfl : off = 0x0014#16 ∨ off = 0x0018#16 ∨ off = 0x001C#16 ∨ off = 0x0020#16
        ∨ off = 0x0024#16 ∨ off = 0x0028#16 := by bv_omega
    all_goals rfl
  all_goals simp (disch := omega) only [regAt, dif_neg, dif_pos, Reg.volatile]

theorem not_volatile_regAt {off : Offset} (aligned : off.toNat % 4 = 0)
    (range : off.toNat ≤ 0x0010 ∨ 0x1000 ≤ off.toNat ∧ off.toNat ≤ 0x1400) :
    (regAt off).volatile = false := by
  obtain low | range := range
  · obtain rfl | rfl | rfl | rfl | rfl : off = 0x0000#16 ∨ off = 0x0004#16 ∨ off = 0x0008#16 ∨ off = 0x000C#16
        ∨ off = 0x0010#16 := by bv_omega
    all_goals rfl
  · simp (disch := omega) only [regAt, dif_pos, Reg.volatile]

/-- Settles O18: the registers at the offsets named are volatile or not, and the read is free or shows its state. -/
theorem volatileReadsWhileBusyAreFree : Obligations.VolatileReadsWhileBusyAreFree := by
  intro s off ht aligned busy
  refine ⟨fun range => step_read_free ht aligned busy (volatile_regAt aligned range), fun range =>
    step_read ht aligned (.inr (not_volatile_regAt aligned (by omega))), ?_⟩
  rintro rfl
  exact step_read ht aligned (.inr rfl)

/-! Reset. -/

/-- Settles O53: reset is the host's reset of any state, which has the invariant. -/
theorem invariantHoldsAtReset : Obligations.InvariantHoldsAtReset := resetMove_inv State.reset

theorem count_resetMove (s : State) (v : Symbol) : s.resetMove.count v = if v = 256 then 1 else 0 := by
  by_cases eos : v = 256
  · rw [if_pos eos, eos, count_eos]
  · rw [if_neg eos, State.count, dif_pos (val_lt_of_ne_eos eos)]
    simp [State.resetMove, State.reset]

theorem statusWord_errorWord_reset : State.reset.statusWord = 0#32 ∧ State.reset.errorWord = 0#32 := by
  decide

/-- Settles O21: the host's reset sets each element, and both valid flags clear mask the storage. -/
theorem resetGivesTheStatedValues : Obligations.ResetGivesTheStatedValues := fun s ht =>
  ⟨s.popTurn.resetMove, step_of_host ht, rfl, rfl, rfl, rfl, rfl, rfl, rfl, rfl, rfl, rfl, rfl, rfl, rfl, rfl,
    count_resetMove _, rfl, rfl, rfl, rfl, fun _ => ⟨rfl, rfl⟩, fun _ => ⟨rfl, fun _ => rfl⟩,
    statusWord_errorWord_reset.1, statusWord_errorWord_reset.2, rfl⟩

end Sys2Proof.Machine
end

section
/-! PROOFS. Every command ends (spec/70 R360, R362): no body is stuck where the invariant holds, so an accepted command
completes once the engine's turn has come. -/

namespace Sys2Proof.Machine

/-! No body is stuck. -/

theorem Ran.Ends.ne_stuck {P : State → Prop} {errors : List (Cause × BitVec 8)} {r : Ran} (h : r.Ends P errors)
    (f : Fault) : r ≠ .stuck f := by
  rintro rfl
  exact h

theorem assignAll_ends (ps : List (Symbol × Bits)) (s : State) :
    (assignAll ps s).Ends (fun _ => True) [(.dupSymbol, opcodeOf .gencodes)] := by
  induction ps generalizing s with
  | nil => trivial
  | cons c ps ih =>
    unfold assignAll
    split
    · exact ih _
    · exact List.mem_singleton_self _

theorem runBuild_ne_stuck (s : State) (f : Fault) : runBuild s ≠ .stuck f := by
  unfold runBuild
  split <;> nofun

theorem runGencodes_ne_stuck {s : State} (data : s.DataInv) (f : Fault) : runGencodes s ≠ .stuck f := by
  by_cases valid : s.treeValid = true
  · obtain ⟨t, tree⟩ := data.tree valid
    rw [runGencodes_of_tree valid tree]
    have ends := (assignAll_ends t.codes s.invalidateCodes.clearCodes).andThen (k := fun u => .ok u.validCodes)
      (Q := fun _ => True) fun _ _ => trivial
    exact ends.ne_stuck f
  · rw [runGencodes_of_noTree (by simpa using valid)]
    nofun

theorem runHdrWrite_ne_stuck {s : State} (data : s.DataInv) (f : Fault) : runHdrWrite s ≠ .stuck f := by
  by_cases valid : s.treeValid = true
  · obtain ⟨t, tree⟩ := data.tree valid
    exact (runHdrWrite_ends valid tree).ne_stuck f
  · rw [runHdrWrite_of_noTree (by simpa using valid)]
    nofun

theorem runEncode_ne_stuck (s : State) (f : Fault) : runEncode s ≠ .stuck f := by
  by_cases valid : s.codesValid = true
  · exact (runEncode_ends valid).ne_stuck f
  · rw [runEncode_of_noCodes (by simpa using valid)]
    nofun

theorem runDecode_ne_stuck {s : State} (data : s.DataInv) (f : Fault) : runDecode s ≠ .stuck f := by
  by_cases valid : s.treeValid = true
  · obtain ⟨t, tree⟩ := data.tree valid
    exact (runDecode_ends valid tree).ne_stuck f
  · rw [runDecode_of_noTree (by simpa using valid)]
    nofun

theorem bodyOf_ne_stuck (i : Instr) {s : State} (data : s.DataInv) (f : Fault) : bodyOf i s ≠ .stuck f := by
  cases i with
  | nop | clear | flush | magicWrite => nofun
  | build => exact runBuild_ne_stuck s f
  | gencodes => exact runGencodes_ne_stuck data f
  | hdrWrite => exact runHdrWrite_ne_stuck data f
  | magicRead => exact (runMagicRead_ends _ s).ne_stuck f
  | hdrRead => exact (runHdrRead_ends s).ne_stuck f
  | encode => exact runEncode_ne_stuck s f
  | decode => exact runDecode_ne_stuck data f
  | compress => exact (runCompress_ends _ s).ne_stuck f
  | decompress => exact (runDecompress_ends _ s).ne_stuck f

/-! Completions. -/

/-- The engine is idle, and the command ended with DONE or an error (40 R153). -/
def State.Completed (t : State) : Prop := t.busy = false ∧ t.pending = none ∧ (t.done = true ∨ t.err = true)

theorem exists_complete {r : Ran} (o : BitVec 8) (free : ∀ f, r ≠ .stuck f) :
    ∃ t, complete o r = .next t ∧ t.Completed := by
  cases r with
  | ok s => exact ⟨_, rfl, rfl, rfl, .inl rfl⟩
  | error c st s => exact ⟨_, rfl, rfl, rfl, .inr rfl⟩
  | stuck f => exact absurd rfl (free f)

theorem exists_exec (i : Instr) {s : State} (data : s.DataInv) : ∃ t, exec i s = .next t ∧ t.Completed := by
  rw [exec_eq_complete]
  exact exists_complete _ (bodyOf_ne_stuck i data)

theorem exists_completePending {s : State} (inv : s.Inv) (busy : s.busy = true) :
    ∃ t, completePending s = .next t ∧ t.Completed := by
  obtain ⟨control, data⟩ := State.inv_iff.mp inv
  obtain ⟨w, pending⟩ := Option.isSome_iff_exists.mp (control.busy_pending.symm.trans busy)
  cases decoded : decode w with
  | ok i =>
    rw [completePending_of_legal pending decoded]
    exact exists_exec i data
  | error e =>
    rw [completePending_of_illegal pending (by simp [decoded])]
    exact exists_complete _ nofun

/-- The engine's turn while busy is the completion. -/
theorem exists_step_of_engine {s : State} (inv : s.Inv) (ht : s.turn = .engine) (busy : s.busy = true) :
    ∃ t, step s = .next t ∧ t.Completed := by
  rw [step_of_engine ht, engineTurn, if_pos (by exact busy)]
  exact exists_completePending (popTurn_inv inv) busy

theorem hostTurn_ne_fault (a : HostAction) (s : State) (f : Fault) : hostTurn a s ≠ .fault f := by
  cases a with
  | reset => nofun
  | _ =>
    unfold hostTurn
    dsimp only
    split <;> nofun

/-- Settles O55: a body that is not stuck completes, and a step faults in neither agent's turn. -/
theorem everyCommandEnds : Obligations.EveryCommandEnds := by
  refine fun s inv => ⟨fun i => exists_exec i (State.inv_iff.mp inv).2, fun f => ?_⟩
  cases ht : s.turn with
  | host a =>
    rw [step_of_host ht]
    exact hostTurn_ne_fault a _ f
  | engine =>
    by_cases busy : s.busy = true
    · obtain ⟨t, done, -⟩ := exists_step_of_engine inv ht busy
      rw [done]
      nofun
    · rw [step_of_engine ht, engineTurn, if_neg (by exact busy)]
      nofun

/-! Completion within the agenda. -/

/-- An admitted access while a command runs leaves it running, and takes its own turn off the agenda. -/
theorem exists_step_of_access {s : State} {a : HostAction} (ht : s.turn = .host a) (busy : s.busy = true)
    (waits : (Turn.host a).waits = true) :
    ∃ t, step s = .next t ∧ t.busy = true ∧ t.agenda = s.agenda.tail := by
  rw [step_of_host ht]
  cases a with
  | regRead off width =>
    refine ⟨_, if_pos waits, ?_⟩
    unfold State.readReg
    split <;> exact ⟨busy, rfl⟩
  | regWrite off width v =>
    refine ⟨_, if_pos waits, ?_⟩
    rw [State.writeReg.eq_def, if_pos (by exact busy)]
    exact ⟨busy, rfl⟩
  | attachIn _ | attachOut | takeOut | reset => cases waits

theorem core_run_succ {s t : State} (h : step s = .next t) (k : Nat) :
    Sys2Proof.core.run (k + 1) s = Sys2Proof.core.run k t := by
  simp [Host.Core.run, Sys2Proof.core, h]

/-- Settles O56: the engine's turn, on the agenda or after it, completes the command; the turns before it leave it
running. -/
theorem busyMachineCompletes : Obligations.BusyMachineCompletes := by
  intro s inv busy waits
  generalize turns : s.agenda = agenda at waits ⊢
  have completes {s : State} (inv : s.Inv) (busy : s.busy = true) (ht : s.turn = .engine) :
      ∃ t, Sys2Proof.core.run 1 s = .next t ∧ t.busy = false := by
    obtain ⟨t, done, idle, -⟩ := exists_step_of_engine inv ht busy
    exact ⟨t, core_run_succ done 0, idle⟩
  induction agenda generalizing s with
  | nil =>
    obtain ⟨t, run, idle⟩ := completes inv busy (by simp [State.turn, turns])
    exact ⟨1, t, le_rfl, run, idle⟩
  | cons x rest ih =>
    have ht : s.turn = x := by simp [State.turn, turns]
    cases x with
    | engine =>
      obtain ⟨t, run, idle⟩ := completes inv busy ht
      exact ⟨1, t, by simp, run, idle⟩
    | host a =>
      obtain ⟨u, moved, busy', later⟩ := exists_step_of_access ht busy (waits _ (by simp))
      obtain ⟨k, t, few, run, idle⟩ := ih u (stepKeepsTheInvariant s u inv moved) busy' (by simp [later, turns])
        fun y hy => waits y (by simp [hy])
      exact ⟨k + 1, t, by simpa using few, (core_run_succ moved k).trans run, idle⟩

end Sys2Proof.Machine
end

section
/-! PROOFS. Masked storage (spec/70 R340): a state whose masked storage is exchanged goes on as the state itself does. A
command that looks at no storage, or only at what the valid flags show, commutes with the exchange; BUILD and HDR_READ
write every entry they mark valid, whatever stood there. -/

namespace Sys2Proof.Machine

/-! The storage that reset leaves unspecified, exchanged. -/

/-- Contents of the arena and the code table (70 R340). -/
structure Storage where
  node : Vector Node 513
  weight : Vector Word 513
  codeLen : Vector Nat 257
  codeVal : Vector (BitVec 256) 257

/-- The state with other contents in the arena and the code table. -/
def State.withStorage (s : State) (x : Storage) : State :=
  { s with node := x.node, weight := x.weight, codeLen := x.codeLen, codeVal := x.codeVal }

theorem SameButMasked.exists_storage {s t : State} (h : SameButMasked s t) : ∃ x, t = s.withStorage x :=
  ⟨⟨t.node, t.weight, t.codeLen, t.codeVal⟩, h.rest.symm⟩

/-- The storage and its valid flags are the same in both states. -/
def SameStorage (s t : State) : Prop := t.storage = s.storage ∧ t.weight = s.weight

theorem OutOnly.sameStorage {s t : State} : OutOnly s t → SameStorage s t := by
  rintro ⟨_, rfl⟩
  exact ⟨rfl, rfl⟩

theorem Recodes.sameStorage {s t : State} : Recodes s t → SameStorage s t := by
  rintro ⟨_, _, _, rfl⟩
  exact ⟨rfl, rfl⟩

/-- What is masked in a state is masked in every state with the same storage. -/
theorem SameButMasked.of_sameStorage {s u : State} {x : Storage} (h : SameButMasked s (s.withStorage x))
    (same : SameStorage s u) : SameButMasked u (u.withStorage x) := by
  obtain ⟨-, arena, codes⟩ := h
  obtain ⟨storage, weight⟩ := same
  cases s
  cases u
  cases storage
  cases weight
  exact ⟨rfl, arena, codes⟩

/-- With both valid flags clear all storage is masked. -/
theorem SameButMasked.of_invalid {s t : State}
    (rest : { s with node := t.node, weight := t.weight, codeLen := t.codeLen, codeVal := t.codeVal } = t)
    (noTree : s.treeValid = false) (noCodes : s.codesValid = false) : SameButMasked s t :=
  ⟨rest, by simp [noTree], by simp [noCodes]⟩

/-- The exchange of masked storage leaves a tree in the arena. -/
theorem SameButMasked.holdsTree {s : State} {x : Storage} {t : HuffTree} (h : SameButMasked s (s.withStorage x))
    (valid : s.treeValid = true) (tree : s.HoldsTree t) : (s.withStorage x).HoldsTree t := by
  obtain ⟨ixs, represents, nodup, filled, leaves⟩ := tree
  exact ⟨ixs, represents.congr fun i hi => (h.arena valid i ((filled i).mp hi)).1.symm, nodup, filled, leaves⟩

/-! Ends of bodies that agree. -/

/-- Both bodies end alike, with the same error if any, in states that are related. -/
inductive Ran.Rel (R : State → State → Prop) : Ran → Ran → Prop where
  | ok {s t : State} (h : R s t) : Ran.Rel R (.ok s) (.ok t)
  | error (c : Cause) (st : BitVec 8) {s t : State} (h : R s t) : Ran.Rel R (.error c st s) (.error c st t)
  | stuck (f : Fault) : Ran.Rel R (.stuck f) (.stuck f)

/-- A body's ends are related to the same ends changed by `f` where each is related to its image. -/
theorem Ran.All.rel_map {P : State → Prop} {R : State → State → Prop} {f : State → State} {r : Ran} (h : r.All P)
    (related : ∀ u, P u → R u (f u)) : r.Rel R (r.map f) := by
  cases r with
  | ok u => exact .ok (related u h)
  | error c st u => exact .error c st (related u h)
  | stuck f => exact .stuck f

theorem Ran.Rel.andThen {R : State → State → Prop} {r r' : Ran} {k k' : State → Ran} (first : r.Rel R r')
    (next : ∀ s t, R s t → (k s).Rel R (k' t)) : (r.andThen k).Rel R (r'.andThen k') := by
  cases first with
  | ok h => exact next _ _ h
  | error c st h => exact .error c st h
  | stuck f => exact .stuck f

/-- What every end of the first body has besides. -/
theorem Ran.Rel.and {R : State → State → Prop} {P : State → Prop} {r r' : Ran} (h : r.Rel R r') (all : r.All P) :
    r.Rel (fun s t => R s t ∧ P s) r' := by
  cases h with
  | ok h => exact .ok ⟨h, all⟩
  | error c st h => exact .error c st ⟨h, all⟩
  | stuck f => exact .stuck f

theorem Ran.Rel.mono {R Q : State → State → Prop} {r r' : Ran} (h : r.Rel R r') (weaker : ∀ {s t}, R s t → Q s t) :
    r.Rel Q r' := by
  cases h with
  | ok h => exact .ok (weaker h)
  | error c st h => exact .error c st (weaker h)
  | stuck f => exact .stuck f

/-- Agreement of the bodies is agreement of the completions. -/
theorem outcomesAgree_of_rel {r r' : Ran} (o : BitVec 8) (h : r.Rel SameButMasked r') :
    OutcomesAgree (complete o r) (complete o r') := by
  cases h with
  | ok h =>
    obtain ⟨x, rfl⟩ := h.exists_storage
    exact h.of_sameStorage (u := State.succeeded _) ⟨rfl, rfl⟩
  | error c st h =>
    obtain ⟨x, rfl⟩ := h.exists_storage
    exact h.of_sameStorage (u := State.failedWith _ _ _ _) ⟨rfl, rfl⟩
  | stuck f => rfl

/-- A body that carries the exchange along ends in states that differ in masked storage only, if it leaves the storage
as it is. -/
theorem rel_of_commutes {k : State → Ran} {s : State} {x : Storage} (h : SameButMasked s (s.withStorage x))
    (commutes : k (s.withStorage x) = (k s).map (·.withStorage x)) (frame : (k s).All (SameStorage s)) :
    (k s).Rel SameButMasked (k (s.withStorage x)) := by
  rw [commutes]
  exact frame.rel_map fun _ => h.of_sameStorage

/-! Bodies that look at no storage, or only at what the valid flags show. -/

theorem Ran.andThen_map {r : Ran} {k : State → Ran} {f : State → State} (next : ∀ s, k (f s) = (k s).map f) :
    (r.map f).andThen k = (r.andThen k).map f := by
  cases r with
  | ok s => exact next s
  | error c st s => rfl
  | stuck g => rfl

theorem readBits_withStorage (n : Nat) (s : State) (x : Storage) :
    readBits n (s.withStorage x) = (readBits n s).map fun r => (r.1, r.2.withStorage x) := by
  rw [readBits, readBits, apply_ite (Option.map _)]
  rfl

theorem runMagicRead_withStorage (m : Word) (s : State) (x : Storage) :
    runMagicRead m (s.withStorage x) = (runMagicRead m s).map (·.withStorage x) := by
  rw [runMagicRead, runMagicRead, readBits_withStorage]
  cases readBits Config.MAGIC_BITS s with
  | none => rfl
  | some r => exact Ran.map_ite rfl rfl

/-- CLEAR keeps the storage and masks all of it (40 R156). -/
theorem runClear_rel (s : State) (x : Storage) : (runClear s).Rel SameButMasked (runClear (s.withStorage x)) :=
  .ok (.of_invalid rfl rfl rfl)

section
variable {s : State} {x : Storage} (h : SameButMasked s (s.withStorage x))
include h

theorem runMagicRead_rel (m : Word) : (runMagicRead m s).Rel SameButMasked (runMagicRead m (s.withStorage x)) :=
  rel_of_commutes h (runMagicRead_withStorage m s x) ((runMagicRead_all m s).mono fun _ ⟨_, e⟩ => e ▸ ⟨rfl, rfl⟩)

theorem runMagicWrite_rel (m : Word) : (runMagicWrite m s).Rel SameButMasked (runMagicWrite m (s.withStorage x)) :=
  rel_of_commutes h rfl ((runMagicWrite_all m s).mono fun _ => OutOnly.sameStorage)

theorem runFlush_rel : (runFlush s).Rel SameButMasked (runFlush (s.withStorage x)) :=
  rel_of_commutes h rfl ((runFlush_all s).mono fun _ => OutOnly.sameStorage)

/-- HDR_WRITE sees the tree alone. -/
theorem runHdrWrite_rel (data : s.DataInv) :
    (runHdrWrite s).Rel SameButMasked (runHdrWrite (s.withStorage x)) := by
  refine rel_of_commutes h ?_ ((runHdrWrite_all s).mono fun _ => OutOnly.sameStorage)
  by_cases valid : s.treeValid = true
  · obtain ⟨t, tree⟩ := data.tree valid
    rw [runHdrWrite_of_tree valid tree, runHdrWrite_of_tree (by exact valid) (h.holdsTree valid tree)]
    rfl
  · have noTree : s.treeValid = false := by simpa using valid
    rw [runHdrWrite_of_noTree noTree, runHdrWrite_of_noTree (by exact noTree)]
    rfl

end

/-! DECODE: the walk stays among the entries of the tree. -/

/-- The children of every entry in use are in use, as the root is (10 R49). -/
structure State.Closed (s : State) : Prop where
  root : s.root.val < s.nodeCount
  children : ∀ i l r : NodeIdx, i.val < s.nodeCount → s.node[i.val] = .internal l r →
    l.val < s.nodeCount ∧ r.val < s.nodeCount

theorem Represents.children_mem {node : Vector Node 513} {i j l r : NodeIdx} {t : HuffTree} {ixs : List NodeIdx}
    (h : Represents node i t ixs) (mem : j ∈ ixs) (entry : node[j.val] = .internal l r) : l ∈ ixs ∧ r ∈ ixs := by
  induction h with
  | leaf i v leaf =>
    obtain rfl := List.mem_singleton.mp mem
    cases leaf.symm.trans entry
  | node i a b ta tb ia ib node ha hb iha ihb =>
    obtain rfl | inLeft | inRight : j = i ∨ j ∈ ia ∨ j ∈ ib := by simpa using mem
    · cases node.symm.trans entry
      simp [ha.self_mem, hb.self_mem]
    · obtain ⟨left, right⟩ := iha inLeft
      simp [left, right]
    · obtain ⟨left, right⟩ := ihb inRight
      simp [left, right]

theorem State.HoldsTree.closed {s : State} {t : HuffTree} (h : s.HoldsTree t) : s.Closed := by
  obtain ⟨ixs, represents, -, filled, -⟩ := h
  refine ⟨(filled _).mp represents.self_mem, fun i l r below entry => ?_⟩
  obtain ⟨left, right⟩ := represents.children_mem ((filled i).mpr below) entry
  exact ⟨(filled l).mp left, (filled r).mp right⟩

/-- A bit leads from an entry in use to one in use. -/
theorem State.Closed.descend {s : State} {i j : NodeIdx} {b : BitVec 1} (h : s.Closed) (below : i.val < s.nodeCount)
    (move : Machine.descend s i b = some j) : j.val < s.nodeCount := by
  unfold Machine.descend at move
  split at move
  · cases move
    exact h.root
  · split at move
    · cases move
    · rename_i l r entry
      obtain ⟨left, right⟩ := h.children i l r below entry
      cases move
      split
      · exact left
      · exact right

theorem descend_withStorage {s : State} {x : Storage} {i : NodeIdx} (b : BitVec 1)
    (root : s.node[s.root.val] = x.node[s.root.val]) (here : s.node[i.val] = x.node[i.val]) :
    descend (s.withStorage x) i b = descend s i b := by
  have root' : (s.withStorage x).node[(s.withStorage x).root.val] = s.node[s.root.val] := root.symm
  have here' : (s.withStorage x).node[i.val] = s.node[i.val] := here.symm
  rw [Machine.descend, Machine.descend, root', here']
  rfl

theorem decodeLoop_withStorage (k : Nat) {s : State} {x : Storage} {i : NodeIdx} (closed : s.Closed)
    (same : ∀ j : NodeIdx, j.val < s.nodeCount → s.node[j.val] = x.node[j.val]) (below : i.val < s.nodeCount) :
    decodeLoop k i (s.withStorage x) = (decodeLoop k i s).map (·.withStorage x) := by
  induction k generalizing s i with
  | zero => rfl
  | succ k ih =>
    rw [decodeLoop, decodeLoop, readBits_withStorage]
    cases read : readBits 1 s with
    | none => rfl
    | some r =>
      obtain ⟨b, u⟩ := r
      obtain ⟨closed', same', below'⟩ : u.Closed
          ∧ (∀ j : NodeIdx, j.val < u.nodeCount → u.node[j.val] = x.node[j.val]) ∧ i.val < u.nodeCount := by
        obtain ⟨rfl, -⟩ := readBits_eq_some read
        exact ⟨⟨closed.root, closed.children⟩, same, below⟩
      have moved := descend_withStorage b (same' _ closed'.root) (same' i below')
      simp only [Option.map_some, moved]
      cases move : descend u i b with
      | none => rfl
      | some j =>
        have there := closed'.descend below' move
        have entry : (u.withStorage x).node[j.val] = u.node[j.val] := (same' j there).symm
        simp only [entry]
        cases u.node[j.val] with
        | internal l r => exact ih closed' same' there
        | leaf v =>
          have written : (u.writeBits Config.BYTE_BITS v.val).countSymbol.Closed := ⟨closed'.root, closed'.children⟩
          exact Ran.map_ite rfl (ih written same' closed'.root)

/-- DECODE sees the tree alone. -/
theorem runDecode_rel {s : State} {x : Storage} (h : SameButMasked s (s.withStorage x)) (data : s.DataInv) :
    (runDecode s).Rel SameButMasked (runDecode (s.withStorage x)) := by
  refine rel_of_commutes h ?_ ((runDecode_all s).mono fun _ => Recodes.sameStorage)
  by_cases valid : s.treeValid = true
  · obtain ⟨t, tree⟩ := data.tree valid
    have closed := tree.closed
    rw [runDecode_of_tree valid, runDecode_of_tree (by exact valid)]
    exact decodeLoop_withStorage s.unread.length (s := s.resetSymCount) ⟨closed.root, closed.children⟩
      (fun j below => (h.arena valid j below).1) closed.root
  · have noTree : s.treeValid = false := by simpa using valid
    rw [runDecode_of_noTree noTree, runDecode_of_noTree (by exact noTree)]
    rfl

/-! GENCODES and ENCODE: bodies that look at no arena entry but the tree's carry other arena contents along. -/

/-- The state with other arena contents. -/
def State.withArena (s : State) (node : Vector Node 513) (weight : Vector Word 513) : State :=
  { s with node := node, weight := weight }

section
variable (node : Vector Node 513) (weight : Vector Word 513)

theorem assignAll_withArena (ps : List (Symbol × Bits)) (s : State) :
    assignAll ps (s.withArena node weight) = (assignAll ps s).map (·.withArena node weight) := by
  induction ps generalizing s with
  | nil => rfl
  | cons c ps ih => exact Ran.map_ite (ih (s.setCode c.1 c.2.length (BitVec.ofNat 256 (valOf c.2)))) rfl

theorem readBits_withArena (n : Nat) (s : State) : readBits n (s.withArena node weight)
    = (readBits n s).map fun r => (r.1, r.2.withArena node weight) := by
  rw [readBits, readBits, apply_ite (Option.map _)]
  rfl

theorem emitCode_withArena (v : Symbol) (s : State) :
    emitCode v (s.withArena node weight) = (emitCode v s).map (·.withArena node weight) :=
  Ran.map_ite rfl rfl

theorem encodeLoop_withArena (k : Nat) (s : State) :
    encodeLoop k (s.withArena node weight) = (encodeLoop k s).map (·.withArena node weight) := by
  induction k generalizing s with
  | zero => rfl
  | succ k ih =>
    rw [encodeLoop, encodeLoop, readBits_withArena]
    cases readBits Config.BYTE_BITS s with
    | none => rfl
    | some r =>
      simp only [Option.map_some, emitCode_withArena]
      exact Ran.andThen_map fun t => ih t.countSymbol

theorem runEncode_withArena (s : State) :
    runEncode (s.withArena node weight) = (runEncode s).map (·.withArena node weight) := by
  refine Ran.map_ite ?_ rfl
  rw [show (s.withArena node weight).resetSymCount = s.resetSymCount.withArena node weight from rfl,
    encodeLoop_withArena]
  exact Ran.andThen_map (emitCode_withArena node weight _)

end

/-- With a valid code table only arena entries can be masked. -/
theorem SameButMasked.eq_withArena {s : State} {x : Storage} (h : SameButMasked s (s.withStorage x))
    (valid : s.codesValid = true) : s.withStorage x = s.withArena x.node x.weight := by
  obtain ⟨len, val⟩ := h.codes valid
  rw [State.withArena, len, val]
  rfl

theorem runEncode_rel {s : State} {x : Storage} (h : SameButMasked s (s.withStorage x)) :
    (runEncode s).Rel SameButMasked (runEncode (s.withStorage x)) := by
  by_cases valid : s.codesValid = true
  · rw [h.eq_withArena valid, runEncode_withArena]
    refine (runEncode_all s).rel_map fun u recoded => ?_
    obtain ⟨_, _, _, rfl⟩ := recoded
    exact ⟨rfl, h.arena, fun _ => ⟨rfl, rfl⟩⟩
  · have noCodes : s.codesValid = false := by simpa using valid
    rw [runEncode_of_noCodes noCodes, runEncode_of_noCodes (by exact noCodes)]
    exact .error _ _ (h.of_sameStorage (u := s.resetSymCount) ⟨rfl, rfl⟩)

/-- GENCODES clears the code table and fills it from the tree alone (42 R190). -/
theorem runGencodes_rel {s : State} {x : Storage} (h : SameButMasked s (s.withStorage x)) (data : s.DataInv) :
    (runGencodes s).Rel SameButMasked (runGencodes (s.withStorage x)) := by
  by_cases valid : s.treeValid = true
  · obtain ⟨t, tree⟩ := data.tree valid
    have cleared : (s.withStorage x).invalidateCodes.clearCodes
        = s.invalidateCodes.clearCodes.withArena x.node x.weight := rfl
    have commutes : runGencodes (s.withStorage x) = (runGencodes s).map (·.withArena x.node x.weight) := by
      rw [runGencodes_of_tree valid tree, runGencodes_of_tree (by exact valid) (h.holdsTree valid tree), cleared,
        assignAll_withArena]
      exact Ran.andThen_map fun _ => rfl
    rw [commutes]
    refine (runGencodes_all s).rel_map fun u written => ?_
    obtain ⟨_, _, _, rfl⟩ := written
    exact ⟨rfl, h.arena, fun _ => ⟨rfl, rfl⟩⟩
  · have noTree : s.treeValid = false := by simpa using valid
    rw [runGencodes_of_noTree noTree, runGencodes_of_noTree (by exact noTree)]
    exact .error _ _ ⟨rfl, h.arena, nofun⟩

/-! BUILD: every entry it marks valid comes from the counts (41 R178). -/

theorem runBuild_eq_ok {s : State} (fits : (allSymbols.map s.count).sum ≤ 2 ^ 32 - 1) :
    runBuild s = .ok ({ s.invalidate with node := (builtForest s).node, weight := (builtForest s).weight }.validTree
      (Fin.ofNat 513 (2 * s.live.length - 2)) (2 * s.live.length - 1) s.live.length) := by
  rw [runBuild_of_fits (by rw [totalWeight_eq]; omega), builtForest_pq fits, builtForest_n, (leafForest_leavesOf s).n]
  rfl

theorem runBuild_rel (s : State) (x : Storage) :
    (runBuild s).Rel SameButMasked (runBuild (s.withStorage x)) := by
  have freq : s.freq = (s.withStorage x).freq := rfl
  by_cases fits : (allSymbols.map s.count).sum ≤ 2 ^ 32 - 1
  · rw [runBuild_eq_ok fits, runBuild_eq_ok (by exact fits)]
    refine .ok ⟨rfl, fun _ i below => ?_, nofun⟩
    obtain ⟨node, weight⟩ := builtForest_agree freq fits _ le_rfl i below
    exact ⟨node.symm, weight.symm⟩
  · have overflow : totalWeight s > 2 ^ 32 - 1 := by
      rw [totalWeight_eq]
      omega
    rw [runBuild_of_overflow overflow, runBuild_of_overflow (by exact overflow)]
    exact .error _ _ (.of_invalid rfl rfl rfl)

/-! HDR_READ: every entry it marks valid comes from the input (43 R216). -/

/-- The states differ in storage only, and in none of the nodes in `A` and the weights in `B`. -/
structure Alike (A B : NodeIdx → Prop) (s t : State) : Prop where
  rest : { s with node := t.node, weight := t.weight, codeLen := t.codeLen, codeVal := t.codeVal } = t
  node : ∀ i, A i → s.node[i.val] = t.node[i.val]
  weight : ∀ i, B i → s.weight[i.val] = t.weight[i.val]

section
variable {A B A' B' : NodeIdx → Prop} {s t : State}

theorem Alike.mono (h : Alike A B s t) (nodes : ∀ i, A' i → A i) (weights : ∀ i, B' i → B i) : Alike A' B' s t :=
  ⟨h.rest, fun i hi => h.node i (nodes i hi), fun i hi => h.weight i (weights i hi)⟩

theorem Alike.unread (h : Alike A B s t) : t.unread = s.unread := by
  rw [← h.rest]
  rfl

theorem Alike.advance (h : Alike A B s t) (n : Nat) : Alike A B (s.advance n) (t.advance n) :=
  ⟨congrArg (State.advance · n) h.rest, h.node, h.weight⟩

/-- An entry both states write is the same in both. -/
theorem Alike.setNode (h : Alike A B s t) (i : NodeIdx) (nd : Node) :
    Alike (fun j => j = i ∨ A j) B (s.setNode i nd) (t.setNode i nd) := by
  refine ⟨congrArg (fun u => { u with node := t.node.set i.val nd }) h.rest, fun j hj => ?_, h.weight⟩
  obtain rfl | hj := hj
  · simp
  · simp only [State.setNode_node, Vector.getElem_set, h.node j hj]

theorem Alike.begin (h : Alike A B s t) (i : NodeIdx) : Alike A (fun j => j = i ∨ B j) (s.begin i) (t.begin i) := by
  have advanced := h.advance 1
  refine ⟨congrArg (fun u => { u with weight := t.weight.set i.val 0#32 }) advanced.rest, h.node, fun j hj => ?_⟩
  obtain rfl | hj := hj
  · simp
  · simp only [State.begin_weight, Vector.getElem_set, h.weight j hj]

end

/-- Entries read from `n` on, below `m`, beside those in `A`. -/
def Filled (A : NodeIdx → Prop) (n m : Nat) (i : NodeIdx) : Prop := A i ∨ n ≤ i.val ∧ i.val < m

/-- Both node reads end alike, in states alike but for storage; a node that was read has filled its entries alike. -/
inductive NodeRead.Rel (A B : NodeIdx → Prop) (n : Nat) : NodeRead → NodeRead → Prop where
  | got (i : NodeIdx) (m : Nat) {s t : State} (h : Alike (Filled A n m) (Filled B n m) s t) :
      NodeRead.Rel A B n (.got i m s) (.got i m t)
  | failed (c : Cause) {s t : State} (h : Alike A B s t) : NodeRead.Rel A B n (.failed c s) (.failed c t)

/-- An entry filled from `n` on is entry `n` itself, or filled by the reads of the two subtrees after it. -/
theorem Filled.subtrees {A : NodeIdx → Prop} {n m : Nat} {i : NodeIdx} (h : Filled A n m i) (m' : Nat) :
    i.val = n ∨ Filled (Filled A (n + 1) m') m' m i := by
  obtain before | ⟨lower, upper⟩ := h
  · exact .inr (.inl (.inl before))
  obtain own | after := lower.eq_or_lt'
  · exact .inl own
  by_cases left : i.val < m'
  · exact .inr (.inl (.inr ⟨after, left⟩))
  · exact .inr (.inr ⟨not_lt.mp left, upper⟩)

theorem NodeRead.Rel.andThen {A B A' B' : NodeIdx → Prop} {n n' : Nat} {r r' : NodeRead}
    {k : NodeIdx → Nat → State → NodeRead} (first : r.Rel A B n r')
    (failed : ∀ {s t}, Alike A B s t → Alike A' B' s t)
    (next : ∀ i m {s t}, Alike (Filled A n m) (Filled B n m) s t → (k i m s).Rel A' B' n' (k i m t)) :
    (r.andThen k).Rel A' B' n' (r'.andThen k) := by
  cases first with
  | got i m h => exact next i m h
  | failed c h => exact .failed c (failed h)

/-- A leaf read into entry `n`, from the bits that stand next. -/
theorem readNode_leaf_rel (k : Nat) {n : Nat} {A B : NodeIdx → Prop} {s t : State} {bits : Bits} (h : Alike A B s t)
    (next : s.unread = true :: bits) (room : n < 513) :
    (readNode (k + 1) n s).Rel A B n (readNode (k + 1) n t) := by
  have begun := h.begin ⟨n, room⟩
  have next' := h.unread.trans next
  by_cases short : bits.length < 9
  · rw [readNode_of_cut next room short, readNode_of_cut next' room short]
    exact .failed _ (begun.mono (fun _ => id) fun _ => .inr)
  have width : (bits.take 9).length = 9 := List.length_take_of_le (by omega)
  rw [← List.take_append_drop 9 bits] at next next'
  by_cases bad : 257 ≤ valOf (bits.take 9)
  · rw [readNode_of_badSymbol next width room bad, readNode_of_badSymbol next' width room bad]
    exact .failed _ ((begun.advance 9).mono (fun _ => id) fun _ => .inr)
  · have symbol := bitsOf_valOf (bits.take 9)
    rw [width] at symbol
    rw [← symbol] at next next'
    have read (u : State) (next : u.unread = true :: (bitsOf 9 (valOf (bits.take 9)) ++ bits.drop 9)) :=
      readNode_of_leaf (k := k) (v := ⟨valOf (bits.take 9), by omega⟩) next room
    have own {P : NodeIdx → Prop} {i : NodeIdx} (filled : Filled P n (n + 1) i) : i = ⟨n, room⟩ ∨ P i :=
      filled.elim .inr fun ⟨lower, upper⟩ => .inl (Fin.ext (by dsimp only; omega))
    rw [read s next, read t next']
    exact .got _ _ (((begun.advance 9).setNode _ _).mono (fun _ => own) fun _ => own)

theorem readNode_rel (k n : Nat) {A B : NodeIdx → Prop} {s t : State} (h : Alike A B s t) :
    (readNode k n s).Rel A B n (readNode k n t) := by
  induction k generalizing n A B s t with
  | zero => exact .failed _ h
  | succ k ih =>
    cases next : s.unread with
    | nil =>
      rw [readNode_of_nil next, readNode_of_nil (h.unread.trans next)]
      exact .failed _ h
    | cons b bits =>
      have next' := h.unread.trans next
      by_cases full : 513 ≤ n
      · rw [readNode_of_full next full, readNode_of_full next' full]
        exact .failed _ (h.advance 1)
      have room : n < 513 := not_le.mp full
      cases b with
      | true => exact readNode_leaf_rel k h next room
      | false =>
        rw [readNode_of_false next room, readNode_of_false next' room]
        refine (ih (n + 1) (h.begin ⟨n, room⟩)).andThen (·.mono (fun _ => id) fun _ => .inr) fun l m _ _ left =>
          (ih m left).andThen (·.mono (fun _ => .inl) fun _ => .inl ∘ .inr) fun r m' _ _ right =>
            .got _ _ ((right.setNode _ _).mono (fun i filled => ?_) fun i filled => ?_)
        · exact (filled.subtrees m).imp_left Fin.ext
        · obtain own | subtrees := filled.subtrees m
          · exact .inl (.inl (.inl (Fin.ext own)))
          · exact subtrees.imp_left (.imp_left .inr)

theorem Alike.leavesBelow_eq {A B : NodeIdx → Prop} {m : Nat} {s t : State} (h : Alike (Filled A 0 m) B s t)
    (fits : m ≤ 513) : leavesBelow m s = leavesBelow m t := by
  rw [leavesBelow_eq_countP s fits, leavesBelow_eq_countP t fits]
  refine List.countP_congr fun i hi => ?_
  have filled := (mem_block (by omega)).mp hi
  rw [h.node i (.inr (by omega))]

theorem runHdrRead_rel (s : State) (x : Storage) :
    (runHdrRead s).Rel SameButMasked (runHdrRead (s.withStorage x)) := by
  have start : Alike (fun _ => False) (fun _ => False) s.invalidate (s.withStorage x).invalidate := ⟨rfl, nofun, nofun⟩
  have both := readNode_rel 514 0 start
  have flags : SameFlags s.invalidate (readNode 514 0 s.invalidate).state := by
    obtain ⟨_, _, _, frame⟩ := readNode_state 514 0 s.invalidate
    exact frame ▸ ⟨rfl, rfl⟩
  generalize read : readNode 514 0 s.invalidate = a at both flags
  generalize read' : readNode 514 0 (s.withStorage x).invalidate = b at both
  obtain ⟨noTree, noCodes⟩ := flags
  cases both with
  | failed c h =>
    rw [runHdrRead_of_failed read, runHdrRead_of_failed read']
    exact .error _ _ (.of_invalid h.rest noTree noCodes)
  | @got i m u v h =>
    have leaves := h.leavesBelow_eq (holdsTree_of_readNode read).1
    have invalid : u.codesValid = false := noCodes
    rw [runHdrRead_of_got read, runHdrRead_of_got read', leaves]
    refine .ok ⟨congrArg (State.validTree · i m _) h.rest, fun _ j below => ?_, fun valid => ?_⟩
    · exact ⟨h.node j (.inr ⟨Nat.zero_le _, below⟩), h.weight j (.inr ⟨Nat.zero_le _, below⟩)⟩
    · cases invalid.symm.trans valid

/-! Every command. -/

/-- The states differ in masked storage only, and the first keeps the storage's part of the invariant. -/
def MaskedPair (s t : State) : Prop := SameButMasked s t ∧ s.DataInv

/-- The body takes states that differ in masked storage only to ends that do. -/
def Respects (k : State → Ran) : Prop := ∀ s t, MaskedPair s t → (k s).Rel MaskedPair (k t)

theorem respects_of_rel {k : State → Ran} (keeps : ∀ {s}, s.DataInv → (k s).All State.DataInv)
    (rel : ∀ {s x}, SameButMasked s (s.withStorage x) → s.DataInv → (k s).Rel SameButMasked (k (s.withStorage x))) :
    Respects k := by
  rintro s t ⟨masked, data⟩
  obtain ⟨x, rfl⟩ := masked.exists_storage
  exact (rel masked data).and (keeps data)

theorem Respects.andThen {k m : State → Ran} (first : Respects k) (next : Respects m) :
    Respects fun s => (k s).andThen m :=
  fun s t pair => (first s t pair).andThen next

theorem runBuild_respects : Respects runBuild := respects_of_rel runBuild_dataInv fun _ _ => runBuild_rel _ _

theorem runGencodes_respects : Respects runGencodes := respects_of_rel runGencodes_dataInv runGencodes_rel

theorem runMagicWrite_respects (m : Word) : Respects (runMagicWrite m) :=
  respects_of_rel runMagicWrite_dataInv fun h _ => runMagicWrite_rel h m

theorem runHdrWrite_respects : Respects runHdrWrite := respects_of_rel runHdrWrite_dataInv runHdrWrite_rel

theorem runMagicRead_respects (m : Word) : Respects (runMagicRead m) :=
  respects_of_rel runMagicRead_dataInv fun h _ => runMagicRead_rel h m

theorem runHdrRead_respects : Respects runHdrRead := respects_of_rel runHdrRead_dataInv fun _ _ => runHdrRead_rel _ _

theorem runEncode_respects : Respects runEncode := respects_of_rel runEncode_dataInv fun h _ => runEncode_rel h

theorem runDecode_respects : Respects runDecode := respects_of_rel runDecode_dataInv runDecode_rel

theorem runFlush_respects : Respects runFlush := respects_of_rel runFlush_dataInv fun h _ => runFlush_rel h

theorem bodyOf_respects (i : Instr) : Respects (bodyOf i) := by
  cases i with
  | nop => exact fun _ _ pair => .ok pair
  | clear => exact respects_of_rel (bodyOf_dataInv .clear) fun _ _ => runClear_rel _ _
  | flush => exact runFlush_respects
  | build => exact runBuild_respects
  | gencodes => exact runGencodes_respects
  | magicWrite => exact runMagicWrite_respects _
  | hdrWrite => exact runHdrWrite_respects
  | magicRead => exact runMagicRead_respects _
  | hdrRead => exact runHdrRead_respects
  | encode => exact runEncode_respects
  | decode => exact runDecode_respects
  | compress =>
    exact ((((runBuild_respects.andThen runGencodes_respects).andThen (runMagicWrite_respects _)).andThen
      runHdrWrite_respects).andThen runEncode_respects).andThen runFlush_respects
  | decompress =>
    exact (((runMagicRead_respects _).andThen runHdrRead_respects).andThen runDecode_respects).andThen
      runFlush_respects

/-! The step. -/

/-- A register shows no masked storage (10 R36, 40 R150). -/
theorem SameButMasked.regValue {s : State} {x : Storage} (h : SameButMasked s (s.withStorage x)) (r : Reg) :
    (s.withStorage x).regValue r = s.regValue r := by
  have entry (i : NodeIdx) (shown : (s.treeValid && decide (i.val < s.nodeCount)) = true) :
      x.node[i.val] = s.node[i.val] ∧ x.weight[i.val] = s.weight[i.val] := by
    obtain ⟨valid, below⟩ : s.treeValid = true ∧ i.val < s.nodeCount := by simpa using shown
    obtain ⟨node, weight⟩ := h.arena valid i below
    exact ⟨node.symm, weight.symm⟩
  cases r with
  | nodeInfo i => exact ite_congr rfl (fun shown => congrArg nodeInfoWord (entry i shown).1) fun _ => rfl
  | nodeWeight i => exact ite_congr rfl (fun shown => (entry i shown).2) fun _ => rfl
  | codeLen v =>
    refine ite_congr rfl (fun valid => ?_) fun _ => rfl
    rw [(h.codes valid).1]
  | codeWord v k =>
    refine ite_congr rfl (fun valid => ?_) fun _ => rfl
    rw [(h.codes valid).2]
  | _ => rfl

theorem readReg_masked {s : State} {x : Storage} (h : SameButMasked s (s.withStorage x)) (r : Reg) :
    SameButMasked (s.readReg r) ((s.withStorage x).readReg r) := by
  have commutes : (s.withStorage x).readReg r = (s.readReg r).withStorage x := by
    rw [State.readReg, State.readReg, h.regValue, apply_ite (State.withStorage · x)]
    rfl
  rw [commutes]
  refine h.of_sameStorage ?_
  unfold State.readReg
  split <;> exact ⟨rfl, rfl⟩

theorem cmdWrite_withStorage (s : State) (x : Storage) (w : Word) :
    (s.withStorage x).cmdWrite w = (s.cmdWrite w).withStorage x := by
  rw [State.cmdWrite, State.cmdWrite, apply_ite (State.withStorage · x)]
  rfl

theorem freqWrite_withStorage (s : State) (x : Storage) (u : Symbol) (v : Word) :
    (s.withStorage x).freqWrite u v = (s.freqWrite u v).withStorage x := by
  rw [State.freqWrite, State.freqWrite, apply_dite (State.withStorage · x)]
  rfl

theorem writeReg_withStorage (s : State) (x : Storage) (r : Reg) (v : Word) :
    (s.withStorage x).writeReg r v = (s.writeReg r v).withStorage x := by
  by_cases busy : s.busy = true
  · rw [State.writeReg.eq_def, State.writeReg.eq_def, if_pos busy, if_pos (by exact busy)]
    rfl
  rw [State.writeReg.eq_def, State.writeReg.eq_def, if_neg busy, if_neg (by exact busy)]
  cases r with
  | cmd => exact cmdWrite_withStorage s x v
  | status =>
    simp only [statusWrite_eq]
    rfl
  | freq u => exact freqWrite_withStorage s x u v
  | _ => rfl

/-- No host move but a reset touches the storage. -/
theorem HostMove.sameStorage {s t : State} {a : HostAction} (h : HostMove s a t) (noReset : a ≠ .reset) :
    SameStorage s t := by
  cases h with
  | status off width v idle =>
    obtain ⟨_, _, _, _, _, _, _, frame⟩ := statusWrite_frame s v
    rw [frame]
    exact ⟨rfl, rfl⟩
  | reset => exact absurd rfl noReset
  | _ => exact ⟨rfl, rfl⟩

theorem outcomesAgree_ite {p : Prop} [Decidable p] {a a' b b' : Host.Outcome State Fault Refusal}
    (yes : OutcomesAgree a a') (no : OutcomesAgree b b') :
    OutcomesAgree (if p then a else b) (if p then a' else b') := by
  split
  · exact yes
  · exact no

theorem hostTurn_masked {s : State} {x : Storage} (h : SameButMasked s (s.withStorage x)) (a : HostAction) :
    OutcomesAgree (hostTurn a s) (hostTurn a (s.withStorage x)) := by
  have kept {u : State} (same : SameStorage s u) : OutcomesAgree (.next u) (.next (u.withStorage x)) :=
    h.of_sameStorage same
  cases a with
  | regRead off width => exact outcomesAgree_ite (readReg_masked h _) rfl
  | regWrite off width v =>
    have written := kept ((hostMove_writeReg s off width v).sameStorage nofun)
    rw [← writeReg_withStorage] at written
    exact outcomesAgree_ite written rfl
  | attachIn b => exact outcomesAgree_ite rfl (kept (u := s.attachIn b) ⟨rfl, rfl⟩)
  | attachOut => exact outcomesAgree_ite rfl (kept (u := s.attachOut) ⟨rfl, rfl⟩)
  | takeOut => exact outcomesAgree_ite rfl (kept (u := s.observe (.bits s.out)) ⟨rfl, rfl⟩)
  | reset => exact SameButMasked.of_invalid rfl rfl rfl

theorem completePending_masked {s : State} {x : Storage} (h : SameButMasked s (s.withStorage x)) (data : s.DataInv) :
    OutcomesAgree (completePending s) (completePending (s.withStorage x)) := by
  have pending : (s.withStorage x).pending = s.pending := rfl
  rw [completePending, completePending, pending]
  cases s.pending with
  | none => rfl
  | some w =>
    dsimp only
    cases decode w with
    | ok i =>
      simp only [exec_eq_complete]
      exact outcomesAgree_of_rel _ ((bodyOf_respects i _ _ ⟨h, data⟩).mono And.left)
    | error e => exact outcomesAgree_of_rel _ (.error _ _ h)

/-- Settles O60: the second state is the first with its masked storage exchanged, and each host move and each command's
body takes such a pair to one. -/
theorem maskedStorageIsNeverObserved : Obligations.MaskedStorageIsNeverObserved := by
  intro s t inv _ masked
  obtain ⟨x, rfl⟩ := masked.exists_storage
  obtain ⟨-, data⟩ := State.inv_iff.mp (popTurn_inv inv)
  have popped : SameButMasked s.popTurn (s.popTurn.withStorage x) := masked.of_sameStorage ⟨rfl, rfl⟩
  have popTurn : (s.withStorage x).popTurn = s.popTurn.withStorage x := rfl
  have turn : (s.withStorage x).turn = s.turn := rfl
  rw [step, step, turn, popTurn]
  cases s.turn with
  | host a => exact hostTurn_masked popped a
  | engine => exact outcomesAgree_ite (completePending_masked popped data) popped

end Sys2Proof.Machine
end
